-- ==== Sys2Proof/Word.lean ====
section
/-! DEFINITION. The sizes of the data the spec names (00_scope.md R5, R6). -/

namespace Sys2Proof

/-- A long: 32 bits. An instruction word is one too (30_encoding.md R50). -/
abbrev Word := BitVec 32

/-- A byte, the unit of Hub RAM addresses. -/
abbrev Byte := BitVec 8

/-- A hub address: 20 bits (20_memory.md R30). -/
abbrev HubAddr := BitVec 20

/-- The 9-bit D or S field as the address of a cog register, or of a Lookup RAM long (R12, R114). -/
abbrev RegAddr := BitVec 9

/-- The condition field `EEEE`, bits 31:28 (30_encoding.md R56). -/
abbrev Cond := BitVec 4

end Sys2Proof
end

