-- ==== Sys2Proof/Syntax.lean ====
section
/-! DEFINITION. The instructions: one constructor for each of the 13 rows of spec/opcode_table.json, and their
operand forms (30_encoding.md R50 to R58, R62, R63; 40_pointer_expressions.md R74). -/

namespace Sys2Proof

/-- The size of an access (20_memory.md R37). -/
inductive Width where
  | byte
  | word
  | long
deriving DecidableEq, Repr

/-- The pointer registers, the `x` of PTRx (R73). -/
inductive Ptr where
  | a
  | b
deriving DecidableEq, Repr

/-- What a pointer expression does with PTRx (R74, R75). `index` is rows 2 and 3: no update, 6-bit signed INDEX.
`post` is rows 4, 5, 8 and 9: access at the old pointer; `pre` is rows 6, 7, 10 and 11: access at the new one.
Both carry the 5-bit two's-complement index, 1 and -1 for the unindexed forms. -/
inductive PtrForm where
  | index (i : BitVec 6)
  | post (i : BitVec 5)
  | pre (i : BitVec 5)
deriving DecidableEq, Repr

/-- The S operand `{#}S/P`: a register (R71), an 8-bit immediate (R72) or a pointer expression (R73). -/
inductive Src where
  | reg (r : RegAddr)
  | imm (v : BitVec 8)
  | ptr (p : Ptr) (f : PtrForm)
deriving DecidableEq, Repr

/-- The D operand of a write: a register, a 9-bit immediate (30_encoding.md R54), or the 32-bit `##` value of
42_hub_writes.md R105, which has a meaning and no encoding (R63). -/
inductive Data where
  | reg (r : RegAddr)
  | imm (v : BitVec 9)
  | aug (v : Word)
deriving DecidableEq, Repr

/-- The operand of SETQ and SETQ2: a register or a 9-bit immediate (R110). -/
inductive QArg where
  | reg (r : RegAddr)
  | imm (v : BitVec 9)
deriving DecidableEq, Repr

/-- An instruction. `e` is the condition field, `wc` and `wz` the effects (bits 20 and 19 of format RD, R51). -/
inductive Instr where
  | rdbyte (e : Cond) (wc wz : Bool) (d : RegAddr) (src : Src)
  | rdword (e : Cond) (wc wz : Bool) (d : RegAddr) (src : Src)
  | rdlong (e : Cond) (wc wz : Bool) (d : RegAddr) (src : Src)
  | wmlong (e : Cond) (d : RegAddr) (src : Src)
  | wrbyte (e : Cond) (data : Data) (src : Src)
  | wrword (e : Cond) (data : Data) (src : Src)
  | wrlong (e : Cond) (data : Data) (src : Src)
  | pusha (e : Cond) (data : Data)
  | pushb (e : Cond) (data : Data)
  | popa (e : Cond) (wc wz : Bool) (d : RegAddr)
  | popb (e : Cond) (wc wz : Bool) (d : RegAddr)
  | setq (e : Cond) (arg : QArg)
  | setq2 (e : Cond) (arg : QArg)
deriving DecidableEq, Repr

/-- The condition field of an instruction. -/
def Instr.cond : Instr → Cond
  | .rdbyte e .. | .rdword e .. | .rdlong e .. | .wmlong e .. | .wrbyte e .. | .wrword e .. | .wrlong e ..
  | .pusha e _ | .pushb e _ | .popa e .. | .popb e .. | .setq e _ | .setq2 e _ => e

/-- The same instruction under another condition field. -/
def Instr.withCond (i : Instr) (e : Cond) : Instr :=
  match i with
  | .rdbyte _ wc wz d src => .rdbyte e wc wz d src
  | .rdword _ wc wz d src => .rdword e wc wz d src
  | .rdlong _ wc wz d src => .rdlong e wc wz d src
  | .wmlong _ d src => .wmlong e d src
  | .wrbyte _ data src => .wrbyte e data src
  | .wrword _ data src => .wrword e data src
  | .wrlong _ data src => .wrlong e data src
  | .pusha _ data => .pusha e data
  | .pushb _ data => .pushb e data
  | .popa _ wc wz d => .popa e wc wz d
  | .popb _ wc wz d => .popb e wc wz d
  | .setq _ arg => .setq e arg
  | .setq2 _ arg => .setq2 e arg

/-- Why a word is no instruction of this spec. -/
inductive DecodeError where
  /-- The word matches no row of rules R57, R58 and R62 (R59, D31). Safe: the chip executes it as some other instruction. -/
  | unknownWord
  /-- An updating pointer form whose index field is `00000` (R60, R80, D9). Safe: the chip runs it. -/
  | indexFieldZero
deriving DecidableEq, Repr

end Sys2Proof
end

