-- ==== Sys2Proof/WellFormed.lean ====
section
/-! DEFINITION. Which instruction terms have a word of their own: the checks the encoder and the round trip rest on. -/

namespace Sys2Proof

/-- An updating form has a non-zero index field (R80). -/
def PtrForm.wellFormed : PtrForm → Bool
  | .index _ => true
  | .post i => i != 0
  | .pre i => i != 0

/-- See `PtrForm.wellFormed`. -/
def Src.wellFormed : Src → Bool
  | .ptr _ f => f.wellFormed
  | .reg _ => true
  | .imm _ => true

/-- A `##` value has no encoding (R63). -/
def Data.wellFormed : Data → Bool
  | .reg _ => true
  | .imm _ => true
  | .aug _ => false

/-- The S operand of PUSHA and PUSHB, `PTRx++` (R58). -/
def Src.isPush (src : Src) : Bool := src == .ptr .a (.post 1) || src == .ptr .b (.post 1)

/-- The S operand of POPA and POPB, `--PTRx` (R58). -/
def Src.isPop (src : Src) : Bool := src == .ptr .a (.pre (-1)) || src == .ptr .b (.pre (-1))

/-- The instruction has a word and is written under the name that word decodes to: a WRLONG through `PTRx++` is
spelled PUSHx and a RDLONG through `--PTRx` is spelled POPx, since both spellings share one word (R58). -/
def Instr.wellFormed : Instr → Bool
  | .rdbyte _ _ _ _ src => src.wellFormed
  | .rdword _ _ _ _ src => src.wellFormed
  | .rdlong _ _ _ _ src => src.wellFormed && !src.isPop
  | .wmlong _ _ src => src.wellFormed
  | .wrbyte _ data src => data.wellFormed && src.wellFormed
  | .wrword _ data src => data.wellFormed && src.wellFormed
  | .wrlong _ data src => data.wellFormed && src.wellFormed && !src.isPush
  | .pusha _ data => data.wellFormed
  | .pushb _ data => data.wellFormed
  | .popa _ _ _ _ => true
  | .popb _ _ _ _ => true
  | .setq _ _ => true
  | .setq2 _ _ => true

end Sys2Proof
end

