-- ==== Sys2Proof/Decode.lean ====
section
/-! DEFINITION. From a 32-bit word to an instruction and back (30_encoding.md R50 to R62). The decoder is total: it
answers an instruction or a reason. Words are written bit 31 first (D1). -/

namespace Sys2Proof

/-- The fields of a word (R50). -/
def fCond (w : Word) : Cond := w.extractLsb' 28 4
def fOp7 (w : Word) : BitVec 7 := w.extractLsb' 21 7
def fB20 (w : Word) : Bool := w.getLsbD 20
def fB19 (w : Word) : Bool := w.getLsbD 19
def fB18 (w : Word) : Bool := w.getLsbD 18
def fD (w : Word) : BitVec 9 := w.extractLsb' 9 9
def fS (w : Word) : BitVec 9 := w.extractLsb' 0 9

/-- PTRA for `x` = 0, PTRB for `x` = 1 (R73). -/
def decodePtr (x : Bool) : Ptr := if x then .b else .a

/-- The S operand (R55, R75): bit 8 tells an immediate from a pointer expression, bit 7 the pointer, bit 6 whether
the pointer is updated, bit 5 whether the access uses the old pointer. -/
def decodeSrc (i : Bool) (s : BitVec 9) : Except DecodeError Src :=
  if i then
    if s.getLsbD 8 then
      if s.getLsbD 6 then
        if s.extractLsb' 0 5 = 0#5 then .error .indexFieldZero
        else if s.getLsbD 5 then .ok (.ptr (decodePtr (s.getLsbD 7)) (.post (s.extractLsb' 0 5)))
        else .ok (.ptr (decodePtr (s.getLsbD 7)) (.pre (s.extractLsb' 0 5)))
      else .ok (.ptr (decodePtr (s.getLsbD 7)) (.index (s.extractLsb' 0 6)))
    else .ok (.imm (s.extractLsb' 0 8))
  else .ok (.reg s)

/-- The D operand of a write under its `L` bit (R52, R54). -/
def decodeData (l : Bool) (d : BitVec 9) : Data := if l then .imm d else .reg d

/-- The operand of SETQ and SETQ2 under its `L` bit (R62). -/
def decodeQArg (l : Bool) (d : BitVec 9) : QArg := if l then .imm d else .reg d

/-- Give the S operand, once decoded, to the instruction. -/
def withSrc (w : Word) (mk : Src → Instr) : Except DecodeError Instr :=
  match decodeSrc (fB18 w) (fS w) with
  | .ok src => .ok (mk src)
  | .error r => .error r

/-- The S fields of the aliases (R58). -/
def sPushA : BitVec 9 := 0b101100001#9
def sPushB : BitVec 9 := 0b111100001#9
def sPopA : BitVec 9 := 0b101011111#9
def sPopB : BitVec 9 := 0b111011111#9

/-- The function codes of SETQ and SETQ2 in the S field (R62, PRESUMED: G3, log 8). -/
def sSetq : BitVec 9 := 0b000101000#9
def sSetq2 : BitVec 9 := 0b000101001#9

/-- The instruction a word is, by its bits 27:21 and the fixed bits below them (R57, R58, R62); the alias rows are
tested before the rows they are instances of. Every other word is refused by name (R59). -/
def decode (w : Word) : Except DecodeError Instr :=
  if fOp7 w = 0b1010110#7 then withSrc w (.rdbyte (fCond w) (fB20 w) (fB19 w) (fD w))
  else if fOp7 w = 0b1010111#7 then withSrc w (.rdword (fCond w) (fB20 w) (fB19 w) (fD w))
  else if fOp7 w = 0b1011000#7 then
    if fB18 w ∧ fS w = sPopA then .ok (.popa (fCond w) (fB20 w) (fB19 w) (fD w))
    else if fB18 w ∧ fS w = sPopB then .ok (.popb (fCond w) (fB20 w) (fB19 w) (fD w))
    else withSrc w (.rdlong (fCond w) (fB20 w) (fB19 w) (fD w))
  else if fOp7 w = 0b1010011#7 then
    if fB20 w ∧ fB19 w then withSrc w (.wmlong (fCond w) (fD w))
    else .error .unknownWord
  else if fOp7 w = 0b1100010#7 then
    if fB20 w then withSrc w (.wrword (fCond w) (decodeData (fB19 w) (fD w)))
    else withSrc w (.wrbyte (fCond w) (decodeData (fB19 w) (fD w)))
  else if fOp7 w = 0b1100011#7 then
    if fB20 w then .error .unknownWord
    else if fB18 w ∧ fS w = sPushA then .ok (.pusha (fCond w) (decodeData (fB19 w) (fD w)))
    else if fB18 w ∧ fS w = sPushB then .ok (.pushb (fCond w) (decodeData (fB19 w) (fD w)))
    else withSrc w (.wrlong (fCond w) (decodeData (fB19 w) (fD w)))
  else if fOp7 w = 0b1101011#7 then
    if fB20 w ∨ fB19 w then .error .unknownWord
    else if fS w = sSetq then .ok (.setq (fCond w) (decodeQArg (fB18 w) (fD w)))
    else if fS w = sSetq2 then .ok (.setq2 (fCond w) (decodeQArg (fB18 w) (fD w)))
    else .error .unknownWord
  else .error .unknownWord

/-- A word from its fields (R50). -/
def mkWord (e : Cond) (op7 : BitVec 7) (b20 b19 b18 : Bool) (d s : BitVec 9) : Word :=
  e ++ op7 ++ BitVec.ofBool b20 ++ BitVec.ofBool b19 ++ BitVec.ofBool b18 ++ d ++ s

/-- The `x` bit of a pointer expression (R73). -/
def encodePtr : Ptr → Bool
  | .a => false
  | .b => true

/-- The I bit and the S field of an S operand (R55, R75). -/
def encodeSrc : Src → Bool × BitVec 9
  | .reg r => (false, r)
  | .imm v => (true, 0b0#1 ++ v)
  | .ptr p (.index i) => (true, 0b1#1 ++ BitVec.ofBool (encodePtr p) ++ 0b0#1 ++ i)
  | .ptr p (.post i) => (true, 0b1#1 ++ BitVec.ofBool (encodePtr p) ++ 0b11#2 ++ i)
  | .ptr p (.pre i) => (true, 0b1#1 ++ BitVec.ofBool (encodePtr p) ++ 0b10#2 ++ i)

/-- The L bit and the D field of a data operand (R52). A `##` value has no encoding and is not well formed; its low
nine bits stand here. -/
def encodeData : Data → Bool × BitVec 9
  | .reg r => (false, r)
  | .imm v => (true, v)
  | .aug v => (true, v.extractLsb' 0 9)

/-- The L bit and the D field of SETQ and SETQ2 (R62). -/
def encodeQArg : QArg → Bool × BitVec 9
  | .reg r => (false, r)
  | .imm v => (true, v)

/-- The word of a well-formed instruction (R57, R58, R62). -/
def encode : Instr → Word
  | .rdbyte e wc wz d src => mkWord e 0b1010110#7 wc wz (encodeSrc src).1 d (encodeSrc src).2
  | .rdword e wc wz d src => mkWord e 0b1010111#7 wc wz (encodeSrc src).1 d (encodeSrc src).2
  | .rdlong e wc wz d src => mkWord e 0b1011000#7 wc wz (encodeSrc src).1 d (encodeSrc src).2
  | .wmlong e d src => mkWord e 0b1010011#7 true true (encodeSrc src).1 d (encodeSrc src).2
  | .wrbyte e data src =>
    mkWord e 0b1100010#7 false (encodeData data).1 (encodeSrc src).1 (encodeData data).2 (encodeSrc src).2
  | .wrword e data src =>
    mkWord e 0b1100010#7 true (encodeData data).1 (encodeSrc src).1 (encodeData data).2 (encodeSrc src).2
  | .wrlong e data src =>
    mkWord e 0b1100011#7 false (encodeData data).1 (encodeSrc src).1 (encodeData data).2 (encodeSrc src).2
  | .pusha e data => mkWord e 0b1100011#7 false (encodeData data).1 true (encodeData data).2 sPushA
  | .pushb e data => mkWord e 0b1100011#7 false (encodeData data).1 true (encodeData data).2 sPushB
  | .popa e wc wz d => mkWord e 0b1011000#7 wc wz true d sPopA
  | .popb e wc wz d => mkWord e 0b1011000#7 wc wz true d sPopB
  | .setq e arg => mkWord e 0b1101011#7 false false (encodeQArg arg).1 (encodeQArg arg).2 sSetq
  | .setq2 e arg => mkWord e 0b1101011#7 false false (encodeQArg arg).1 (encodeQArg arg).2 sSetq2

/-- The rows of R57, R58 and R62 (spec/opcode_table.json): mnemonic, mask, match. -/
def tableRows : List (String × Word × Word) :=
  [("RDBYTE", 0x0FE00000#32, 0x0AC00000#32),
   ("RDWORD", 0x0FE00000#32, 0x0AE00000#32),
   ("RDLONG", 0x0FE00000#32, 0x0B000000#32),
   ("WMLONG", 0x0FF80000#32, 0x0A780000#32),
   ("WRBYTE", 0x0FF00000#32, 0x0C400000#32),
   ("WRWORD", 0x0FF00000#32, 0x0C500000#32),
   ("WRLONG", 0x0FF00000#32, 0x0C600000#32),
   ("PUSHA", 0x0FF401FF#32, 0x0C640161#32),
   ("PUSHB", 0x0FF401FF#32, 0x0C6401E1#32),
   ("POPA", 0x0FE401FF#32, 0x0B04015F#32),
   ("POPB", 0x0FE401FF#32, 0x0B0401DF#32),
   ("SETQ", 0x0FF801FF#32, 0x0D600028#32),
   ("SETQ2", 0x0FF801FF#32, 0x0D600029#32)]

/-- The word matches a row. -/
def matchesRow (w : Word) (row : String × Word × Word) : Bool := w &&& row.2.1 == row.2.2

/-- The row of an instruction. -/
def rowName : Instr → String
  | .rdbyte .. => "RDBYTE"
  | .rdword .. => "RDWORD"
  | .rdlong .. => "RDLONG"
  | .wmlong .. => "WMLONG"
  | .wrbyte .. => "WRBYTE"
  | .wrword .. => "WRWORD"
  | .wrlong .. => "WRLONG"
  | .pusha .. => "PUSHA"
  | .pushb .. => "PUSHB"
  | .popa .. => "POPA"
  | .popb .. => "POPB"
  | .setq .. => "SETQ"
  | .setq2 .. => "SETQ2"

/-- What the decoder reads from the table's numbering of an instruction's bits. Every instruction is one 32-bit word
(R65), so bit 0 of the table is bit 0 of the word. -/
def decodeTableWord (nbits w : Nat) : Option Instr :=
  if nbits ≤ 32 ∧ w < 2 ^ 32 then (decode (BitVec.ofNat 32 w)).toOption else none

end Sys2Proof
end

