-- ==== Sys2Proof/Config.lean ====
section
/-! DEFINITION. The parameters of 00_scope.md R5, fixed for the machine, and the two values the spec leaves open:
constants without a body, so that no proof can see a value of them. -/

namespace Sys2Proof.Config

/-- `HUB_SIZE`: the populated bytes are $00000 to $7FFFF (R5, 20_memory.md R38, D2). -/
def hubSize : Nat := 0x80000

/-- `LUT_SIZE`: PRESUMED 512 (G7), an OPEN parameter of R5. Log 9, unsafe. -/
def lutSize : Nat := 512

/-- `REG_BLOCK_LIMIT`: the first register a block transfer must not reach. PRESUMED $1F0 (G8), an OPEN parameter
of R5. Log 10, safe. -/
def regBlockLimit : Nat := 0x1F0

/-- `BLOCK_MAX`: DESIGN CHOICE, the longs of the whole populated Hub RAM, an OPEN parameter of R5. Log 12, unsafe. -/
def blockMax : Nat := 0x20000

/-- `PTRA_ADDR`: PRESUMED $1F8 (G8), an OPEN parameter of R5. Log 11, safe: a register field that names it is refused. -/
def ptraAddr : RegAddr := 0x1F8#9

/-- `PTRB_ADDR`: PRESUMED $1F9 (G8), an OPEN parameter of R5. Log 11, safe. -/
def ptrbAddr : RegAddr := 0x1F9#9

/-- The parameter `CondHolds(EEEE, C, Z)` of 30_encoding.md R56, asked for every condition field but `1111`.
Open (D10): no body. Log 6. -/
opaque condHolds (e : Cond) (c z : Bool) : Bool

/-- The new value of PTRx after an update by `step` that leaves 0 to 2^20 - 1, or that starts from a value with bits
above 19 set: not settled by 40_pointer_expressions.md R82 (`PTR_BITS`, D8). Free: no body. Log 7. -/
opaque pointerBeyond (old : Word) (step : Int) : Word

end Sys2Proof.Config
end

