-- ==== Sys2Proof/Machine/State.lean ====
section
/-! DEFINITION. The state of the chip as 10_state.md gives it: one Hub RAM and, for each cog, registers, Lookup RAM,
PTRA, PTRB, C, Z, Q, QPFX, the program position and the instruction in progress. -/

namespace Sys2Proof.Machine

/-- Hub RAM as the list of the bytes that differ from what an unlisted address reads as, addresses rising
(`Memory.wf` in Ops.lean). -/
abbrev Memory := List Host.Cell

/-- QPFX (R16). -/
inductive Prefix where
  | none
  | setq
  | setq2
deriving DecidableEq, Repr

/-- The cog-side memory of a block transfer: registers under SETQ, Lookup RAM under SETQ2 (R110, R111). -/
inductive Side where
  | regs
  | lut
deriving DecidableEq, Repr

/-- Where a block write takes its longs from: a cog-side memory, or one value for a fill (R118 to R121). -/
inductive BlockSrc where
  | side (m : Side)
  | fill (v : Word)
deriving DecidableEq, Repr

/-- The Hub RAM work of one instruction that is still to be done. -/
inductive Transfer where
  /-- A single read at `a`: the bytes `todo` (as offsets from `a`) are still to be read, `got` holds the others. -/
  | load (w : Width) (a : HubAddr) (d : RegAddr) (wc wz : Bool) (todo : List Nat) (got : Word)
  /-- A single write of `v` at `a`: the bytes `todo` are still to be written; `masked` is WMLONG. -/
  | store (a : HubAddr) (v : Word) (masked : Bool) (todo : List Nat)
  /-- A block read: the next hub address, the next cog-side index, the count remaining (R19). -/
  | blockLoad (m : Side) (a : HubAddr) (k : RegAddr) (left : Nat) (wc wz : Bool)
  /-- A block write or fill: the next hub address, the next cog-side index, the count remaining (R19). -/
  | blockStore (src : BlockSrc) (a : HubAddr) (k : RegAddr) (left : Nat) (masked : Bool)
deriving DecidableEq, Repr

/-- The private state of one cog (R148). -/
structure Cog where
  /-- x[0] to x[511] (R12). -/
  regs : Vector Word 512
  /-- Lookup RAM (R13). -/
  lut : Vector Word 512
  /-- PTR[0] (R14). -/
  ptra : Word
  /-- PTR[1] (R14). -/
  ptrb : Word
  /-- The flag C (R15). -/
  c : Bool
  /-- The flag Z (R15). -/
  z : Bool
  /-- Q (R16). -/
  q : Word
  /-- QPFX (R16). -/
  qpfx : Prefix
  /-- The program position, an index into `prog` (R17). -/
  pc : Nat
  /-- The cog's list of instruction words: a parameter of the run, written by no instruction (R17, R20). Log 3. -/
  prog : List Word
  /-- What is left of an instruction that has performed some of its atomic events and not all (R19, R35). -/
  inFlight : Option Transfer
deriving DecidableEq, Repr

/-- One entry of the interleaving (R148): which cog acts next, and how far. -/
inductive Turn where
  /-- Cog `k` executes an instruction to its end (or ends the one it has begun) with no other cog's event between. -/
  | whole (k : Fin 8)
  /-- Cog `k` performs one atomic event. Of the two parts of a crossing access the low one comes first, or the high
  one if `hiFirst` (R35, D6). -/
  | event (k : Fin 8) (hiFirst : Bool)
deriving DecidableEq, Repr

/-- The chip. `cur` and `turns` are the model's own: the acting cog and the interleaving still to be followed (log 4);
with no turns left, `cur` executes whole instructions. -/
structure State where
  hub : Memory
  cogs : Vector Cog 8
  cur : Fin 8
  turns : List Turn
deriving DecidableEq, Repr

/-- A cog after reset: QPFX none, pc 0, nothing in progress (R22, D24, D12); every other value DESIGN CHOICE (log 1, 3). -/
def Cog.reset : Cog where
  regs := Vector.replicate 512 0
  lut := Vector.replicate 512 0
  ptra := 0
  ptrb := 0
  c := false
  z := false
  q := 0
  qpfx := .none
  pc := 0
  prog := []
  inFlight := none

/-- The machine after reset (R22, R160). -/
def State.reset : State where
  hub := []
  cogs := Vector.replicate 8 Cog.reset
  cur := 0
  turns := []

/-- No step faults: "No instruction of this spec raises a synchronous exception" (60_exceptions.md R140). Log 18. -/
inductive Fault where
deriving DecidableEq, Repr

/-- Where the spec says `refuse`: it gives the situation no meaning (R7, R140). All are safe: the chip goes on. -/
inductive Refusal where
  /-- An arm of exec without a meaning. No arm is one. Safe. -/
  | notModelled (mnemonic : String)
  /-- Raised by a step whose word matches no row of the table (R59, D31). Safe. -/
  | unknownWord
  /-- Raised by an updating pointer form with index field 00000 (R80, D9). Safe. -/
  | indexFieldZero
  /-- Raised by an access any byte of which lies in $80000 to $FFFFF (R38, D3, D4). Safe. -/
  | unpopulatedHub
  /-- Raised by an instruction whose D or S register field names PTRA's or PTRB's address (R14, R83, D28). Safe. -/
  | pointerRegister
  /-- Raised by an instruction other than RDLONG, WRLONG, WMLONG and their aliases after SETQ or SETQ2 (R112, D14). Safe. -/
  | prefixPending
  /-- Raised by a block transfer of more than BLOCK_MAX longs (R113). Safe. -/
  | blockCount
  /-- Raised by a block transfer that runs past REG_BLOCK_LIMIT or LUT_SIZE (R114, D15). Safe. -/
  | blockRange
  /-- Raised by a block transfer whose hub address is no multiple of 4 (R115, D17). Safe. -/
  | blockUnaligned
  /-- Raised by a block transfer with a pointer form marked "Not Valid" (R122, D18). Safe. -/
  | blockPointerForm
  /-- Raised by WRLONG with an immediate D after SETQ2 (R118, D19). Safe. -/
  | fillUnderSetq2
  /-- Raised by a step of a cog whose list of instructions has ended (R152, D25). Safe. -/
  | programEnded
deriving DecidableEq, Repr

end Sys2Proof.Machine
end

