-- ==== Sys2Proof/Machine/Ops.lean ====
section
/-! DEFINITION. The named operations over memory and registers: Hub RAM byte by byte (20_memory.md R31 to R35), the
acting cog and its registers, and the end of an instruction. The spec describes no exception (60_exceptions.md R140,
R141): there is none to take and none to return from. -/

namespace Sys2Proof

/-- The byte offsets of an access, lowest first: byte `i` of the value lies at address A + i (R31). -/
def Width.bytes : Width → List Nat
  | .byte => [0]
  | .word => [0, 1]
  | .long => [0, 1, 2, 3]

/-- `SCALE(op)`, the size of the access in bytes (40_pointer_expressions.md R81, D7). -/
def Width.scale : Width → Nat
  | .byte => 1
  | .word => 2
  | .long => 4

/-- Byte `i` of a long, `v[8i+7 : 8i]`. -/
def byteAt (v : Word) (i : Nat) : Byte := v.extractLsb' (8 * i) 8

/-- The address of byte `i` of an access at `a`: `(A + i) mod 2^20` (R31). -/
def byteAddr (a : HubAddr) (i : Nat) : Nat := (a + BitVec.ofNat 20 i).toNat

namespace Machine

/-! ### Hub RAM -/

/-- What an address that no instruction has written, and no premise has set, reads as: DESIGN CHOICE (log 2, unsafe). -/
def Memory.unwritten : Byte := 0

/-- `hub[a]` (R7). -/
def Memory.readByte : Memory → Nat → Byte
  | [], _ => Memory.unwritten
  | (b, v) :: m, a => if b = a then v else Memory.readByte m a

/-- Put a cell before the first one with a higher address. -/
def Memory.insertCell : Memory → Nat → Byte → Memory
  | [], a, v => [(a, v)]
  | (b, w) :: m, a, v => if a < b then (a, v) :: (b, w) :: m else (b, w) :: Memory.insertCell m a v

/-- Take out the cells of an address. -/
def Memory.eraseCell : Memory → Nat → Memory
  | [], _ => []
  | (b, w) :: m, a => if b = a then Memory.eraseCell m a else (b, w) :: Memory.eraseCell m a

/-- `hub[a] <- v` (R7); writing the value an unlisted address reads as removes the cell. -/
def Memory.writeByte (m : Memory) (a : Nat) (v : Byte) : Memory :=
  if v = Memory.unwritten then m.eraseCell a else (m.eraseCell a).insertCell a v

/-- The canonical form: addresses strictly rising, and no cell that says what an unlisted address says. -/
abbrev Memory.wf (m : Memory) : Prop :=
  m.Pairwise (fun x y => x.1 < y.1) ∧ ∀ x ∈ m, x.2 ≠ Memory.unwritten

/-- The bytes `offsets` of the access at `a`, each at its place in the value (R31); the places of other bytes are 0. -/
def Memory.gather (m : Memory) (a : HubAddr) : List Nat → Word
  | [] => 0
  | i :: is => ((m.readByte (byteAddr a i)).setWidth 32 <<< (8 * i)) ||| m.gather a is

/-- Write the bytes `offsets` of `v` to the access at `a` (R32); a masked write leaves out the zero bytes of `v` (R33). -/
def Memory.scatter (m : Memory) (masked : Bool) (v : Word) (a : HubAddr) : List Nat → Memory
  | [] => m
  | i :: is =>
    if masked && byteAt v i == 0 then m.scatter masked v a is
    else (m.writeByte (byteAddr a i) (byteAt v i)).scatter masked v a is

/-- `MemRead(A, n)`: little-endian, zero-extended to a long (R31). -/
def Memory.read (m : Memory) (a : HubAddr) (w : Width) : Word := m.gather a w.bytes

/-- `MemWrite(A, n, v)` (R32). -/
def Memory.write (m : Memory) (a : HubAddr) (w : Width) (v : Word) : Memory := m.scatter false v a w.bytes

/-- `MemWriteMasked(A, v)` (R33). -/
def Memory.writeMasked (m : Memory) (a : HubAddr) (v : Word) : Memory := m.scatter true v a Width.long.bytes

/-- Every byte of the access lies in $00000 to $7FFFF (R38, R31). -/
def populated (a : HubAddr) (w : Width) : Bool := w.bytes.all fun i => byteAddr a i < Config.hubSize

/-- Every long of a block of `n` at `a` lies in $00000 to $7FFFF (R115, R38). -/
def blockPopulated (a : HubAddr) (n : Nat) : Bool := a.toNat + 4 * n ≤ Config.hubSize

/-- Byte `i` of an access at `a` lies in the aligned long that holds `a` (R35). -/
def inFirstLong (a : HubAddr) (i : Nat) : Bool := a.toNat % 4 + i < 4

/-- An access crosses a long boundary when `A[1:0] + n > 4` (R34). -/
def crosses (a : HubAddr) (w : Width) : Bool := a.toNat % 4 + w.scale > 4

/-- The bytes of the next atomic event of an access, and those of the one after it: all and none when they lie in one
aligned long; else the two parts of R35, the low part first unless `hiFirst` (D6). -/
def splitPart (hiFirst : Bool) (a : HubAddr) (todo : List Nat) : List Nat × List Nat :=
  let low := todo.filter (fun i => inFirstLong a i)
  let high := todo.filter (fun i => !inFirstLong a i)
  if low.isEmpty || high.isEmpty then (todo, [])
  else if hiFirst then (high, low) else (low, high)

/-! ### The acting cog -/

/-- The cog that acts. -/
def State.cog (s : State) : Cog := s.cogs.get s.cur

/-- The state with the acting cog replaced. -/
def State.setCog (s : State) (c : Cog) : State := { s with cogs := s.cogs.set s.cur.val c s.cur.isLt }

/-- The state with Hub RAM replaced. -/
def State.setHub (s : State) (m : Memory) : State := { s with hub := m }

/-- `x[r]` (R7, R12). -/
def Cog.reg (c : Cog) (r : RegAddr) : Word := c.regs.get ⟨r.toNat, r.isLt⟩

/-- `x[r] <- v`. -/
def Cog.setReg (c : Cog) (r : RegAddr) (v : Word) : Cog := { c with regs := c.regs.set r.toNat v r.isLt }

/-- `lut[r]` (R7, R13). -/
def Cog.lutAt (c : Cog) (r : RegAddr) : Word := c.lut.get ⟨r.toNat, r.isLt⟩

/-- `lut[r] <- v`. -/
def Cog.setLut (c : Cog) (r : RegAddr) (v : Word) : Cog := { c with lut := c.lut.set r.toNat v r.isLt }

/-- `PTR[p]` (R14). -/
def Cog.ptr (c : Cog) : Ptr → Word
  | .a => c.ptra
  | .b => c.ptrb

/-- `PTR[p] <- v`. -/
def Cog.setPtr (c : Cog) (p : Ptr) (v : Word) : Cog :=
  match p with
  | .a => { c with ptra := v }
  | .b => { c with ptrb := v }

/-- A long of the cog-side memory of a block transfer (R114). -/
def Cog.side (c : Cog) (m : Side) (k : RegAddr) : Word :=
  match m with
  | .regs => c.reg k
  | .lut => c.lutAt k

/-- Write a long of the cog-side memory of a block transfer. -/
def Cog.setSide (c : Cog) (m : Side) (k : RegAddr) (v : Word) : Cog :=
  match m with
  | .regs => c.setReg k v
  | .lut => c.setLut k v

/-- The end of every instruction but SETQ and SETQ2: `QPFX <- none; pc <- pc + 1` (R90, R100, R112, R17). -/
def Cog.retire (c : Cog) : Cog := { c with qpfx := .none, pc := c.pc + 1 }

/-- See `Cog.retire`. -/
def State.retire (s : State) : State := s.setCog s.cog.retire

/-- The word at the acting cog's program position, if its list has one there (R17, R152). -/
def fetch (s : State) : Option Word := s.cog.prog[s.cog.pc]?

/-- The acting cog's list with `w` at its program position; positions before it that the list does not have are
filled with zero words. -/
def placeWord (prog : List Word) (pc : Nat) (w : Word) : List Word :=
  prog.take pc ++ List.replicate (pc - prog.length) 0 ++ w :: prog.drop (pc + 1)

/-- Stop with a refusal unless `b` holds. -/
def require (b : Bool) (r : Refusal) : Except Refusal Unit := if b then .ok () else .error r

end Machine

end Sys2Proof
end

