-- ==== Sys2Proof/Machine/Flags.lean ====
section
/-! DEFINITION. The flags C and Z (10_state.md R15), who writes them (the reads, R91 to R93, R123) and who may read
them (the condition field, 30_encoding.md R56). -/

namespace Sys2Proof.Machine

/-- C receives the most significant bit of the value read: bit 31, 15 or 7 (R15). -/
def topBit : Width → Word → Bool
  | .byte, v => v.getLsbD 7
  | .word, v => v.getLsbD 15
  | .long, v => v.getLsbD 31

/-- Write C if `wc` and Z if `wz` for the value `v` read (R15, R91 to R93). -/
def Cog.setFlags (c : Cog) (w : Width) (wc wz : Bool) (v : Word) : Cog :=
  { c with c := if wc then topBit w v else c.c, z := if wz then v == 0 else c.z }

/-- Whether the instruction is executed: always for `1111`; for another condition field the spec's parameter
`CondHolds` decides (R56, D10). Log 6. -/
def condHolds (e : Cond) (c z : Bool) : Bool := if e = 0b1111#4 then true else Config.condHolds e c z

/-- Execute the word, whose own outcome is `ran`, under its condition field; when the condition does not hold the word
is "a no-operation that only advances pc and clears QPFX" (R56). The condition is asked after `ran` so that Lean can see
whether a step answers a state without knowing the open parameter. -/
def runIf (e : Cond) (s : State) (ran : Host.Outcome State Fault Refusal) : Host.Outcome State Fault Refusal :=
  match ran with
  | .next t => .next (if condHolds e s.cog.c s.cog.z then t else s.retire)
  | .fault f => if condHolds e s.cog.c s.cog.z then .fault f else .next s.retire
  | .refused r => if condHolds e s.cog.c s.cog.z then .refused r else .next s.retire

end Sys2Proof.Machine
end

