-- ==== Sys2Proof/Machine/Operands.lean ====
section
/-! DEFINITION. The operands: register fields, data operands, and the address operand `EA` of a single access and
`EA_block` of a block transfer (40_pointer_expressions.md R70 to R83, 43_block_transfers.md R113 to R115, R122). -/

namespace Sys2Proof.Machine

/-- A register field that names PTRA's or PTRB's address (R14, D28). -/
def namesPointer (r : RegAddr) : Bool := r == Config.ptraAddr || r == Config.ptrbAddr

/-- The content of the register a D or S field names (R12), refused if the field names a pointer register (R14). -/
def readReg (r : RegAddr) (s : State) : Except Refusal Word := do
  require (!namesPointer r) .pointerRegister
  return s.cog.reg r

/-- The data operand of a write (R54, R105): a register, a zero-extended 9-bit immediate (D11), or the `##` value. -/
def readData : Data → State → Except Refusal Word
  | .reg r, s => readReg r s
  | .imm v, _ => .ok (v.setWidth 32)
  | .aug v, _ => .ok v

/-- The operand of SETQ and SETQ2 (R110). -/
def readQArg : QArg → State → Except Refusal Word
  | .reg r, s => readReg r s
  | .imm v, _ => .ok (v.setWidth 32)

/-- The new value of PTRx after `PTRx += step` (R82): the exact sum where the old value and the sum both lie in
0 to 2^20 - 1, and the open value beyond that (D8, log 7). -/
def stepPointer (old : Word) (step : Int) : Word :=
  if old.toNat < 2 ^ 20 ∧ 0 ≤ (old.toNat : Int) + step ∧ (old.toNat : Int) + step < 2 ^ 20 then
    BitVec.ofInt 32 ((old.toNat : Int) + step)
  else Config.pointerBeyond old step

/-- The hub address PTRx + step: "the same for every width of 20 bits or more" (R82). -/
def pointerPlus (old : Word) (step : Int) : HubAddr := old.setWidth 20 + BitVec.ofInt 20 step

/-- An updating pointer form: the access is at the old pointer (`post`) or the new one, and PTRx moves by `step`
(R78, R79). -/
def updatePointer (p : Ptr) (post : Bool) (step : Int) (s : State) : HubAddr × State :=
  (pointerPlus (s.cog.ptr p) (if post then 0 else step),
   s.setCog (s.cog.setPtr p (stepPointer (s.cog.ptr p) step)))

/-- `EA(I, S, scale)` cut to the hub address (R70, R30), with the state after the pointer update. -/
def effAddr (src : Src) (scale : Nat) (s : State) : Except Refusal (HubAddr × State) :=
  match src with
  | .reg r => do
    let v ← readReg r s
    return (v.setWidth 20, s)
  | .imm v => .ok (v.setWidth 20, s)
  | .ptr p (.index i) => .ok (pointerPlus (s.cog.ptr p) (i.toInt * scale), s)
  | .ptr p (.post i) =>
    if i = 0 then .error .indexFieldZero else .ok (updatePointer p true (i.toInt * scale) s)
  | .ptr p (.pre i) =>
    if i = 0 then .error .indexFieldZero else .ok (updatePointer p false (i.toInt * scale) s)

/-- `EA_block(I, S, N)` (R122): the unindexed pointer forms step by `4*N`; every other pointer form is "Not Valid". -/
def effAddrBlock (src : Src) (n : Nat) (s : State) : Except Refusal (HubAddr × State) :=
  match src with
  | .reg r => do
    let v ← readReg r s
    return (v.setWidth 20, s)
  | .imm v => .ok (v.setWidth 20, s)
  | .ptr p (.index i) =>
    if i = 0 then .ok (pointerPlus (s.cog.ptr p) 0, s) else .error .blockPointerForm
  | .ptr p (.post i) =>
    if i = 1 then .ok (updatePointer p true (4 * n) s)
    else if i = -1 then .ok (updatePointer p true (-(4 * n)) s)
    else .error .blockPointerForm
  | .ptr p (.pre i) =>
    if i = 1 then .ok (updatePointer p false (4 * n) s)
    else if i = -1 then .ok (updatePointer p false (-(4 * n)) s)
    else .error .blockPointerForm

/-- The number of longs of a block transfer, `N = Q + 1` as an unbounded number (R113, R137). -/
def blockLongs (s : State) : Nat := s.cog.q.toNat + 1

/-- The cog-side range of `n` longs at `d` stays below its limit (R114, D15). -/
def blockFits : Side → RegAddr → Nat → Bool
  | .regs, d, n => d.toNat + n ≤ Config.regBlockLimit
  | .lut, d, n => d.toNat + n ≤ Config.lutSize

/-- The hub address of a block transfer of `n` longs, checked to be long-aligned and populated (R115, D17). -/
def blockAddr (src : Src) (n : Nat) (s : State) : Except Refusal (HubAddr × State) := do
  let (a, s1) ← effAddrBlock src n s
  require (a.toNat % 4 == 0) .blockUnaligned
  require (blockPopulated a n) .unpopulatedHub
  return (a, s1)

end Sys2Proof.Machine
end

