-- ==== Sys2Proof/Machine/Transfers.lean ====
section
/-! DEFINITION. The Hub RAM work of an instruction: setting it up (`issue…`), doing all of it at once (`finish`), and
doing one atomic event of it (`event`) (20_memory.md R35, R40; 43_block_transfers.md R115 to R123). -/

namespace Sys2Proof.Machine

/-! ### Setting up -/

/-- A single read (R90): address and pointer update, destination, range. -/
def issueRead (w : Width) (wc wz : Bool) (d : RegAddr) (src : Src) (s : State) : Except Refusal (State × Transfer) := do
  let (a, s1) ← effAddr src w.scale s
  require (!namesPointer d) .pointerRegister
  require (populated a w) .unpopulatedHub
  return (s1, .load w a d wc wz w.bytes 0)

/-- A single write (R100): data and address from the state before the instruction, pointer update, range. -/
def issueWrite (w : Width) (masked : Bool) (data : Data) (src : Src) (s : State) :
    Except Refusal (State × Transfer) := do
  let v ← readData data s
  let (a, s1) ← effAddr src w.scale s
  require (populated a w) .unpopulatedHub
  return (s1, .store a v masked w.bytes)

/-- A block read into `m` (R116, R117). -/
def issueBlockRead (m : Side) (wc wz : Bool) (d : RegAddr) (src : Src) (s : State) :
    Except Refusal (State × Transfer) := do
  require (blockLongs s ≤ Config.blockMax) .blockCount
  require (blockFits m d (blockLongs s)) .blockRange
  let (a, s1) ← blockAddr src (blockLongs s) s
  return (s1, .blockLoad m a d (blockLongs s) wc wz)

/-- A block write from `m` (R118 to R120). -/
def issueBlockWrite (m : Side) (masked : Bool) (d : RegAddr) (src : Src) (s : State) :
    Except Refusal (State × Transfer) := do
  require (blockLongs s ≤ Config.blockMax) .blockCount
  require (blockFits m d (blockLongs s)) .blockRange
  let (a, s1) ← blockAddr src (blockLongs s) s
  return (s1, .blockStore (.side m) a d (blockLongs s) masked)

/-- A fill with `v` (R121): under SETQ only (R118). -/
def issueFill (m : Side) (v : Word) (src : Src) (s : State) : Except Refusal (State × Transfer) := do
  require (blockLongs s ≤ Config.blockMax) .blockCount
  require (m == .regs) .fillUnderSetq2
  let (a, s1) ← blockAddr src (blockLongs s) s
  return (s1, .blockStore (.fill v) a 0 (blockLongs s) false)

/-- A block WRLONG: a register field is the first cog-side index, an immediate is a fill value (R118, R119, R121). -/
def issueBlockWrlong (m : Side) (data : Data) (src : Src) (s : State) : Except Refusal (State × Transfer) :=
  match data with
  | .reg d => issueBlockWrite m false d src s
  | .imm v => issueFill m (v.setWidth 32) src s
  | .aug v => issueFill m v src s

/-- RDLONG by its prefix: single, to registers, to Lookup RAM (R91, R116, R117). -/
def issueRdlong (wc wz : Bool) (d : RegAddr) (src : Src) (s : State) : Except Refusal (State × Transfer) :=
  match s.cog.qpfx with
  | .none => issueRead .long wc wz d src s
  | .setq => issueBlockRead .regs wc wz d src s
  | .setq2 => issueBlockRead .lut wc wz d src s

/-- WRLONG by its prefix (R101, R118, R119, R121). -/
def issueWrlong (data : Data) (src : Src) (s : State) : Except Refusal (State × Transfer) :=
  match s.cog.qpfx with
  | .none => issueWrite .long false data src s
  | .setq => issueBlockWrlong .regs data src s
  | .setq2 => issueBlockWrlong .lut data src s

/-- WMLONG by its prefix (R104, R118, R120). -/
def issueWmlong (d : RegAddr) (src : Src) (s : State) : Except Refusal (State × Transfer) :=
  match s.cog.qpfx with
  | .none => issueWrite .long true (.reg d) src s
  | .setq => issueBlockWrite .regs true d src s
  | .setq2 => issueBlockWrite .lut true d src s

/-- RDWORD and RDBYTE: refused with a prefix pending (R112, D14). -/
def issueNarrowRead (w : Width) (wc wz : Bool) (d : RegAddr) (src : Src) (s : State) :
    Except Refusal (State × Transfer) := do
  require (s.cog.qpfx == .none) .prefixPending
  issueRead w wc wz d src s

/-- WRWORD and WRBYTE: refused with a prefix pending (R112, D14). -/
def issueNarrowWrite (w : Width) (data : Data) (src : Src) (s : State) : Except Refusal (State × Transfer) := do
  require (s.cog.qpfx == .none) .prefixPending
  issueWrite w false data src s

/-! ### Doing all of it -/

/-- The end of a single read: `x[D] <- v`, the flags, and the end of the instruction (R91 to R93). -/
def completeLoad (w : Width) (d : RegAddr) (wc wz : Bool) (v : Word) (s : State) : State :=
  s.setCog ((s.cog.setReg d v).setFlags w wc wz v).retire

/-- One long of a block read: `x[k]` or `lut[k] <- MemRead(a, 4)` (R116, R117). -/
def loadLong (m : Side) (a : HubAddr) (k : RegAddr) (s : State) : State :=
  s.setCog (s.cog.setSide m k (s.hub.read a .long))

/-- The value a block write takes for its long at index `k`: the cog-side memory's, or the fill value (R118 to R121). -/
def BlockSrc.value (src : BlockSrc) (c : Cog) (k : RegAddr) : Word :=
  match src with
  | .side m => c.side m k
  | .fill v => v

/-- One long of a block write or fill (R118 to R121). -/
def storeLong (src : BlockSrc) (a : HubAddr) (k : RegAddr) (masked : Bool) (s : State) : State :=
  s.setHub (s.hub.scatter masked (src.value s.cog k) a Width.long.bytes)

/-- The end of a block read: the flags of its last long `v` (R123) and the end of the instruction. -/
def completeBlockLoad (wc wz : Bool) (v : Word) (s : State) : State :=
  s.setCog (s.cog.setFlags .long wc wz v).retire

/-- A block read of `left` longs from hub address `a` to index `k` on, in ascending order (R115 to R117, R123). -/
def loadBlock (m : Side) (wc wz : Bool) : Nat → HubAddr → RegAddr → State → State
  | 0, _, _, s => s
  | 1, a, k, s => completeBlockLoad wc wz (s.hub.read a .long) (loadLong m a k s)
  | n + 2, a, k, s => loadBlock m wc wz (n + 1) (a + 4) (k + 1) (loadLong m a k s)

/-- The longs of a block write or fill, in ascending order (R115, R118 to R121). -/
def storeBlock (src : BlockSrc) (masked : Bool) : Nat → HubAddr → RegAddr → State → State
  | 0, _, _, s => s
  | n + 1, a, k, s => storeBlock src masked n (a + 4) (k + 1) (storeLong src a k masked s)

/-- All the work that is left, with no other agent's event between. -/
def Transfer.finish (t : Transfer) (s : State) : State :=
  match t with
  | .load w a d wc wz todo got => completeLoad w d wc wz (got ||| s.hub.gather a todo) s
  | .store a v masked todo => (s.setHub (s.hub.scatter masked v a todo)).retire
  | .blockLoad m a k left wc wz => loadBlock m wc wz left a k s
  | .blockStore src a k left masked => (storeBlock src masked left a k s).retire

/-- Set up, then do all the work: the outcome of an instruction that accesses Hub RAM. -/
def perform (issued : Except Refusal (State × Transfer)) : Host.Outcome State Fault Refusal :=
  match issued with
  | .ok (s, t) => .next (t.finish s)
  | .error r => .refused r

/-! ### Doing one atomic event -/

/-- Keep the rest of an instruction for a later turn (R19). -/
def State.park (s : State) (t : Option Transfer) : State := s.setCog { s.cog with inFlight := t }

/-- One atomic event (R35, R40): one part of a single access, or one long of a block transfer. The rest is kept; after
the last event the instruction ends. -/
def Transfer.event (hiFirst : Bool) (t : Transfer) (s : State) : State :=
  match t with
  | .load w a d wc wz todo got =>
    let (now, later) := splitPart hiFirst a todo
    let got' := got ||| s.hub.gather a now
    if later.isEmpty then completeLoad w d wc wz got' (s.park none)
    else s.park (some (.load w a d wc wz later got'))
  | .store a v masked todo =>
    let (now, later) := splitPart hiFirst a todo
    let s1 := s.setHub (s.hub.scatter masked v a now)
    if later.isEmpty then (s1.park none).retire
    else s1.park (some (.store a v masked later))
  | .blockLoad m a k left wc wz =>
    if left ≤ 1 then completeBlockLoad wc wz (s.hub.read a .long) ((loadLong m a k s).park none)
    else (loadLong m a k s).park (some (.blockLoad m (a + 4) (k + 1) (left - 1) wc wz))
  | .blockStore src a k left masked =>
    if left ≤ 1 then ((storeLong src a k masked s).park none).retire
    else (storeLong src a k masked s).park (some (.blockStore src (a + 4) (k + 1) (left - 1) masked))

/-- Set up, then do the first event only. -/
def performEvent (hiFirst : Bool) (issued : Except Refusal (State × Transfer)) : Host.Outcome State Fault Refusal :=
  match issued with
  | .ok (s, t) => .next (t.event hiFirst s)
  | .error r => .refused r

end Sys2Proof.Machine
end

