-- ==== Sys2Proof/Machine/HubReads.lean ====
section
/-! DEFINITION. RDBYTE, RDWORD and RDLONG (41_hub_reads.md; block forms 43_block_transfers.md R116, R117). -/

namespace Sys2Proof.Machine

/-- RDBYTE (R93). -/
def execRdbyte (e : Cond) (wc wz : Bool) (d : RegAddr) (src : Src) (s : State) : Host.Outcome State Fault Refusal :=
  runIf e s (perform (issueNarrowRead .byte wc wz d src s))

/-- RDWORD (R92). -/
def execRdword (e : Cond) (wc wz : Bool) (d : RegAddr) (src : Src) (s : State) : Host.Outcome State Fault Refusal :=
  runIf e s (perform (issueNarrowRead .word wc wz d src s))

/-- RDLONG (R91), and the block reads it starts after SETQ and SETQ2 (R116, R117). -/
def execRdlong (e : Cond) (wc wz : Bool) (d : RegAddr) (src : Src) (s : State) : Host.Outcome State Fault Refusal :=
  runIf e s (perform (issueRdlong wc wz d src s))

end Sys2Proof.Machine
end

