-- ==== Sys2Proof/Machine/HubWrites.lean ====
section
/-! DEFINITION. WMLONG, WRBYTE, WRWORD and WRLONG (42_hub_writes.md; block forms 43_block_transfers.md R118 to R121). -/

namespace Sys2Proof.Machine

/-- WMLONG (R104), and the masked block writes it starts after SETQ and SETQ2 (R118, R120). -/
def execWmlong (e : Cond) (d : RegAddr) (src : Src) (s : State) : Host.Outcome State Fault Refusal :=
  runIf e s (perform (issueWmlong d src s))

/-- WRBYTE (R103). -/
def execWrbyte (e : Cond) (data : Data) (src : Src) (s : State) : Host.Outcome State Fault Refusal :=
  runIf e s (perform (issueNarrowWrite .byte data src s))

/-- WRWORD (R102). -/
def execWrword (e : Cond) (data : Data) (src : Src) (s : State) : Host.Outcome State Fault Refusal :=
  runIf e s (perform (issueNarrowWrite .word data src s))

/-- WRLONG (R101, R105), and the block writes and fills it starts after SETQ and SETQ2 (R118, R119, R121). -/
def execWrlong (e : Cond) (data : Data) (src : Src) (s : State) : Host.Outcome State Fault Refusal :=
  runIf e s (perform (issueWrlong data src s))

end Sys2Proof.Machine
end

