-- ==== Sys2Proof/Machine/Prefixes.lean ====
section
/-! DEFINITION. SETQ and SETQ2 (43_block_transfers.md R110 to R112). -/

namespace Sys2Proof.Machine

/-- `Q <- operand; QPFX <- p; pc <- pc + 1` (R110, R111); refused with a prefix pending (R112, D14). -/
def setPrefix (p : Prefix) (arg : QArg) (s : State) : Host.Outcome State Fault Refusal :=
  if s.cog.qpfx = .none then
    match readQArg arg s with
    | .ok v => .next (s.setCog { s.cog with q := v, qpfx := p, pc := s.cog.pc + 1 })
    | .error r => .refused r
  else .refused .prefixPending

/-- SETQ (R110). -/
def execSetq (e : Cond) (arg : QArg) (s : State) : Host.Outcome State Fault Refusal :=
  runIf e s (setPrefix .setq arg s)

/-- SETQ2 (R111). -/
def execSetq2 (e : Cond) (arg : QArg) (s : State) : Host.Outcome State Fault Refusal :=
  runIf e s (setPrefix .setq2 arg s)

end Sys2Proof.Machine
end

