-- ==== Sys2Proof/Machine/Stack.lean ====
section
/-! DEFINITION. PUSHA, PUSHB, POPA and POPB: WRLONG through `PTRx++` and RDLONG through `--PTRx` (44_aliases.md). -/

namespace Sys2Proof.Machine

/-- PUSHA (R131): `WRLONG {#}D,PTRA++`. -/
def execPusha (e : Cond) (data : Data) (s : State) : Host.Outcome State Fault Refusal :=
  runIf e s (perform (issueWrlong data (.ptr .a (.post 1)) s))

/-- PUSHB (R132): `WRLONG {#}D,PTRB++`. -/
def execPushb (e : Cond) (data : Data) (s : State) : Host.Outcome State Fault Refusal :=
  runIf e s (perform (issueWrlong data (.ptr .b (.post 1)) s))

/-- POPA (R133): `RDLONG D,--PTRA`. -/
def execPopa (e : Cond) (wc wz : Bool) (d : RegAddr) (s : State) : Host.Outcome State Fault Refusal :=
  runIf e s (perform (issueRdlong wc wz d (.ptr .a (.pre (-1))) s))

/-- POPB (R134): `RDLONG D,--PTRB`. -/
def execPopb (e : Cond) (wc wz : Bool) (d : RegAddr) (s : State) : Host.Outcome State Fault Refusal :=
  runIf e s (perform (issueRdlong wc wz d (.ptr .b (.pre (-1))) s))

end Sys2Proof.Machine
end

