-- ==== Sys2Proof/Machine/Dispatch.lean ====
section
/-! DEFINITION. One arm for each instruction. -/

namespace Sys2Proof.Machine

def exec (i : Instr) (s : State) : Host.Outcome State Fault Refusal :=
  match i with
  | .rdbyte e wc wz d src => Sys2Proof.Machine.execRdbyte e wc wz d src s
  | .rdword e wc wz d src => Sys2Proof.Machine.execRdword e wc wz d src s
  | .rdlong e wc wz d src => Sys2Proof.Machine.execRdlong e wc wz d src s
  | .wmlong e d src => Sys2Proof.Machine.execWmlong e d src s
  | .wrbyte e data src => Sys2Proof.Machine.execWrbyte e data src s
  | .wrword e data src => Sys2Proof.Machine.execWrword e data src s
  | .wrlong e data src => Sys2Proof.Machine.execWrlong e data src s
  | .pusha e data => Sys2Proof.Machine.execPusha e data s
  | .pushb e data => Sys2Proof.Machine.execPushb e data s
  | .popa e wc wz d => Sys2Proof.Machine.execPopa e wc wz d s
  | .popb e wc wz d => Sys2Proof.Machine.execPopb e wc wz d s
  | .setq e arg => Sys2Proof.Machine.execSetq e arg s
  | .setq2 e arg => Sys2Proof.Machine.execSetq2 e arg s

end Sys2Proof.Machine
end

