-- ==== Sys2Proof/Machine/Events.lean ====
section
/-! DEFINITION. A turn of the acting cog: a whole instruction, or one atomic event of it (20_memory.md R35, R40;
60_exceptions.md R148). -/

namespace Sys2Proof.Machine

/-- The Hub RAM work an instruction sets up; none for SETQ and SETQ2, which touch no Hub RAM (R110, R111). -/
def issue (i : Instr) (s : State) : Option (Except Refusal (State × Transfer)) :=
  match i with
  | .rdbyte _ wc wz d src => some (issueNarrowRead .byte wc wz d src s)
  | .rdword _ wc wz d src => some (issueNarrowRead .word wc wz d src s)
  | .rdlong _ wc wz d src => some (issueRdlong wc wz d src s)
  | .wmlong _ d src => some (issueWmlong d src s)
  | .wrbyte _ data src => some (issueNarrowWrite .byte data src s)
  | .wrword _ data src => some (issueNarrowWrite .word data src s)
  | .wrlong _ data src => some (issueWrlong data src s)
  | .pusha _ data => some (issueWrlong data (.ptr .a (.post 1)) s)
  | .pushb _ data => some (issueWrlong data (.ptr .b (.post 1)) s)
  | .popa _ wc wz d => some (issueRdlong wc wz d (.ptr .a (.pre (-1))) s)
  | .popb _ wc wz d => some (issueRdlong wc wz d (.ptr .b (.pre (-1))) s)
  | .setq _ _ => none
  | .setq2 _ _ => none

/-- The first atomic event of an instruction. -/
def begin_ (hiFirst : Bool) (i : Instr) (s : State) : Host.Outcome State Fault Refusal :=
  match issue i s with
  | some r => runIf i.cond s (performEvent hiFirst r)
  | none => exec i s

/-- Fetch and decode, then `go` with the instruction (R17, R59); a cog whose list has ended has finished (R152). DESIGN
CHOICE: a word with a zero index field in an updating form is refused (R80) before its condition is asked, so also where
R56 could make it a no-operation (log 15, safe). -/
def withInstr (s : State) (go : Instr → Host.Outcome State Fault Refusal) : Host.Outcome State Fault Refusal :=
  match fetch s with
  | none => .refused .programEnded
  | some w =>
    match decode w with
    | .ok i => go i
    | .error .unknownWord => .refused .unknownWord
    | .error .indexFieldZero => .refused .indexFieldZero

/-- The acting cog ends the instruction it has begun, or else executes its next one whole. -/
def runWhole (s : State) : Host.Outcome State Fault Refusal :=
  match s.cog.inFlight with
  | some t => .next (t.finish (s.park none))
  | none => withInstr s (fun i => exec i s)

/-- The acting cog performs one atomic event: of the instruction it has begun, or the first of its next one (R19: it
executes nothing else until the one it has begun is done). -/
def runEvent (hiFirst : Bool) (s : State) : Host.Outcome State Fault Refusal :=
  match s.cog.inFlight with
  | some t => .next (t.event hiFirst s)
  | none => withInstr s (fun i => begin_ hiFirst i s)

/-- The next turn of the interleaving; with none left the acting cog goes on by whole instructions (R148, D26). -/
def takeTurn (s : State) : Host.Outcome State Fault Refusal :=
  match s.turns with
  | [] => runWhole s
  | .whole k :: ts => runWhole { s with cur := k, turns := ts }
  | .event k hiFirst :: ts => runEvent hiFirst { s with cur := k, turns := ts }

/-- The acting cog's list with a word placed at its program position, nothing in progress and no turn ahead, so that
the next step runs that word whole. -/
def loadWord (s : State) (w : Word) : State :=
  { s.setCog { s.cog with prog := placeWord s.cog.prog s.cog.pc w, inFlight := none } with turns := [] }

end Sys2Proof.Machine
end

