-- ==== Sys2Proof/Machine/Step.lean ====
section
/-! DEFINITION. One step of the chip, and the placing of an instruction where the next step fetches. -/

namespace Sys2Proof.Machine

/-- One step: the next turn of the interleaving. -/
def step (s : State) : Host.Outcome State Fault Refusal := takeTurn s

/-- `s` with an instruction's word where the next step fetches. Every instruction is one 32-bit word, numbered as the
table numbers it (R50, R65); a program is loaded from outside the machine (R152, log 3). -/
def State.withFetchWord (s : State) (nbits w : Nat) : State := loadWord s (BitVec.ofNat 32 (w % 2 ^ nbits))

end Sys2Proof.Machine
end

