-- ==== Sys2Proof/Machine/Timing.lean ====
section
/-! DEFINITION. The timing figures of 70_reset_and_hazards.md R170 and R171 and the slices of 20_memory.md R36. No step
depends on them (R172): time is not part of the state. -/

namespace Sys2Proof.Machine

/-- The slice of an address, `(A>>2)&7` (R36). -/
def sliceOf (a : HubAddr) : BitVec 3 := a.extractLsb' 2 3

/-- The slice a cog may access after `t` cycles, one further each cycle (R36, R11). -/
def sliceAfter (now : BitVec 3) (t : Nat) : BitVec 3 := now + BitVec.ofNat 3 t

/-- The cycles until the cog's window is on the slice of `a`, 0 to 7 (R36, R171). -/
def waitCycles (now : BitVec 3) (a : HubAddr) : Nat := (sliceOf a - now).toNat

/-- The least cycles of a hub access: 9 for a read, 3 for a write (R170, R171); none given for SETQ and SETQ2. -/
def baseCycles : Instr → Option Nat
  | .rdbyte .. | .rdword .. | .rdlong .. | .popa .. | .popb .. => some 9
  | .wmlong .. | .wrbyte .. | .wrword .. | .wrlong .. | .pusha .. | .pushb .. => some 3
  | .setq .. | .setq2 .. => none

/-- The size of the access of an instruction without a prefix (R37). -/
def accessWidth : Instr → Option Width
  | .rdbyte .. | .wrbyte .. => some .byte
  | .rdword .. | .wrword .. => some .word
  | .rdlong .. | .wmlong .. | .wrlong .. | .pusha .. | .pushb .. | .popa .. | .popb .. => some .long
  | .setq .. | .setq2 .. => none

/-- The cycles (cogexec) of a single access at `a` by a cog whose window is on slice `now`: base + wait + cross (R171). -/
def cogexecCycles (i : Instr) (now : BitVec 3) (a : HubAddr) : Option Nat :=
  match baseCycles i, accessWidth i with
  | some base, some w => some (base + waitCycles now a + if crosses a w then 1 else 0)
  | _, _ => none

/-- The column "Cycles (cogexec)" of R170. -/
def cogexecRange : Instr → Option (Nat × Nat)
  | .rdlong .. | .popa .. | .popb .. | .rdword .. => some (9, 17)
  | .rdbyte .. => some (9, 16)
  | .wrlong .. | .pusha .. | .pushb .. | .wrword .. | .wmlong .. => some (3, 11)
  | .wrbyte .. => some (3, 10)
  | .setq .. | .setq2 .. => none

/-- The column "Cycles (hubexec)" of R170; the source does not say why its maxima are 10 higher (R171). -/
def hubexecRange : Instr → Option (Nat × Nat)
  | .rdlong .. | .popa .. | .popb .. | .rdword .. => some (9, 27)
  | .rdbyte .. => some (9, 26)
  | .wrlong .. | .pusha .. | .pushb .. | .wrword .. | .wmlong .. => some (3, 21)
  | .wrbyte .. => some (3, 20)
  | .setq .. | .setq2 .. => none

end Sys2Proof.Machine
end

