-- ==== Sys2Proof/Safety.lean ====
section
/-! DEFINITION. What the statements call a sound state, a finished run, and a condition field that always executes. -/

namespace Sys2Proof.Machine

/-- The condition field `1111`, for which every instruction rule is written (30_encoding.md R56). -/
def always : Cond := 0b1111#4

/-- The work a cog keeps between two events lies in populated Hub RAM and inside the cog-side memory, and is not
empty. -/
def Transfer.sound : Transfer → Prop
  | .load _ a _ _ _ todo _ => todo ≠ [] ∧ ∀ i ∈ todo, i < 4 ∧ byteAddr a i < Config.hubSize
  | .store a _ _ todo => todo ≠ [] ∧ ∀ i ∈ todo, i < 4 ∧ byteAddr a i < Config.hubSize
  | .blockLoad m a k left _ _ =>
    0 < left ∧ a.toNat % 4 = 0 ∧ blockPopulated a left = true ∧ blockFits m k left = true
  | .blockStore (.side m) a k left _ =>
    0 < left ∧ a.toNat % 4 = 0 ∧ blockPopulated a left = true ∧ blockFits m k left = true
  | .blockStore (.fill _) a _ left _ => 0 < left ∧ a.toNat % 4 = 0 ∧ blockPopulated a left = true

/-- A sound state: Hub RAM is in canonical form and holds populated addresses only (R38), and what any cog keeps in
progress is sound. -/
structure State.Inv (s : State) : Prop where
  hub_wf : s.hub.wf
  hub_populated : ∀ x ∈ s.hub, x.1 < Config.hubSize
  inFlight_sound : ∀ (k : Fin 8) (t : Transfer), (s.cogs.get k).inFlight = some t → t.sound

/-- What no instruction of the acting cog changes: which cog acts, the turns ahead, every other cog's private state
(R148), and the acting cog's own list and work in progress (R20, R19). -/
structure State.FrameOf (s t : State) : Prop where
  cur : t.cur = s.cur
  turns : t.turns = s.turns
  others : ∀ k : Fin 8, k ≠ s.cur → t.cogs.get k = s.cogs.get k
  prog : t.cog.prog = s.cog.prog
  inFlight : t.cog.inFlight = s.cog.inFlight

/-- The pointer register an S operand updates, if it is an updating pointer form (R78, R79). -/
def updatedPtr : Src → Option Ptr
  | .ptr p (.post _) => some p
  | .ptr p (.pre _) => some p
  | .ptr _ (.index _) => none
  | .reg _ => none
  | .imm _ => none

/-- A cog has finished when its pc has reached the length of its list and it has nothing in progress (R152). -/
def Cog.finished (c : Cog) : Prop := c.prog.length ≤ c.pc ∧ c.inFlight = none

/-- The run has ended when every cog has finished (R152). -/
def State.ended (s : State) : Prop := ∀ k : Fin 8, (s.cogs.get k).finished

end Sys2Proof.Machine
end

