-- ==== Sys2Proof/Certificates/Slice0/Obligations.lean ====
section
/-! DEFINITION. The statements for the provers. Each docstring names the rule of spec/ it formalises, and says where a
clause is the spec's own decision or inference, or the model's choice, and not the source's words. -/

open Sys2Proof Sys2Proof.Machine

/-! ### Encoding -/

/-- Decoding the word of any well-formed instruction gives the instruction back, every operand at every value
(30_encoding.md R50 to R58, R62; bit 31 first is D1, the SETQ words are G3, log 8). -/
def Obligations.DecodeOfEncode : Prop :=
  ∀ i : Instr, i.wellFormed = true → decode (encode i) = .ok i

/-- A word that decodes is the word of the instruction it decodes to, which is well formed: each word has one meaning. -/
def Obligations.EncodeOfDecode : Prop :=
  ∀ (w : Word) (i : Instr), decode w = .ok i → encode i = w ∧ i.wellFormed = true

/-- A word is refused as unknown exactly when it matches no row of the table (R59; what an unknown word does is D31). -/
def Obligations.UnknownWordMatchesNoRow : Prop :=
  ∀ w : Word, decode w = .error .unknownWord ↔ ∀ row ∈ tableRows, matchesRow w row = false

/-- Words the spec writes out (95_test_vectors.md 2.1, 2.4) decode to the instructions it says; the SETQ and SETQ2 words
are PRESUMED, from general knowledge (G3, log 8). -/
def Obligations.SampleWordsDecode : Prop :=
  decode 0xFB180A06#32 = .ok (.rdlong always true true 5#9 (.reg 6#9)) ∧
  decode 0xFAE40F41#32 = .ok (.rdword always false false 7#9 (.ptr .a (.pre 1#5))) ∧
  decode 0xFAC40B20#32 = .ok (.rdbyte always false false 5#9 (.ptr .a (.index (-32)))) ∧
  decode 0xFC640B70#32 = .ok (.wrlong always (.reg 5#9) (.ptr .a (.post (-16)))) ∧
  decode 0xFC5BFE06#32 = .ok (.wrword always (.imm 0x1FF#9) (.reg 6#9)) ∧
  decode 0xFC488206#32 = .ok (.wrbyte always (.imm 0x41#9) (.reg 6#9)) ∧
  decode 0xFA7C0A20#32 = .ok (.wmlong always 5#9 (.imm 0x20#8)) ∧
  decode 0xFC6CAB61#32 = .ok (.pusha always (.imm 0x55#9)) ∧
  decode 0xFB0C13DF#32 = .ok (.popb always false true 9#9) ∧
  decode 0xFD640628#32 = .ok (.setq always (.imm 3#9)) ∧
  decode 0xFD602829#32 = .ok (.setq2 always (.reg 20#9)) ∧
  decode 0xFC640B60#32 = .error .indexFieldZero ∧
  decode 0xFC700A06#32 = .error .unknownWord

/-! ### The address operand -/

/-- Register form (40_pointer_expressions.md R71): the address is the low 20 bits of x[S], nothing is updated, and a
read whose D is its own S takes the address before x[D] is written. -/
def Obligations.RegisterFormAddress : Prop :=
  ∀ (r : RegAddr) (s : State), namesPointer r = false →
    (∀ scale, effAddr (.reg r) scale s = .ok ((s.cog.reg r).setWidth 20, s)) ∧
    ∀ (wc wz : Bool), s.cog.qpfx = .none →
      (populated ((s.cog.reg r).setWidth 20) .byte = true → ∃ t, exec (.rdbyte always wc wz r (.reg r)) s = .next t ∧
        t.cog.reg r = s.hub.read ((s.cog.reg r).setWidth 20) .byte) ∧
      (populated ((s.cog.reg r).setWidth 20) .word = true → ∃ t, exec (.rdword always wc wz r (.reg r)) s = .next t ∧
        t.cog.reg r = s.hub.read ((s.cog.reg r).setWidth 20) .word) ∧
      (populated ((s.cog.reg r).setWidth 20) .long = true → ∃ t, exec (.rdlong always wc wz r (.reg r)) s = .next t ∧
        t.cog.reg r = s.hub.read ((s.cog.reg r).setWidth 20) .long)

/-- Immediate form (R72): an address from 0 to 255, nothing updated, valid in a block transfer too. -/
def Obligations.ImmediateFormAddress : Prop :=
  ∀ (v : BitVec 8) (s : State), ∃ a : HubAddr, a.toNat = v.toNat ∧
    (∀ scale, effAddr (.imm v) scale s = .ok (a, s)) ∧ ∀ n, effAddrBlock (.imm v) n s = .ok (a, s)

/-- `PTRx` and `PTRx[INDEX6]` (R76, R77): the address is PTRx + INDEX*SCALE modulo 2^20 and the pointer keeps its value;
INDEX is signed (D9, log 14), SCALE is 4, 2 or 1 (D7, log 16), the address holds for every pointer value (R82). -/
def Obligations.IndexFormAddress : Prop :=
  ∀ (p : Ptr) (i : BitVec 6) (w : Width) (s : State), ∃ a : HubAddr,
    effAddr (.ptr p (.index i)) w.scale s = .ok (a, s) ∧
    (a.toNat : Int) = ((s.cog.ptr p).toNat + i.toInt * w.scale) % 2 ^ 20

/-- The updating forms inside 0 to 2^20 - 1 (R78, R79, R82): `PTRx++` and `PTRx--` access at the old pointer, `++PTRx`
and `--PTRx` at the new one, which is the exact sum, and nothing but that pointer changes (index and SCALE: D9, D7). -/
def Obligations.UpdatingFormExact : Prop :=
  ∀ (p : Ptr) (i : BitVec 5) (w : Width) (s : State), i ≠ 0 → (s.cog.ptr p).toNat < 2 ^ 20 →
    0 ≤ ((s.cog.ptr p).toNat : Int) + i.toInt * w.scale →
    ((s.cog.ptr p).toNat : Int) + i.toInt * w.scale < 2 ^ 20 →
    ∃ (old sum : HubAddr) (new : Word), old.toNat = (s.cog.ptr p).toNat ∧
      (new.toNat : Int) = (s.cog.ptr p).toNat + i.toInt * w.scale ∧ sum.toNat = new.toNat ∧
      effAddr (.ptr p (.post i)) w.scale s = .ok (old, s.setCog (s.cog.setPtr p new)) ∧
      effAddr (.ptr p (.pre i)) w.scale s = .ok (sum, s.setCog (s.cog.setPtr p new))

/-- The updating forms beyond that range (R82): the hub address is still the old pointer or the sum, modulo 2^20, and
nothing but that pointer changes; of the pointer's new value nothing is said, it is open (D8, log 7). -/
def Obligations.UpdatingFormBeyondRange : Prop :=
  ∀ (p : Ptr) (i : BitVec 5) (w : Width) (s : State), i ≠ 0 →
    ∃ (old sum : HubAddr) (new : Word), old = (s.cog.ptr p).setWidth 20 ∧
      (sum.toNat : Int) = ((s.cog.ptr p).toNat + i.toInt * w.scale) % 2 ^ 20 ∧
      effAddr (.ptr p (.post i)) w.scale s = .ok (old, s.setCog (s.cog.setPtr p new)) ∧
      effAddr (.ptr p (.pre i)) w.scale s = .ok (sum, s.setCog (s.cog.setPtr p new))

/-- The address of a block transfer (R122): register and immediate as in a single access, `PTRx` without a change, the
four unindexed forms with the step 4*N (that the step counts N = Q + 1 is the spec's inference), exact inside 0 to
2^20 - 1; for every pointer value the hub address of those forms is the old pointer or the sum, modulo 2^20, and nothing
but that pointer changes, whose new value beyond the range is open (R82, D8, log 7); every other pointer form is refused
(D18). -/
def Obligations.BlockFormAddress : Prop :=
  ∀ (n : Nat) (s : State),
    (∀ r, namesPointer r = false → effAddrBlock (.reg r) n s = .ok ((s.cog.reg r).setWidth 20, s)) ∧
    (∀ v, effAddrBlock (.imm v) n s = .ok (v.setWidth 20, s)) ∧
    (∀ p, effAddrBlock (.ptr p (.index 0)) n s = .ok ((s.cog.ptr p).setWidth 20, s)) ∧
    (∀ p, (s.cog.ptr p).toNat + 4 * n < 2 ^ 20 → ∃ (old sum : HubAddr) (new : Word),
      old.toNat = (s.cog.ptr p).toNat ∧ new.toNat = (s.cog.ptr p).toNat + 4 * n ∧ sum.toNat = new.toNat ∧
      effAddrBlock (.ptr p (.post 1)) n s = .ok (old, s.setCog (s.cog.setPtr p new)) ∧
      effAddrBlock (.ptr p (.pre 1)) n s = .ok (sum, s.setCog (s.cog.setPtr p new))) ∧
    (∀ p, (s.cog.ptr p).toNat < 2 ^ 20 → 4 * n ≤ (s.cog.ptr p).toNat → ∃ (old sum : HubAddr) (new : Word),
      old.toNat = (s.cog.ptr p).toNat ∧ new.toNat = (s.cog.ptr p).toNat - 4 * n ∧ sum.toNat = new.toNat ∧
      effAddrBlock (.ptr p (.post (-1))) n s = .ok (old, s.setCog (s.cog.setPtr p new)) ∧
      effAddrBlock (.ptr p (.pre (-1))) n s = .ok (sum, s.setCog (s.cog.setPtr p new))) ∧
    (∀ p, ∃ (old up down : HubAddr) (more less : Word), old = (s.cog.ptr p).setWidth 20 ∧
      (up.toNat : Int) = ((s.cog.ptr p).toNat + 4 * n) % 2 ^ 20 ∧
      (down.toNat : Int) = ((s.cog.ptr p).toNat - 4 * n) % 2 ^ 20 ∧
      effAddrBlock (.ptr p (.post 1)) n s = .ok (old, s.setCog (s.cog.setPtr p more)) ∧
      effAddrBlock (.ptr p (.pre 1)) n s = .ok (up, s.setCog (s.cog.setPtr p more)) ∧
      effAddrBlock (.ptr p (.post (-1))) n s = .ok (old, s.setCog (s.cog.setPtr p less)) ∧
      effAddrBlock (.ptr p (.pre (-1))) n s = .ok (down, s.setCog (s.cog.setPtr p less))) ∧
    (∀ p (i : BitVec 6), i ≠ 0 → effAddrBlock (.ptr p (.index i)) n s = .error .blockPointerForm) ∧
    (∀ p (i : BitVec 5), i ≠ 1 → i ≠ -1 → effAddrBlock (.ptr p (.post i)) n s = .error .blockPointerForm ∧
      effAddrBlock (.ptr p (.pre i)) n s = .error .blockPointerForm)

/-! ### Hub RAM -/

/-- `MemRead` (20_memory.md R31): the value of the n bytes at (A + i) mod 2^20, the lowest address least significant,
every higher bit 0. -/
def Obligations.ReadIsLittleEndian : Prop :=
  ∀ (m : Memory) (a : HubAddr) (w : Width),
    (m.read a w).toNat = (w.bytes.map fun i => (m.readByte ((a.toNat + i) % 2 ^ 20)).toNat <<< (8 * i)).sum

/-- `MemWrite` (R32): each of the n bytes becomes its byte of the value and no other byte changes, whatever the address. -/
def Obligations.WriteSetsItsBytesOnly : Prop :=
  ∀ (m : Memory) (a : HubAddr) (w : Width) (v : Word),
    (∀ i, i < w.scale → (m.write a w v).readByte ((a.toNat + i) % 2 ^ 20) = v.extractLsb' (8 * i) 8) ∧
    ∀ b, (∀ i, i < w.scale → b ≠ (a.toNat + i) % 2 ^ 20) → (m.write a w v).readByte b = m.readByte b

/-- `MemWriteMasked` (R33): a zero byte of the data leaves the byte in memory as it was, every other one is written. -/
def Obligations.MaskedWriteSkipsZeroBytes : Prop :=
  ∀ (m : Memory) (a : HubAddr) (v : Word),
    (∀ i, i < 4 → (m.writeMasked a v).readByte ((a.toNat + i) % 2 ^ 20) =
      if v.extractLsb' (8 * i) 8 = 0 then m.readByte ((a.toNat + i) % 2 ^ 20) else v.extractLsb' (8 * i) 8) ∧
    ∀ b, (∀ i, i < 4 → b ≠ (a.toNat + i) % 2 ^ 20) → (m.writeMasked a v).readByte b = m.readByte b

/-- A read sees what a write of the same width put there, and a narrower read the bytes a wider write placed (R45, with
the shape of its example: a byte at A, a word at A + 1, a byte at A + 3 after a long at A). -/
def Obligations.MixedWidthReads : Prop :=
  ∀ (m : Memory) (a : HubAddr) (v : Word),
    (∀ w, (m.write a w v).read a w = (v.extractLsb' 0 (8 * w.scale)).setWidth 32) ∧
    (m.write a .long v).read a .byte = (v.extractLsb' 0 8).setWidth 32 ∧
    (m.write a .long v).read (a + 1) .word = (v.extractLsb' 8 16).setWidth 32 ∧
    (m.write a .long v).read (a + 3) .byte = (v.extractLsb' 24 8).setWidth 32

/-! ### Results of the reads -/

/-- RDLONG (41_hub_reads.md R91) completes on every populated address, aligned or not: x[D], C and Z as the rule says. -/
def Obligations.RdlongResult : Prop :=
  ∀ (wc wz : Bool) (d : RegAddr) (src : Src) (s s1 : State) (a : HubAddr),
    s.cog.qpfx = .none → namesPointer d = false → effAddr src 4 s = .ok (a, s1) → populated a .long = true →
    ∃ t, exec (.rdlong always wc wz d src) s = .next t ∧ t.cog.reg d = s.hub.read a .long ∧
      t.cog.c = (if wc then (s.hub.read a .long).getLsbD 31 else s.cog.c) ∧
      t.cog.z = (if wz then decide (s.hub.read a .long = 0) else s.cog.z) ∧
      t.cog.ptra = s1.cog.ptra ∧ t.cog.ptrb = s1.cog.ptrb ∧ t.hub = s.hub ∧
      t.cog.qpfx = .none ∧ t.cog.pc = s.cog.pc + 1

/-- RDWORD (R92): as RDLONG with two bytes, the upper 16 bits of x[D] zero, C from bit 15. -/
def Obligations.RdwordResult : Prop :=
  ∀ (wc wz : Bool) (d : RegAddr) (src : Src) (s s1 : State) (a : HubAddr),
    s.cog.qpfx = .none → namesPointer d = false → effAddr src 2 s = .ok (a, s1) → populated a .word = true →
    ∃ t, exec (.rdword always wc wz d src) s = .next t ∧ t.cog.reg d = s.hub.read a .word ∧
      (t.cog.reg d).extractLsb' 16 16 = 0#16 ∧
      t.cog.c = (if wc then (s.hub.read a .word).getLsbD 15 else s.cog.c) ∧
      t.cog.z = (if wz then decide (s.hub.read a .word = 0) else s.cog.z) ∧
      t.cog.ptra = s1.cog.ptra ∧ t.cog.ptrb = s1.cog.ptrb ∧ t.hub = s.hub ∧
      t.cog.qpfx = .none ∧ t.cog.pc = s.cog.pc + 1

/-- RDBYTE (R93): as RDLONG with one byte, the upper 24 bits of x[D] zero, C from bit 7. -/
def Obligations.RdbyteResult : Prop :=
  ∀ (wc wz : Bool) (d : RegAddr) (src : Src) (s s1 : State) (a : HubAddr),
    s.cog.qpfx = .none → namesPointer d = false → effAddr src 1 s = .ok (a, s1) → populated a .byte = true →
    ∃ t, exec (.rdbyte always wc wz d src) s = .next t ∧ t.cog.reg d = (s.hub.readByte a.toNat).setWidth 32 ∧
      t.cog.c = (if wc then (s.hub.readByte a.toNat).getLsbD 7 else s.cog.c) ∧
      t.cog.z = (if wz then decide (s.hub.readByte a.toNat = 0) else s.cog.z) ∧
      t.cog.ptra = s1.cog.ptra ∧ t.cog.ptrb = s1.cog.ptrb ∧ t.hub = s.hub ∧
      t.cog.qpfx = .none ∧ t.cog.pc = s.cog.pc + 1

/-! ### Results of the writes -/

/-- The data operand (30_encoding.md R54, 42_hub_writes.md R105): x[D], a zero-extended immediate (D11, log 22), or the
`##` value; the operand of SETQ and SETQ2 likewise (R110). -/
def Obligations.DataOperands : Prop :=
  ∀ s : State,
    (∀ r, namesPointer r = false → readData (.reg r) s = .ok (s.cog.reg r) ∧ readQArg (.reg r) s = .ok (s.cog.reg r)) ∧
    (∀ v, ∃ x : Word, x.toNat = v.toNat ∧ readData (.imm v) s = .ok x ∧ readQArg (.imm v) s = .ok x) ∧
    ∀ v, readData (.aug v) s = .ok v

/-- WRLONG, WRWORD and WRBYTE without a prefix (R101, R102, R103) complete on every populated address: the low bytes of
the data taken before the instruction lie at the address, the pointer is updated, no register or flag is written. -/
def Obligations.PlainWriteResult : Prop :=
  ∀ (data : Data) (src : Src) (s s1 : State) (a : HubAddr) (v : Word) (w : Width),
    s.cog.qpfx = .none → readData data s = .ok v → effAddr src w.scale s = .ok (a, s1) → populated a w = true →
    ∃ t, exec (match w with
        | .long => .wrlong always data src
        | .word => .wrword always data src
        | .byte => .wrbyte always data src) s = .next t ∧
      (∀ i, i < w.scale → t.hub.readByte ((a.toNat + i) % 2 ^ 20) = v.extractLsb' (8 * i) 8) ∧
      (∀ b, (∀ i, i < w.scale → b ≠ (a.toNat + i) % 2 ^ 20) → t.hub.readByte b = s.hub.readByte b) ∧
      t.cog = { s1.cog with qpfx := .none, pc := s.cog.pc + 1 }

/-- WMLONG without a prefix (R104): byte i of x[D] is written exactly when it is non-zero; the pointer is updated even
when nothing is written. -/
def Obligations.WmlongResult : Prop :=
  ∀ (d : RegAddr) (src : Src) (s s1 : State) (a : HubAddr),
    s.cog.qpfx = .none → namesPointer d = false → effAddr src 4 s = .ok (a, s1) → populated a .long = true →
    ∃ t, exec (.wmlong always d src) s = .next t ∧
      (∀ i, i < 4 → t.hub.readByte ((a.toNat + i) % 2 ^ 20) =
        if (s.cog.reg d).extractLsb' (8 * i) 8 = 0 then s.hub.readByte ((a.toNat + i) % 2 ^ 20)
        else (s.cog.reg d).extractLsb' (8 * i) 8) ∧
      (∀ b, (∀ i, i < 4 → b ≠ (a.toNat + i) % 2 ^ 20) → t.hub.readByte b = s.hub.readByte b) ∧
      t.cog = { s1.cog with qpfx := .none, pc := s.cog.pc + 1 }

/-- WMLONG of a long with no zero byte "behaves exactly as WRLONG" (R104), here with no prefix pending: the whole
outcome, under every condition field and operand form. -/
def Obligations.WmlongWithoutZeroByteIsWrlong : Prop :=
  ∀ (e : Cond) (d : RegAddr) (src : Src) (s : State), s.cog.qpfx = .none →
    (∀ i, i < 4 → (s.cog.reg d).extractLsb' (8 * i) 8 ≠ 0#8) →
    exec (.wmlong e d src) s = exec (.wrlong e (.reg d) src) s

/-! ### The stack aliases -/

/-- The four pseudo-instructions (30_encoding.md R64): each has the meaning, in every state, and the single word of its
base instruction with the fixed S operand. -/
def Obligations.AliasesAreBaseInstructions : Prop :=
  ∀ (e : Cond) (wc wz : Bool) (d : RegAddr) (data : Data) (s : State),
    (exec (.pusha e data) s = exec (.wrlong e data (.ptr .a (.post 1))) s ∧
      encode (.pusha e data) = encode (.wrlong e data (.ptr .a (.post 1)))) ∧
    (exec (.pushb e data) s = exec (.wrlong e data (.ptr .b (.post 1))) s ∧
      encode (.pushb e data) = encode (.wrlong e data (.ptr .b (.post 1)))) ∧
    (exec (.popa e wc wz d) s = exec (.rdlong e wc wz d (.ptr .a (.pre (-1)))) s ∧
      encode (.popa e wc wz d) = encode (.rdlong e wc wz d (.ptr .a (.pre (-1))))) ∧
    (exec (.popb e wc wz d) s = exec (.rdlong e wc wz d (.ptr .b (.pre (-1)))) s ∧
      encode (.popb e wc wz d) = encode (.rdlong e wc wz d (.ptr .b (.pre (-1)))))

/-- PUSHA and PUSHB (R131, R132) for a pointer p with p + 4 populated: the long at p becomes the data and PTRx becomes
p + 4 (the step 4 is D7, log 16); the other pointer and everything else of the cog keeps its value. -/
def Obligations.PushResult : Prop :=
  ∀ (p : Ptr) (data : Data) (s : State) (v : Word), s.cog.qpfx = .none → readData data s = .ok v →
    (s.cog.ptr p).toNat + 4 ≤ Config.hubSize →
    ∃ (t : State) (new : Word), exec (match p with | .a => .pusha always data | .b => .pushb always data) s = .next t ∧
      new.toNat = (s.cog.ptr p).toNat + 4 ∧
      (∀ i, i < 4 → t.hub.readByte ((s.cog.ptr p).toNat + i) = v.extractLsb' (8 * i) 8) ∧
      (∀ b, (∀ i, i < 4 → b ≠ (s.cog.ptr p).toNat + i) → t.hub.readByte b = s.hub.readByte b) ∧
      t.cog = { s.cog.setPtr p new with qpfx := .none, pc := s.cog.pc + 1 }

/-- POPA and POPB (R133, R134) for a pointer of 4 to the end of Hub RAM: PTRx becomes p - 4, x[D] the long there, C and
Z as the effects ask. -/
def Obligations.PopResult : Prop :=
  ∀ (p : Ptr) (wc wz : Bool) (d : RegAddr) (s : State), s.cog.qpfx = .none → namesPointer d = false →
    4 ≤ (s.cog.ptr p).toNat → (s.cog.ptr p).toNat ≤ Config.hubSize →
    ∃ (t : State) (new : Word) (a : HubAddr),
      exec (match p with | .a => .popa always wc wz d | .b => .popb always wc wz d) s = .next t ∧
      new.toNat = (s.cog.ptr p).toNat - 4 ∧ a.toNat = new.toNat ∧ t.cog.ptr p = new ∧
      t.cog.reg d = s.hub.read a .long ∧
      t.cog.c = (if wc then (s.hub.read a .long).getLsbD 31 else s.cog.c) ∧
      t.cog.z = (if wz then decide (s.hub.read a .long = 0) else s.cog.z) ∧
      t.hub = s.hub ∧ t.cog.qpfx = .none ∧ t.cog.pc = s.cog.pc + 1

/-- A push followed by a pop on the same pointer leaves the data in x[D] and PTRx as it was (R130, an inference of the
spec): the ground of D7. -/
def Obligations.PushThenPop : Prop :=
  ∀ (p : Ptr) (data : Data) (wc wz : Bool) (d : RegAddr) (s : State) (v : Word),
    s.cog.qpfx = .none → readData data s = .ok v → namesPointer d = false →
    (s.cog.ptr p).toNat + 4 ≤ Config.hubSize →
    ∃ t u : State,
      exec (match p with | .a => .pusha always data | .b => .pushb always data) s = .next t ∧
      exec (match p with | .a => .popa always wc wz d | .b => .popb always wc wz d) t = .next u ∧
      u.cog.reg d = v ∧ u.cog.ptr p = s.cog.ptr p ∧ u.cog.pc = s.cog.pc + 2 ∧ u.hub = t.hub

/-! ### SETQ and SETQ2 -/

/-- SETQ and SETQ2 (43_block_transfers.md R110, R111): Q takes the operand, QPFX the prefix, pc goes on, and nothing
else changes. -/
def Obligations.SetqResult : Prop :=
  ∀ (arg : QArg) (s : State) (v : Word), s.cog.qpfx = .none → readQArg arg s = .ok v →
    exec (.setq always arg) s = .next (s.setCog { s.cog with q := v, qpfx := .setq, pc := s.cog.pc + 1 }) ∧
    exec (.setq2 always arg) s = .next (s.setCog { s.cog with q := v, qpfx := .setq2, pc := s.cog.pc + 1 })

/-! ### Block transfers -/

/-- Block RDLONG to registers (R116, R113, R115): every register D + k receives the long at A + 4k, every other register
and Lookup RAM keep their values, the pointer moves as `EA_block` says, Q keeps its value. The limits are the model's
(log 10, log 12); that Q keeps its value is PRESUMED (G14, log 29). -/
def Obligations.BlockReadToRegisters : Prop :=
  ∀ (wc wz : Bool) (d : RegAddr) (src : Src) (s s1 : State) (a : HubAddr) (n : Nat),
    s.cog.qpfx = .setq → n = s.cog.q.toNat + 1 → n ≤ Config.blockMax → d.toNat + n ≤ Config.regBlockLimit →
    effAddrBlock src n s = .ok (a, s1) → a.toNat % 4 = 0 → a.toNat + 4 * n ≤ Config.hubSize →
    ∃ t, exec (.rdlong always wc wz d src) s = .next t ∧
      (∀ k, k < n → t.cog.reg (d + BitVec.ofNat 9 k) = s.hub.read (a + BitVec.ofNat 20 (4 * k)) .long) ∧
      (∀ r : RegAddr, r.toNat < d.toNat ∨ d.toNat + n ≤ r.toNat → t.cog.reg r = s.cog.reg r) ∧
      t.cog.lut = s.cog.lut ∧ t.cog.ptra = s1.cog.ptra ∧ t.cog.ptrb = s1.cog.ptrb ∧ t.cog.q = s.cog.q ∧
      t.hub = s.hub ∧ t.cog.qpfx = .none ∧ t.cog.pc = s.cog.pc + 1

/-- Block RDLONG to Lookup RAM (R117): the same with lut[D + k]; the D field is the index and
Lookup RAM has 512 longs (PRESUMED: D20, log 9); that Q keeps its value is PRESUMED (G14, log 29). -/
def Obligations.BlockReadToLut : Prop :=
  ∀ (wc wz : Bool) (d : RegAddr) (src : Src) (s s1 : State) (a : HubAddr) (n : Nat),
    s.cog.qpfx = .setq2 → n = s.cog.q.toNat + 1 → n ≤ Config.blockMax → d.toNat + n ≤ Config.lutSize →
    effAddrBlock src n s = .ok (a, s1) → a.toNat % 4 = 0 → a.toNat + 4 * n ≤ Config.hubSize →
    ∃ t, exec (.rdlong always wc wz d src) s = .next t ∧
      (∀ k, k < n → t.cog.lutAt (d + BitVec.ofNat 9 k) = s.hub.read (a + BitVec.ofNat 20 (4 * k)) .long) ∧
      (∀ r : RegAddr, r.toNat < d.toNat ∨ d.toNat + n ≤ r.toNat → t.cog.lutAt r = s.cog.lutAt r) ∧
      t.cog.regs = s.cog.regs ∧ t.cog.ptra = s1.cog.ptra ∧ t.cog.ptrb = s1.cog.ptrb ∧ t.cog.q = s.cog.q ∧
      t.hub = s.hub ∧ t.cog.qpfx = .none ∧ t.cog.pc = s.cog.pc + 1

/-- The flags of a block transfer (R123): C and Z of a block RDLONG are those of its last long, at A + 4(N - 1), under
WC and WZ; a block WRLONG and a block WMLONG write no flag. -/
def Obligations.BlockFlagsFromLastLong : Prop :=
  ∀ (s t : State), s.cog.qpfx ≠ .none →
    (∀ (wc wz : Bool) (d : RegAddr) (src : Src) (a : HubAddr) (s1 : State),
      effAddrBlock src (s.cog.q.toNat + 1) s = .ok (a, s1) → exec (.rdlong always wc wz d src) s = .next t →
      t.cog.c = (if wc then (s.hub.read (a + BitVec.ofNat 20 (4 * s.cog.q.toNat)) .long).getLsbD 31 else s.cog.c) ∧
      t.cog.z = (if wz then decide (s.hub.read (a + BitVec.ofNat 20 (4 * s.cog.q.toNat)) .long = 0) else s.cog.z)) ∧
    (∀ (data : Data) (src : Src), exec (.wrlong always data src) s = .next t → t.cog.c = s.cog.c ∧ t.cog.z = s.cog.z) ∧
    ∀ (d : RegAddr) (src : Src), exec (.wmlong always d src) s = .next t → t.cog.c = s.cog.c ∧ t.cog.z = s.cog.z

/-- Block WRLONG with a register D (R119 under SETQ, R118 under SETQ2): the long at A + 4k becomes x[D + k] or lut[D + k],
every byte outside the block keeps its value, and so does everything of the cog but QPFX, pc and the pointer. The Lookup
RAM index is PRESUMED (D20, log 9), and so is that Q keeps its value (G14, log 29); the limits are log 10 and log 12. -/
def Obligations.BlockWriteResult : Prop :=
  ∀ (m : Side) (d : RegAddr) (src : Src) (s s1 : State) (a : HubAddr) (n : Nat),
    s.cog.qpfx = (match m with | .regs => .setq | .lut => .setq2) → n = s.cog.q.toNat + 1 → n ≤ Config.blockMax →
    d.toNat + n ≤ (match m with | .regs => Config.regBlockLimit | .lut => Config.lutSize) →
    effAddrBlock src n s = .ok (a, s1) → a.toNat % 4 = 0 → a.toNat + 4 * n ≤ Config.hubSize →
    ∃ t, exec (.wrlong always (.reg d) src) s = .next t ∧
      (∀ k i, k < n → i < 4 → t.hub.readByte (a.toNat + 4 * k + i) =
        (match m with
          | .regs => s.cog.reg (d + BitVec.ofNat 9 k)
          | .lut => s.cog.lutAt (d + BitVec.ofNat 9 k)).extractLsb' (8 * i) 8) ∧
      (∀ b, b < a.toNat ∨ a.toNat + 4 * n ≤ b → t.hub.readByte b = s.hub.readByte b) ∧
      t.cog = { s1.cog with qpfx := .none, pc := s.cog.pc + 1 }

/-- Block WMLONG (R120 under SETQ, R118 under SETQ2): as block WRLONG, each long leaving out its zero bytes.
The Lookup RAM index is PRESUMED (D20, log 9), and so is that Q keeps its value (G14, log 29); the limits are log 10 and
log 12. -/
def Obligations.BlockMaskedWriteResult : Prop :=
  ∀ (m : Side) (d : RegAddr) (src : Src) (s s1 : State) (a : HubAddr) (n : Nat),
    s.cog.qpfx = (match m with | .regs => .setq | .lut => .setq2) → n = s.cog.q.toNat + 1 → n ≤ Config.blockMax →
    d.toNat + n ≤ (match m with | .regs => Config.regBlockLimit | .lut => Config.lutSize) →
    effAddrBlock src n s = .ok (a, s1) → a.toNat % 4 = 0 → a.toNat + 4 * n ≤ Config.hubSize →
    ∃ t, exec (.wmlong always d src) s = .next t ∧
      (∀ (k i : Nat) (v : Word), k < n → i < 4 → v = (match m with
          | .regs => s.cog.reg (d + BitVec.ofNat 9 k)
          | .lut => s.cog.lutAt (d + BitVec.ofNat 9 k)) →
        t.hub.readByte (a.toNat + 4 * k + i) =
          if v.extractLsb' (8 * i) 8 = 0 then s.hub.readByte (a.toNat + 4 * k + i) else v.extractLsb' (8 * i) 8) ∧
      (∀ b, b < a.toNat ∨ a.toNat + 4 * n ≤ b → t.hub.readByte b = s.hub.readByte b) ∧
      t.cog = { s1.cog with qpfx := .none, pc := s.cog.pc + 1 }

/-- Fill (R121): WRLONG with an immediate or `##` data after SETQ makes each of the N longs at A the value; no register
range is read, so only BLOCK_MAX (log 12) and the populated range bound N. That Q keeps its value is PRESUMED (G14,
log 29). -/
def Obligations.FillResult : Prop :=
  ∀ (data : Data) (v : Word) (src : Src) (s s1 : State) (a : HubAddr) (n : Nat),
    s.cog.qpfx = .setq → (∀ r, data ≠ .reg r) → readData data s = .ok v →
    n = s.cog.q.toNat + 1 → n ≤ Config.blockMax →
    effAddrBlock src n s = .ok (a, s1) → a.toNat % 4 = 0 → a.toNat + 4 * n ≤ Config.hubSize →
    ∃ t, exec (.wrlong always data src) s = .next t ∧
      (∀ k i, k < n → i < 4 → t.hub.readByte (a.toNat + 4 * k + i) = v.extractLsb' (8 * i) 8) ∧
      (∀ b, b < a.toNat ∨ a.toNat + 4 * n ≤ b → t.hub.readByte b = s.hub.readByte b) ∧
      t.cog = { s1.cog with qpfx := .none, pc := s.cog.pc + 1 }

/-- A block of one long after SETQ equals the ordinary instruction with the same operands (R116, R119), wherever the
block is valid; that the block leaves Q as it was is PRESUMED (G14, log 29). -/
def Obligations.BlockOfOneIsSingle : Prop :=
  ∀ (e : Cond) (wc wz : Bool) (d : RegAddr) (src : Src) (s s0 s1 : State) (a : HubAddr),
    s.cog.qpfx = .setq → s.cog.q = 0 → d.toNat + 1 ≤ Config.regBlockLimit →
    effAddrBlock src 1 s = .ok (a, s1) → a.toNat % 4 = 0 → a.toNat + 4 ≤ Config.hubSize →
    s0 = s.setCog { s.cog with qpfx := .none } →
    exec (.rdlong e wc wz d src) s = exec (.rdlong e wc wz d src) s0 ∧
    exec (.wrlong e (.reg d) src) s = exec (.wrlong e (.reg d) src) s0 ∧
    exec (.wmlong e d src) s = exec (.wmlong e d src) s0

/-! ### Frames -/

/-- What a read changes when it completes, under every condition field, prefix and operand form (RDBYTE, RDWORD, RDLONG;
POPA and POPB are RDLONG by `AliasesAreBaseInstructions`): no byte of Hub RAM, no register but D (none but the block's
range after SETQ, none after SETQ2), Lookup RAM only after SETQ2, C only with WC, Z only with WZ, no pointer but one its
S operand updates, not Q. The Lookup RAM range is PRESUMED (D20, log 9), and so is that Q keeps its value after a prefix
(G14, log 29). -/
def Obligations.ReadFrame : Prop :=
  ∀ (e : Cond) (wc wz : Bool) (d : RegAddr) (src : Src) (s t : State) (i : Instr),
    i = .rdbyte e wc wz d src ∨ i = .rdword e wc wz d src ∨ i = .rdlong e wc wz d src →
    exec i s = .next t →
    s.FrameOf t ∧ (∀ b, t.hub.readByte b = s.hub.readByte b) ∧
    (∀ r : RegAddr, (s.cog.qpfx = .none → r ≠ d) →
      (s.cog.qpfx = .setq → r.toNat < d.toNat ∨ d.toNat + s.cog.q.toNat < r.toNat) → t.cog.reg r = s.cog.reg r) ∧
    (∀ r : RegAddr, (s.cog.qpfx = .setq2 → r.toNat < d.toNat ∨ d.toNat + s.cog.q.toNat < r.toNat) →
      t.cog.lutAt r = s.cog.lutAt r) ∧
    (wc = false → t.cog.c = s.cog.c) ∧ (wz = false → t.cog.z = s.cog.z) ∧
    (∀ p, updatedPtr src ≠ some p → t.cog.ptr p = s.cog.ptr p) ∧ t.cog.q = s.cog.q

/-- What a single write changes when it completes (WRBYTE, WRWORD, WRLONG, WMLONG; PUSHA and PUSHB are WRLONG by
`AliasesAreBaseInstructions`): of Hub RAM only the bytes at the address its S operand gives, no register, no Lookup RAM,
no flag, no pointer but one its S operand updates, not Q. -/
def Obligations.WriteFrame : Prop :=
  ∀ (e : Cond) (d : RegAddr) (data : Data) (src : Src) (w : Width) (s t : State) (i : Instr), s.cog.qpfx = .none →
    (i = .wrbyte e data src ∧ w = .byte) ∨ (i = .wrword e data src ∧ w = .word) ∨
      (i = .wrlong e data src ∧ w = .long) ∨ (i = .wmlong e d src ∧ w = .long) →
    exec i s = .next t →
    s.FrameOf t ∧
    (∀ a s1, effAddr src w.scale s = .ok (a, s1) →
      ∀ b, (∀ i, i < w.scale → b ≠ (a.toNat + i) % 2 ^ 20) → t.hub.readByte b = s.hub.readByte b) ∧
    t.cog.regs = s.cog.regs ∧ t.cog.lut = s.cog.lut ∧ t.cog.c = s.cog.c ∧ t.cog.z = s.cog.z ∧
    (∀ p, updatedPtr src ≠ some p → t.cog.ptr p = s.cog.ptr p) ∧ t.cog.q = s.cog.q

/-- What a block write or fill changes when it completes (WRLONG, WMLONG after SETQ or SETQ2): of Hub RAM only the N
longs from the address its S operand gives, and of the cog only QPFX, pc and the pointer its S operand updates; that Q
keeps its value is PRESUMED (G14, log 29). -/
def Obligations.BlockWriteFrame : Prop :=
  ∀ (e : Cond) (d : RegAddr) (data : Data) (src : Src) (s t : State) (i : Instr), s.cog.qpfx ≠ .none →
    i = .wrlong e data src ∨ i = .wmlong e d src → exec i s = .next t →
    s.FrameOf t ∧
    (∀ a s1, effAddrBlock src (s.cog.q.toNat + 1) s = .ok (a, s1) →
      ∀ b, b < a.toNat ∨ a.toNat + 4 * (s.cog.q.toNat + 1) ≤ b → t.hub.readByte b = s.hub.readByte b) ∧
    t.cog.regs = s.cog.regs ∧ t.cog.lut = s.cog.lut ∧ t.cog.c = s.cog.c ∧ t.cog.z = s.cog.z ∧
    (∀ p, updatedPtr src ≠ some p → t.cog.ptr p = s.cog.ptr p) ∧ t.cog.q = s.cog.q

/-- What SETQ and SETQ2 change when they complete (R110, R111): Q, QPFX and pc. -/
def Obligations.PrefixFrame : Prop :=
  ∀ (e : Cond) (arg : QArg) (s t : State) (i : Instr), i = .setq e arg ∨ i = .setq2 e arg → exec i s = .next t →
    s.FrameOf t ∧ (∀ b, t.hub.readByte b = s.hub.readByte b) ∧ t.cog.regs = s.cog.regs ∧ t.cog.lut = s.cog.lut ∧
    t.cog.c = s.cog.c ∧ t.cog.z = s.cog.z ∧ ∀ p, t.cog.ptr p = s.cog.ptr p

/-! ### Rules over all instructions -/

/-- Every instruction that completes goes on to the next word and leaves no prefix pending but the one it sets itself
(10_state.md R17, 43_block_transfers.md R112, 45_control_system_arithmetic.md R135; the program position is D12). -/
def Obligations.EveryInstructionAdvances : Prop :=
  ∀ (i : Instr) (s t : State), exec i s = .next t →
    t.cog.pc = s.cog.pc + 1 ∧
    (t.cog.qpfx = .none ∨ (∃ e arg, i = .setq e arg ∧ t.cog.qpfx = .setq) ∨
      ∃ e arg, i = .setq2 e arg ∧ t.cog.qpfx = .setq2)

/-- The flags are written by the reads only, and only under their effects (10_state.md R15). -/
def Obligations.FlagsWrittenByReadsOnly : Prop :=
  ∀ (i : Instr) (s t : State), exec i s = .next t →
    (t.cog.c ≠ s.cog.c → (∃ e wz d src, i = .rdbyte e true wz d src ∨ i = .rdword e true wz d src ∨
      i = .rdlong e true wz d src) ∨ ∃ e wz d, i = .popa e true wz d ∨ i = .popb e true wz d) ∧
    (t.cog.z ≠ s.cog.z → (∃ e wc d src, i = .rdbyte e wc true d src ∨ i = .rdword e wc true d src ∨
      i = .rdlong e wc true d src) ∨ ∃ e wc d, i = .popa e wc true d ∨ i = .popb e wc true d)

/-- The condition field (30_encoding.md R56): `1111` always executes; under any other value the word does what it does
under `1111`, or only advances pc and clears QPFX, as the open parameter says (D10, log 6). -/
def Obligations.ConditionField : Prop :=
  (∀ c z : Bool, condHolds always c z = true) ∧
  ∀ (i : Instr) (s : State), exec i s =
    if condHolds i.cond s.cog.c s.cog.z then exec (i.withCond always) s
    else .next (s.setCog { s.cog with qpfx := .none, pc := s.cog.pc + 1 })

/-- An instruction reads nothing of the other cogs (10_state.md R12, 60_exceptions.md R148): two states with the same Hub
RAM and the same acting cog give outcomes that agree in Hub RAM, in the acting cog and in the refusal. -/
def Obligations.NoCogReadsAnother : Prop :=
  ∀ (i : Instr) (s s' : State), s.hub = s'.hub → s.cog = s'.cog →
    match exec i s, exec i s' with
    | .next t, .next t' => t.hub = t'.hub ∧ t.cog = t'.cog
    | .refused r, .refused r' => r = r'
    | _, _ => False

/-! ### Refusals -/

/-- An access any byte of which lies in $80000 to $FFFFF is refused (20_memory.md R38, R31; the refusal is D3, D4). -/
def Obligations.UnpopulatedIsRefused : Prop :=
  ∀ (wc wz : Bool) (d : RegAddr) (data : Data) (src : Src) (s s1 : State) (a : HubAddr) (v : Word) (w : Width) (i : Nat),
    s.cog.qpfx = .none → namesPointer d = false → readData data s = .ok v → effAddr src w.scale s = .ok (a, s1) →
    i < w.scale → Config.hubSize ≤ (a.toNat + i) % 2 ^ 20 →
    (w = .byte → exec (.rdbyte always wc wz d src) s = .refused .unpopulatedHub ∧
      exec (.wrbyte always data src) s = .refused .unpopulatedHub) ∧
    (w = .word → exec (.rdword always wc wz d src) s = .refused .unpopulatedHub ∧
      exec (.wrword always data src) s = .refused .unpopulatedHub) ∧
    (w = .long → exec (.rdlong always wc wz d src) s = .refused .unpopulatedHub ∧
      exec (.wrlong always data src) s = .refused .unpopulatedHub ∧
      exec (.wmlong always d src) s = .refused .unpopulatedHub)

/-- A prefix before RDWORD, RDBYTE, WRWORD, WRBYTE, SETQ or SETQ2 is refused (R112, R165; the refusal is D14). -/
def Obligations.PrefixBeforeOthersIsRefused : Prop :=
  ∀ (wc wz : Bool) (d : RegAddr) (data : Data) (src : Src) (arg : QArg) (s : State), s.cog.qpfx ≠ .none →
    exec (.rdword always wc wz d src) s = .refused .prefixPending ∧
    exec (.rdbyte always wc wz d src) s = .refused .prefixPending ∧
    exec (.wrword always data src) s = .refused .prefixPending ∧
    exec (.wrbyte always data src) s = .refused .prefixPending ∧
    exec (.setq always arg) s = .refused .prefixPending ∧
    exec (.setq2 always arg) s = .refused .prefixPending

/-- A block transfer after SETQ or SETQ2 is refused when it counts more than BLOCK_MAX longs (R113), when its cog-side
range passes the limit (R114, D15), when it is a fill after SETQ2 (R118, D19), when its pointer form is "Not Valid"
(R122, D18), when its hub address is no multiple of 4 (R115, D17), and when one of its longs is not populated (R115,
R38). A fill reads no cog-side range, so its D field bounds nothing. The limits are log 9, log 10 and log 12; which of
several reasons is named is the model's choice (DESIGN CHOICE, log 17). -/
def Obligations.BlockRefusals : Prop :=
  ∀ (wc wz : Bool) (d : RegAddr) (fill : Data) (src : Src) (s s1 : State) (a : HubAddr) (n limit : Nat),
    n = s.cog.q.toNat + 1 → (∀ r, fill ≠ .reg r) →
    (s.cog.qpfx = .setq ∧ limit = Config.regBlockLimit) ∨ (s.cog.qpfx = .setq2 ∧ limit = Config.lutSize) →
    (Config.blockMax < n →
      exec (.rdlong always wc wz d src) s = .refused .blockCount ∧
      exec (.wrlong always (.reg d) src) s = .refused .blockCount ∧
      exec (.wrlong always fill src) s = .refused .blockCount ∧
      exec (.wmlong always d src) s = .refused .blockCount) ∧
    (n ≤ Config.blockMax → limit < d.toNat + n →
      exec (.rdlong always wc wz d src) s = .refused .blockRange ∧
      exec (.wrlong always (.reg d) src) s = .refused .blockRange ∧
      exec (.wmlong always d src) s = .refused .blockRange) ∧
    (n ≤ Config.blockMax → s.cog.qpfx = .setq2 → exec (.wrlong always fill src) s = .refused .fillUnderSetq2) ∧
    ∀ why : Refusal, n ≤ Config.blockMax →
      (∃ p i, src = .ptr p (.index i) ∧ i ≠ 0 ∧ why = .blockPointerForm) ∨
      (∃ p i, (src = .ptr p (.post i) ∨ src = .ptr p (.pre i)) ∧ i ≠ 1 ∧ i ≠ -1 ∧ why = .blockPointerForm) ∨
      (effAddrBlock src n s = .ok (a, s1) ∧ a.toNat % 4 ≠ 0 ∧ why = .blockUnaligned) ∨
      (effAddrBlock src n s = .ok (a, s1) ∧ a.toNat % 4 = 0 ∧ Config.hubSize < a.toNat + 4 * n ∧
        why = .unpopulatedHub) →
      (d.toNat + n ≤ limit →
        exec (.rdlong always wc wz d src) s = .refused why ∧
        exec (.wrlong always (.reg d) src) s = .refused why ∧
        exec (.wmlong always d src) s = .refused why) ∧
      (s.cog.qpfx = .setq → exec (.wrlong always fill src) s = .refused why)

/-- Operands the spec gives no meaning (10_state.md R14, 40_pointer_expressions.md R80; D28, D9, log 11, log 15): a D
register field that names PTRA's or PTRB's address, in every instruction that has one; an S register field that does, in
a single access and in a block transfer; an updating pointer form with a zero index field. After SETQ such a D field is
out of range (log 10), and after SETQ2 it is a Lookup RAM index (log 9): see `BlockRefusals`. -/
def Obligations.OperandRefusals : Prop :=
  ∀ (wc wz : Bool) (r d : RegAddr) (src : Src) (data : Data) (v : Word) (s : State), namesPointer r = true →
    (s.cog.qpfx = .none →
      (∀ a s1, effAddr src 1 s = .ok (a, s1) → exec (.rdbyte always wc wz r src) s = .refused .pointerRegister) ∧
      (∀ a s1, effAddr src 2 s = .ok (a, s1) → exec (.rdword always wc wz r src) s = .refused .pointerRegister) ∧
      (∀ a s1, effAddr src 4 s = .ok (a, s1) → exec (.rdlong always wc wz r src) s = .refused .pointerRegister) ∧
      exec (.wrbyte always (.reg r) src) s = .refused .pointerRegister ∧
      exec (.wrword always (.reg r) src) s = .refused .pointerRegister ∧
      exec (.wrlong always (.reg r) src) s = .refused .pointerRegister ∧
      exec (.wmlong always r src) s = .refused .pointerRegister ∧
      exec (.setq always (.reg r)) s = .refused .pointerRegister ∧
      exec (.setq2 always (.reg r)) s = .refused .pointerRegister) ∧
    (∀ why : Refusal, (src = .reg r ∧ why = .pointerRegister) ∨
        (∃ p, (src = .ptr p (.post 0) ∨ src = .ptr p (.pre 0)) ∧ why = .indexFieldZero) →
      (∀ w : Width, effAddr src w.scale s = .error why) ∧
      (s.cog.qpfx = .none → namesPointer d = false → readData data s = .ok v →
        exec (.rdbyte always wc wz d src) s = .refused why ∧
        exec (.rdword always wc wz d src) s = .refused why ∧
        exec (.rdlong always wc wz d src) s = .refused why ∧
        exec (.wrbyte always data src) s = .refused why ∧
        exec (.wrword always data src) s = .refused why ∧
        exec (.wrlong always data src) s = .refused why ∧
        exec (.wmlong always d src) s = .refused why)) ∧
    (∀ n, effAddrBlock (.reg r) n s = .error .pointerRegister) ∧
    ∀ (n limit : Nat) (fill : Data), n = s.cog.q.toNat + 1 → n ≤ Config.blockMax → (∀ x, fill ≠ .reg x) →
      (s.cog.qpfx = .setq ∧ limit = Config.regBlockLimit) ∨ (s.cog.qpfx = .setq2 ∧ limit = Config.lutSize) →
      (d.toNat + n ≤ limit →
        exec (.rdlong always wc wz d (.reg r)) s = .refused .pointerRegister ∧
        exec (.wrlong always (.reg d) (.reg r)) s = .refused .pointerRegister ∧
        exec (.wmlong always d (.reg r)) s = .refused .pointerRegister) ∧
      (s.cog.qpfx = .setq → exec (.wrlong always fill (.reg r)) s = .refused .pointerRegister)

/-! ### A step -/

/-- With no turn ahead and nothing in progress, a step is exec of the instruction that the word at pc decodes to, at that
very state; a turn `whole k` makes k the acting cog first and then does the same (10_state.md R17, 60_exceptions.md R148;
the cog's list as a field of State is log 3, `cur` and `turns` are the model's own, DESIGN CHOICE, log 4). -/
def Obligations.StepRunsDecodedInstruction : Prop :=
  ∀ (s s' : State) (w : Word) (i : Instr), fetch s' = some w → decode w = .ok i → s'.cog.inFlight = none →
    ((s.turns = [] ∧ s' = s) ∨ ∃ k ts, s.turns = .whole k :: ts ∧ s' = { s with cur := k, turns := ts }) →
    step s = exec i s'

/-- Placing a well-formed instruction's word where the next step fetches makes the next step run it, whatever the
state. That `withFetchWord` stands for loading a program, and drops work in progress and the turns ahead, is the model's
choice (DESIGN CHOICE, log 3). -/
def Obligations.PlacedWordRuns : Prop :=
  ∀ (s : State) (i : Instr), i.wellFormed = true →
    step (s.withFetchWord 32 (encode i).toNat) = exec i (s.withFetchWord 32 (encode i).toNat)

/-- When a step stops before any instruction runs, with no turn ahead or at a turn, of either kind, of a cog that has
nothing in progress: at the end of the cog's list (60_exceptions.md R152, D25; the refusal is log 26), and at a word that
decodes to none (30_encoding.md R59, D31; R60, D9; for a zero index field whatever the word's condition, log 15). The
turns are the model's own (log 4). -/
def Obligations.StepRefusals : Prop :=
  ∀ s s' : State, s'.cog.inFlight = none →
    (s.turns = [] ∧ s' = s) ∨ (∃ k ts, (s.turns = .whole k :: ts ∨ ∃ hiFirst, s.turns = .event k hiFirst :: ts) ∧
      s' = { s with cur := k, turns := ts }) →
    (s'.cog.prog.length ≤ s'.cog.pc → step s = .refused .programEnded) ∧
    (∀ w, fetch s' = some w → decode w = .error .unknownWord → step s = .refused .unknownWord) ∧
    ∀ w, fetch s' = some w → decode w = .error .indexFieldZero → step s = .refused .indexFieldZero

/-- A finished run stays finished: R152 defines when the run has ended (the spec's decision D25), and that a step is then
refused, whichever cog is given a turn, is the model's choice (DESIGN CHOICE, log 26). -/
def Obligations.EndedRunStops : Prop :=
  ∀ s : State, s.ended → step s = .refused .programEnded

/-- No step changes any cog's list of instruction words: "no store of this spec can change an instruction"
(20_memory.md R43, R20, D27). -/
def Obligations.ProgramTextConstant : Prop :=
  ∀ (s t : State) (k : Fin 8), step s = .next t → (t.cogs.get k).prog = (s.cogs.get k).prog

/-- A step changes the private state of the cog it makes act and of no other (R148). -/
def Obligations.StepTouchesOneCog : Prop :=
  ∀ (s t : State) (k : Fin 8), step s = .next t → k ≠ t.cur → t.cogs.get k = s.cogs.get k

/-- From any sound state a step leads to a sound state: Hub RAM canonical and populated only (R38), work in progress
sound (R19). -/
def Obligations.StepKeepsInv : Prop :=
  ∀ s t : State, s.Inv → step s = .next t → t.Inv

/-- The state after reset is sound, and has what the spec fixes of it: QPFX none, pc 0, no block in progress (10_state.md
R22, which rests on D24 and D12). -/
def Obligations.ResetState : Prop :=
  State.reset.Inv ∧ ∀ k : Fin 8, (State.reset.cogs.get k).qpfx = .none ∧ (State.reset.cogs.get k).pc = 0 ∧
    (State.reset.cogs.get k).inFlight = none

/-- A program is a straight line (45_control_system_arithmetic.md R135, an inference of the spec): n completed steps of
one cog move its pc by n, which never passes the end of its list. -/
def Obligations.ProgramIsStraightLine : Prop :=
  ∀ (n : Nat) (s t : State), s.turns = [] → s.cog.inFlight = none → s.cog.pc ≤ s.cog.prog.length →
    Host.Core.run Sys2Proof.core n s = .next t →
    t.cog.pc = s.cog.pc + n ∧ t.cog.pc ≤ t.cog.prog.length ∧ t.cog.prog = s.cog.prog

/-! ### Atomic events and several cogs -/

/-- An access whose bytes lie in one aligned long is one indivisible event (20_memory.md R35, an inference of the spec):
the first event of such an instruction, with no prefix pending, is the whole of it. -/
def Obligations.UncrossedAccessIsOneEvent : Prop :=
  ∀ (hiFirst : Bool) (i : Instr) (s : State), s.cog.qpfx = .none → s.cog.inFlight = none →
    (∀ s1 w a d wc wz todo got, issue i s = some (.ok (s1, .load w a d wc wz todo got)) → crosses a w = false) →
    (∀ s1 a v masked todo, issue i s = some (.ok (s1, .store a v masked todo)) →
      ∀ j ∈ todo, inFirstLong a j = true) →
    begin_ hiFirst i s = exec i s

/-- The events of an instruction, performed one after another in either order of its parts with no other cog's event
between, do what the whole instruction does (R35, R40, R115; the orders are D6, D16). -/
def Obligations.EventsComposeToInstruction : Prop :=
  ∀ (hiFirst : Bool) (s t : State), s.Inv → runEvent hiFirst s = .next t →
    (t.cog.inFlight = none ∧ runWhole s = .next t) ∨ (t.cog.inFlight ≠ none ∧ runWhole t = runWhole s)

/-- A read returns what another cog's earlier write put there (20_memory.md R39, the spec's decision D5): after cog j
completes a WRLONG at an address, a RDLONG by cog k at that address gives the data. -/
def Obligations.ReadSeesOtherCogsWrite : Prop :=
  ∀ (data : Data) (src src' : Src) (wc wz : Bool) (d : RegAddr) (v : Word) (a : HubAddr) (k : Fin 8)
    (s s1 t u u1 : State),
    s.cog.qpfx = .none → readData data s = .ok v → effAddr src 4 s = .ok (a, s1) →
    exec (.wrlong always data src) s = .next t → u = { t with cur := k } → k ≠ s.cur →
    u.cog.qpfx = .none → namesPointer d = false → effAddr src' 4 u = .ok (a, u1) →
    ∃ r, exec (.rdlong always wc wz d src') u = .next r ∧ r.cog.reg d = v

/-- An access that crosses a long boundary can be torn (20_memory.md R35, 70_reset_and_hazards.md R167): a RDLONG of cog
k performs its low part, cog j then completes a WRLONG of v at the same address, and cog k performs its high part; x[D]
has the old low bytes and the new high bytes. -/
def Obligations.CrossingReadCanBeTorn : Prop :=
  ∀ (data : Data) (src src' : Src) (wc wz : Bool) (d : RegAddr) (v : Word) (a : HubAddr) (j : Fin 8)
    (s s1 t u u1 r q : State),
    s.cog.qpfx = .none → s.cog.inFlight = none → namesPointer d = false → effAddr src 4 s = .ok (a, s1) →
    populated a .long = true → a.toNat % 4 ≠ 0 → begin_ false (.rdlong always wc wz d src) s = .next t →
    u = { t with cur := j } → j ≠ s.cur → u.cog.qpfx = .none → readData data u = .ok v →
    effAddr src' 4 u = .ok (a, u1) → exec (.wrlong always data src') u = .next r →
    runEvent false { r with cur := s.cur } = .next q →
    ∀ i, i < 4 → (q.cog.reg d).extractLsb' (8 * i) 8 =
      if a.toNat % 4 + i < 4 then s.hub.readByte (a.toNat + i) else v.extractLsb' (8 * i) 8

/-! ### Slices and timing figures -/

/-- Slices (20_memory.md R36): eight consecutive longs lie in eight different slices, and a cog reaches the slice of any
address after at most 7 cycles, the wait that `waitCycles` says and no shorter one. -/
def Obligations.SlicesRotate : Prop :=
  (∀ (a : HubAddr) (i j : Nat), i < 8 → j < 8 →
    sliceOf (a + BitVec.ofNat 20 (4 * i)) = sliceOf (a + BitVec.ofNat 20 (4 * j)) → i = j) ∧
  ∀ (now : BitVec 3) (a : HubAddr), waitCycles now a ≤ 7 ∧ sliceAfter now (waitCycles now a) = sliceOf a ∧
    ∀ t, t < waitCycles now a → sliceAfter now t ≠ sliceOf a

/-- The cogexec ranges of the tables (70_reset_and_hazards.md R170) follow from base + wait + cross (R171, an inference
of the spec): every access stays inside its instruction's range and both ends are reached. -/
def Obligations.CycleRangesFollow : Prop :=
  ∀ (i : Instr) (lo hi : Nat), cogexecRange i = some (lo, hi) →
    (∀ (now : BitVec 3) (a : HubAddr), ∃ c, cogexecCycles i now a = some c ∧ lo ≤ c ∧ c ≤ hi) ∧
    (∃ now a, cogexecCycles i now a = some lo) ∧ ∃ now a, cogexecCycles i now a = some hi
end

