-- ==== Sys2Proof/Laws/Encoding.lean ====
section
/-! SUPPORT. Each field of a word made from its fields, a word made from its own fields, and the operands' own round
trips (30_encoding.md R50 to R55, R62). -/

namespace Sys2Proof

variable (e : Cond) (op7 : BitVec 7) (b20 b19 b18 : Bool) (d s : BitVec 9)

/-- Which field bit `i` of a word comes from. -/
theorem getLsbD_mkWord (i : Nat) : (mkWord e op7 b20 b19 b18 d s).getLsbD i =
    if i < 9 then s.getLsbD i else if i < 18 then d.getLsbD (i - 9) else if i = 18 then b18
    else if i = 19 then b19 else if i = 20 then b20 else if i < 28 then op7.getLsbD (i - 21)
    else e.getLsbD (i - 28) := by
  unfold mkWord
  simp only [BitVec.getLsbD_append, BitVec.getLsbD_ofBool]
  split <;> rename_i h1
  · simp [h1]
  split <;> rename_i h2
  · simp [show i < 18 by omega]
  split <;> rename_i h3
  · simp [show i = 18 by omega]
  split <;> rename_i h4
  · simp [show i = 19 by omega]
  split <;> rename_i h5
  · simp [show i = 20 by omega]
  split <;> rename_i h6
  · simp [show ¬ i < 18 by omega, show i ≠ 18 by omega, show i ≠ 19 by omega, show i ≠ 20 by omega,
      show i < 28 by omega, show i - 9 - 9 - 1 - 1 - 1 = i - 21 by omega]
  · simp [show ¬ i < 18 by omega, show i ≠ 18 by omega, show i ≠ 19 by omega, show i ≠ 20 by omega,
      show ¬ i < 28 by omega, show i - 9 - 9 - 1 - 1 - 1 - 7 = i - 28 by omega]

@[simp] theorem fCond_mkWord : fCond (mkWord e op7 b20 b19 b18 d s) = e := by
  apply BitVec.eq_of_getLsbD_eq
  intro i hi
  simp [fCond, getLsbD_mkWord, show ¬ 28 + i < 9 by omega, show ¬ 28 + i < 18 by omega, show ¬ 28 + i = 18 by omega,
    show ¬ 28 + i = 19 by omega, show ¬ 28 + i = 20 by omega, hi]

@[simp] theorem fOp7_mkWord : fOp7 (mkWord e op7 b20 b19 b18 d s) = op7 := by
  apply BitVec.eq_of_getLsbD_eq
  intro i hi
  simp [fOp7, getLsbD_mkWord, show ¬ 21 + i < 9 by omega, show ¬ 21 + i < 18 by omega, show ¬ 21 + i = 18 by omega,
    show ¬ 21 + i = 19 by omega, show ¬ 21 + i = 20 by omega, show 21 + i < 28 by omega, hi]

@[simp] theorem fB20_mkWord : fB20 (mkWord e op7 b20 b19 b18 d s) = b20 := by
  rw [fB20, getLsbD_mkWord]; simp

@[simp] theorem fB19_mkWord : fB19 (mkWord e op7 b20 b19 b18 d s) = b19 := by
  rw [fB19, getLsbD_mkWord]; simp

@[simp] theorem fB18_mkWord : fB18 (mkWord e op7 b20 b19 b18 d s) = b18 := by
  rw [fB18, getLsbD_mkWord]; simp

@[simp] theorem fD_mkWord : fD (mkWord e op7 b20 b19 b18 d s) = d := by
  apply BitVec.eq_of_getLsbD_eq
  intro i hi
  simp [fD, getLsbD_mkWord, show ¬ 9 + i < 9 by omega, show 9 + i < 18 by omega, hi]

@[simp] theorem fS_mkWord : fS (mkWord e op7 b20 b19 b18 d s) = s := by
  apply BitVec.eq_of_getLsbD_eq
  intro i hi
  simp [fS, getLsbD_mkWord, hi]

/-- A word is made of its own fields. -/
theorem mkWord_fields (w : Word) : mkWord (fCond w) (fOp7 w) (fB20 w) (fB19 w) (fB18 w) (fD w) (fS w) = w := by
  apply BitVec.eq_of_getLsbD_eq
  intro i hi
  rw [getLsbD_mkWord]
  unfold fCond fOp7 fB20 fB19 fB18 fD fS
  simp only [BitVec.getLsbD_extractLsb']
  split <;> rename_i h1
  · simp [h1]
  split <;> rename_i h2
  · simp [show i - 9 < 9 by omega, show 9 + (i - 9) = i by omega]
  split <;> rename_i h3
  · rw [h3]
  split <;> rename_i h4
  · rw [h4]
  split <;> rename_i h5
  · rw [h5]
  split <;> rename_i h6
  · simp [show i - 21 < 7 by omega, show 21 + (i - 21) = i by omega]
  · simp [show i - 28 < 4 by omega, show 28 + (i - 28) = i by omega]

/-- Masking a word masks its fields. -/
theorem mkWord_and (e' : Cond) (op7' : BitVec 7) (c20 c19 c18 : Bool) (d' s' : BitVec 9) :
    mkWord e op7 b20 b19 b18 d s &&& mkWord e' op7' c20 c19 c18 d' s' =
      mkWord (e &&& e') (op7 &&& op7') (b20 && c20) (b19 && c19) (b18 && c18) (d &&& d') (s &&& s') := by
  apply BitVec.eq_of_getLsbD_eq
  intro i hi
  simp only [BitVec.getLsbD_and, getLsbD_mkWord]
  split
  · rfl
  split
  · rfl
  split
  · rfl
  split
  · rfl
  split
  · rfl
  split <;> rfl

/-- Words are equal when their fields are. -/
theorem mkWord_inj (e' : Cond) (op7' : BitVec 7) (c20 c19 c18 : Bool) (d' s' : BitVec 9) :
    mkWord e op7 b20 b19 b18 d s = mkWord e' op7' c20 c19 c18 d' s' ↔
      e = e' ∧ op7 = op7' ∧ b20 = c20 ∧ b19 = c19 ∧ b18 = c18 ∧ d = d' ∧ s = s' := by
  constructor
  · intro h
    exact ⟨by simpa using congrArg fCond h, by simpa using congrArg fOp7 h, by simpa using congrArg fB20 h,
      by simpa using congrArg fB19 h, by simpa using congrArg fB18 h, by simpa using congrArg fD h,
      by simpa using congrArg fS h⟩
  · rintro ⟨rfl, rfl, rfl, rfl, rfl, rfl, rfl⟩; rfl

/-- An S operand with a word is read back. -/
theorem decodeSrc_encodeSrc (src : Src) (h : src.wellFormed = true) :
    decodeSrc (encodeSrc src).1 (encodeSrc src).2 = .ok src := by
  match src, h with
  | .reg r, _ => rfl
  | .imm v, _ =>
    have : ∀ v : BitVec 8, decodeSrc true (0b0#1 ++ v) = .ok (.imm v) := by decide +kernel
    exact this v
  | .ptr p (.index i), _ =>
    have : ∀ i : BitVec 6, decodeSrc true (0b1#1 ++ BitVec.ofBool (encodePtr p) ++ 0b0#1 ++ i)
        = .ok (.ptr p (.index i)) := by cases p <;> decide +kernel
    exact this i
  | .ptr p (.post i), h =>
    have : ∀ i : BitVec 5, i ≠ 0 → decodeSrc true (0b1#1 ++ BitVec.ofBool (encodePtr p) ++ 0b11#2 ++ i)
        = .ok (.ptr p (.post i)) := by cases p <;> decide +kernel
    exact this i (by simpa [Src.wellFormed, PtrForm.wellFormed] using h)
  | .ptr p (.pre i), h =>
    have : ∀ i : BitVec 5, i ≠ 0 → decodeSrc true (0b1#1 ++ BitVec.ofBool (encodePtr p) ++ 0b10#2 ++ i)
        = .ok (.ptr p (.pre i)) := by cases p <;> decide +kernel
    exact this i (by simpa [Src.wellFormed, PtrForm.wellFormed] using h)

/-- What the S field of a word says is written back to it. -/
theorem encodeSrc_decodeSrc (i : Bool) (s : BitVec 9) (src : Src) (h : decodeSrc i s = .ok src) :
    encodeSrc src = (i, s) ∧ src.wellFormed = true := by
  have all : ∀ (i : Bool) (s : BitVec 9), (match decodeSrc i s with
      | .ok src => encodeSrc src == (i, s) && src.wellFormed
      | .error _ => true) = true := by decide +kernel
  have := all i s
  rw [h] at this
  simpa using this

theorem decodeData_encodeData (data : Data) (h : data.wellFormed = true) :
    decodeData (encodeData data).1 (encodeData data).2 = data := by
  cases data <;> first | rfl | cases h

@[simp] theorem encodeData_decodeData (l : Bool) (d : BitVec 9) :
    encodeData (decodeData l d) = (l, d) ∧ (decodeData l d).wellFormed = true := by cases l <;> exact ⟨rfl, rfl⟩

@[simp] theorem decodeQArg_encodeQArg (arg : QArg) : decodeQArg (encodeQArg arg).1 (encodeQArg arg).2 = arg := by
  cases arg <;> rfl

@[simp] theorem encodeQArg_decodeQArg (l : Bool) (d : BitVec 9) : encodeQArg (decodeQArg l d) = (l, d) := by
  cases l <;> rfl

end Sys2Proof
end

