-- ==== Sys2Proof/Laws/State.lean ====
section
/-! SUPPORT. One lemma for each field and each update of the state, and the read-after-write laws of registers, Lookup
RAM and pointers. -/

namespace Sys2Proof.Machine

/-! ### The chip -/

@[simp] theorem State.cog_setCog (s : State) (c : Cog) : (s.setCog c).cog = c := by
  simp [State.cog, State.setCog, Vector.get_eq_getElem]

@[simp] theorem State.hub_setCog (s : State) (c : Cog) : (s.setCog c).hub = s.hub := rfl
@[simp] theorem State.cur_setCog (s : State) (c : Cog) : (s.setCog c).cur = s.cur := rfl
@[simp] theorem State.turns_setCog (s : State) (c : Cog) : (s.setCog c).turns = s.turns := rfl

@[simp] theorem State.cogs_setCog_cur (s : State) (c : Cog) : (s.setCog c).cogs.get s.cur = c := by
  simp [State.setCog, Vector.get_eq_getElem]

theorem State.cogs_setCog_other (s : State) (c : Cog) (k : Fin 8) (h : k ≠ s.cur) :
    (s.setCog c).cogs.get k = s.cogs.get k := by
  have : s.cur.val ≠ k.val := fun e => h (Fin.ext e.symm)
  simp [State.setCog, Vector.get_eq_getElem, this]

@[simp] theorem State.setCog_setCog (s : State) (c d : Cog) : (s.setCog c).setCog d = s.setCog d := by
  simp [State.setCog]

@[simp] theorem State.setCog_self (s : State) : s.setCog s.cog = s := by
  simp [State.setCog, State.cog, Vector.get_eq_getElem]

@[simp] theorem State.cog_setHub (s : State) (m : Memory) : (s.setHub m).cog = s.cog := rfl
@[simp] theorem State.hub_setHub (s : State) (m : Memory) : (s.setHub m).hub = m := rfl
@[simp] theorem State.cogs_setHub (s : State) (m : Memory) : (s.setHub m).cogs = s.cogs := rfl
@[simp] theorem State.cur_setHub (s : State) (m : Memory) : (s.setHub m).cur = s.cur := rfl
@[simp] theorem State.turns_setHub (s : State) (m : Memory) : (s.setHub m).turns = s.turns := rfl
@[simp] theorem State.setHub_setHub (s : State) (m n : Memory) : (s.setHub m).setHub n = s.setHub n := rfl
@[simp] theorem State.setHub_setCog (s : State) (m : Memory) (c : Cog) :
    (s.setCog c).setHub m = (s.setHub m).setCog c := rfl

@[simp] theorem State.cog_retire (s : State) : s.retire.cog = s.cog.retire := by simp [State.retire]
@[simp] theorem State.hub_retire (s : State) : s.retire.hub = s.hub := rfl
@[simp] theorem State.cur_retire (s : State) : s.retire.cur = s.cur := rfl
@[simp] theorem State.turns_retire (s : State) : s.retire.turns = s.turns := rfl
@[simp] theorem Cog.qpfx_retire (x : Cog) : x.retire.qpfx = .none := rfl
@[simp] theorem Cog.pc_retire (x : Cog) : x.retire.pc = x.pc + 1 := rfl

@[simp] theorem State.cog_park (s : State) (t : Option Transfer) : (s.park t).cog = { s.cog with inFlight := t } := by
  simp [State.park]
@[simp] theorem State.hub_park (s : State) (t : Option Transfer) : (s.park t).hub = s.hub := rfl
@[simp] theorem State.cur_park (s : State) (t : Option Transfer) : (s.park t).cur = s.cur := rfl
@[simp] theorem State.turns_park (s : State) (t : Option Transfer) : (s.park t).turns = s.turns := rfl

/-! ### One cog -/

@[simp] theorem Cog.lut_setReg (x : Cog) (r : RegAddr) (v : Word) : (x.setReg r v).lut = x.lut := rfl
@[simp] theorem Cog.ptra_setReg (x : Cog) (r : RegAddr) (v : Word) : (x.setReg r v).ptra = x.ptra := rfl
@[simp] theorem Cog.ptrb_setReg (x : Cog) (r : RegAddr) (v : Word) : (x.setReg r v).ptrb = x.ptrb := rfl
@[simp] theorem Cog.c_setReg (x : Cog) (r : RegAddr) (v : Word) : (x.setReg r v).c = x.c := rfl
@[simp] theorem Cog.z_setReg (x : Cog) (r : RegAddr) (v : Word) : (x.setReg r v).z = x.z := rfl
@[simp] theorem Cog.q_setReg (x : Cog) (r : RegAddr) (v : Word) : (x.setReg r v).q = x.q := rfl
@[simp] theorem Cog.qpfx_setReg (x : Cog) (r : RegAddr) (v : Word) : (x.setReg r v).qpfx = x.qpfx := rfl
@[simp] theorem Cog.pc_setReg (x : Cog) (r : RegAddr) (v : Word) : (x.setReg r v).pc = x.pc := rfl
@[simp] theorem Cog.prog_setReg (x : Cog) (r : RegAddr) (v : Word) : (x.setReg r v).prog = x.prog := rfl
@[simp] theorem Cog.inFlight_setReg (x : Cog) (r : RegAddr) (v : Word) : (x.setReg r v).inFlight = x.inFlight := rfl
@[simp] theorem Cog.regs_setLut (x : Cog) (r : RegAddr) (v : Word) : (x.setLut r v).regs = x.regs := rfl
@[simp] theorem Cog.ptra_setLut (x : Cog) (r : RegAddr) (v : Word) : (x.setLut r v).ptra = x.ptra := rfl
@[simp] theorem Cog.ptrb_setLut (x : Cog) (r : RegAddr) (v : Word) : (x.setLut r v).ptrb = x.ptrb := rfl
@[simp] theorem Cog.c_setLut (x : Cog) (r : RegAddr) (v : Word) : (x.setLut r v).c = x.c := rfl
@[simp] theorem Cog.z_setLut (x : Cog) (r : RegAddr) (v : Word) : (x.setLut r v).z = x.z := rfl
@[simp] theorem Cog.q_setLut (x : Cog) (r : RegAddr) (v : Word) : (x.setLut r v).q = x.q := rfl
@[simp] theorem Cog.qpfx_setLut (x : Cog) (r : RegAddr) (v : Word) : (x.setLut r v).qpfx = x.qpfx := rfl
@[simp] theorem Cog.pc_setLut (x : Cog) (r : RegAddr) (v : Word) : (x.setLut r v).pc = x.pc := rfl
@[simp] theorem Cog.prog_setLut (x : Cog) (r : RegAddr) (v : Word) : (x.setLut r v).prog = x.prog := rfl
@[simp] theorem Cog.inFlight_setLut (x : Cog) (r : RegAddr) (v : Word) : (x.setLut r v).inFlight = x.inFlight := rfl
@[simp] theorem Cog.regs_setFlags (x : Cog) (w : Width) (wc wz : Bool) (v : Word) : (x.setFlags w wc wz v).regs = x.regs := rfl
@[simp] theorem Cog.lut_setFlags (x : Cog) (w : Width) (wc wz : Bool) (v : Word) : (x.setFlags w wc wz v).lut = x.lut := rfl
@[simp] theorem Cog.ptra_setFlags (x : Cog) (w : Width) (wc wz : Bool) (v : Word) : (x.setFlags w wc wz v).ptra = x.ptra := rfl
@[simp] theorem Cog.ptrb_setFlags (x : Cog) (w : Width) (wc wz : Bool) (v : Word) : (x.setFlags w wc wz v).ptrb = x.ptrb := rfl
@[simp] theorem Cog.q_setFlags (x : Cog) (w : Width) (wc wz : Bool) (v : Word) : (x.setFlags w wc wz v).q = x.q := rfl
@[simp] theorem Cog.qpfx_setFlags (x : Cog) (w : Width) (wc wz : Bool) (v : Word) : (x.setFlags w wc wz v).qpfx = x.qpfx := rfl
@[simp] theorem Cog.pc_setFlags (x : Cog) (w : Width) (wc wz : Bool) (v : Word) : (x.setFlags w wc wz v).pc = x.pc := rfl
@[simp] theorem Cog.prog_setFlags (x : Cog) (w : Width) (wc wz : Bool) (v : Word) : (x.setFlags w wc wz v).prog = x.prog := rfl
@[simp] theorem Cog.inFlight_setFlags (x : Cog) (w : Width) (wc wz : Bool) (v : Word) : (x.setFlags w wc wz v).inFlight = x.inFlight := rfl
@[simp] theorem Cog.regs_retire (x : Cog)  : (x.retire).regs = x.regs := rfl
@[simp] theorem Cog.lut_retire (x : Cog)  : (x.retire).lut = x.lut := rfl
@[simp] theorem Cog.ptra_retire (x : Cog)  : (x.retire).ptra = x.ptra := rfl
@[simp] theorem Cog.ptrb_retire (x : Cog)  : (x.retire).ptrb = x.ptrb := rfl
@[simp] theorem Cog.c_retire (x : Cog)  : (x.retire).c = x.c := rfl
@[simp] theorem Cog.z_retire (x : Cog)  : (x.retire).z = x.z := rfl
@[simp] theorem Cog.q_retire (x : Cog)  : (x.retire).q = x.q := rfl
@[simp] theorem Cog.prog_retire (x : Cog)  : (x.retire).prog = x.prog := rfl
@[simp] theorem Cog.inFlight_retire (x : Cog)  : (x.retire).inFlight = x.inFlight := rfl
@[simp] theorem Cog.regs_setPtr (x : Cog) (p : Ptr) (v : Word) : (x.setPtr p v).regs = x.regs := by cases p <;> rfl
@[simp] theorem Cog.lut_setPtr (x : Cog) (p : Ptr) (v : Word) : (x.setPtr p v).lut = x.lut := by cases p <;> rfl
@[simp] theorem Cog.c_setPtr (x : Cog) (p : Ptr) (v : Word) : (x.setPtr p v).c = x.c := by cases p <;> rfl
@[simp] theorem Cog.z_setPtr (x : Cog) (p : Ptr) (v : Word) : (x.setPtr p v).z = x.z := by cases p <;> rfl
@[simp] theorem Cog.q_setPtr (x : Cog) (p : Ptr) (v : Word) : (x.setPtr p v).q = x.q := by cases p <;> rfl
@[simp] theorem Cog.qpfx_setPtr (x : Cog) (p : Ptr) (v : Word) : (x.setPtr p v).qpfx = x.qpfx := by cases p <;> rfl
@[simp] theorem Cog.pc_setPtr (x : Cog) (p : Ptr) (v : Word) : (x.setPtr p v).pc = x.pc := by cases p <;> rfl
@[simp] theorem Cog.prog_setPtr (x : Cog) (p : Ptr) (v : Word) : (x.setPtr p v).prog = x.prog := by cases p <;> rfl
@[simp] theorem Cog.inFlight_setPtr (x : Cog) (p : Ptr) (v : Word) : (x.setPtr p v).inFlight = x.inFlight := by cases p <;> rfl
@[simp] theorem Cog.ptra_setSide (x : Cog) (m : Side) (k : RegAddr) (v : Word) : (x.setSide m k v).ptra = x.ptra := by cases m <;> rfl
@[simp] theorem Cog.ptrb_setSide (x : Cog) (m : Side) (k : RegAddr) (v : Word) : (x.setSide m k v).ptrb = x.ptrb := by cases m <;> rfl
@[simp] theorem Cog.c_setSide (x : Cog) (m : Side) (k : RegAddr) (v : Word) : (x.setSide m k v).c = x.c := by cases m <;> rfl
@[simp] theorem Cog.z_setSide (x : Cog) (m : Side) (k : RegAddr) (v : Word) : (x.setSide m k v).z = x.z := by cases m <;> rfl
@[simp] theorem Cog.q_setSide (x : Cog) (m : Side) (k : RegAddr) (v : Word) : (x.setSide m k v).q = x.q := by cases m <;> rfl
@[simp] theorem Cog.qpfx_setSide (x : Cog) (m : Side) (k : RegAddr) (v : Word) : (x.setSide m k v).qpfx = x.qpfx := by cases m <;> rfl
@[simp] theorem Cog.pc_setSide (x : Cog) (m : Side) (k : RegAddr) (v : Word) : (x.setSide m k v).pc = x.pc := by cases m <;> rfl
@[simp] theorem Cog.prog_setSide (x : Cog) (m : Side) (k : RegAddr) (v : Word) : (x.setSide m k v).prog = x.prog := by cases m <;> rfl
@[simp] theorem Cog.inFlight_setSide (x : Cog) (m : Side) (k : RegAddr) (v : Word) : (x.setSide m k v).inFlight = x.inFlight := by cases m <;> rfl

@[simp] theorem Cog.reg_setReg_same (x : Cog) (r : RegAddr) (v : Word) : (x.setReg r v).reg r = v := by
  simp [Cog.reg, Cog.setReg, Vector.get_eq_getElem]

theorem Cog.reg_setReg_other (x : Cog) (r q : RegAddr) (v : Word) (h : q ≠ r) : (x.setReg r v).reg q = x.reg q := by
  have : r.toNat ≠ q.toNat := fun e => h (BitVec.eq_of_toNat_eq e.symm)
  simp [Cog.reg, Cog.setReg, Vector.get_eq_getElem, this]

@[simp] theorem Cog.lutAt_setLut_same (x : Cog) (r : RegAddr) (v : Word) : (x.setLut r v).lutAt r = v := by
  simp [Cog.lutAt, Cog.setLut, Vector.get_eq_getElem]

theorem Cog.lutAt_setLut_other (x : Cog) (r q : RegAddr) (v : Word) (h : q ≠ r) :
    (x.setLut r v).lutAt q = x.lutAt q := by
  have : r.toNat ≠ q.toNat := fun e => h (BitVec.eq_of_toNat_eq e.symm)
  simp [Cog.lutAt, Cog.setLut, Vector.get_eq_getElem, this]

@[simp] theorem Cog.lutAt_setReg (x : Cog) (r q : RegAddr) (v : Word) : (x.setReg r v).lutAt q = x.lutAt q := rfl
@[simp] theorem Cog.reg_setLut (x : Cog) (r q : RegAddr) (v : Word) : (x.setLut r v).reg q = x.reg q := rfl
@[simp] theorem Cog.reg_setFlags (x : Cog) (w : Width) (wc wz : Bool) (v : Word) (q : RegAddr) :
    (x.setFlags w wc wz v).reg q = x.reg q := rfl
@[simp] theorem Cog.lutAt_setFlags (x : Cog) (w : Width) (wc wz : Bool) (v : Word) (q : RegAddr) :
    (x.setFlags w wc wz v).lutAt q = x.lutAt q := rfl
@[simp] theorem Cog.reg_retire (x : Cog) (q : RegAddr) : x.retire.reg q = x.reg q := rfl
@[simp] theorem Cog.lutAt_retire (x : Cog) (q : RegAddr) : x.retire.lutAt q = x.lutAt q := rfl
@[simp] theorem Cog.reg_setPtr (x : Cog) (p : Ptr) (v : Word) (q : RegAddr) : (x.setPtr p v).reg q = x.reg q := by
  cases p <;> rfl
@[simp] theorem Cog.lutAt_setPtr (x : Cog) (p : Ptr) (v : Word) (q : RegAddr) :
    (x.setPtr p v).lutAt q = x.lutAt q := by cases p <;> rfl

@[simp] theorem Cog.ptr_setPtr_same (x : Cog) (p : Ptr) (v : Word) : (x.setPtr p v).ptr p = v := by cases p <;> rfl
theorem Cog.ptr_setPtr_other (x : Cog) (p q : Ptr) (v : Word) (h : q ≠ p) : (x.setPtr p v).ptr q = x.ptr q := by
  cases p <;> cases q <;> first | rfl | exact absurd rfl h
@[simp] theorem Cog.ptr_setReg (x : Cog) (r : RegAddr) (v : Word) (q : Ptr) : (x.setReg r v).ptr q = x.ptr q := by
  cases q <;> rfl
@[simp] theorem Cog.ptr_setSide (x : Cog) (m : Side) (k : RegAddr) (v : Word) (q : Ptr) :
    (x.setSide m k v).ptr q = x.ptr q := by cases m <;> cases q <;> rfl
@[simp] theorem Cog.ptr_setFlags (x : Cog) (w : Width) (wc wz : Bool) (v : Word) (q : Ptr) :
    (x.setFlags w wc wz v).ptr q = x.ptr q := by cases q <;> rfl
@[simp] theorem Cog.ptr_retire (x : Cog) (q : Ptr) : x.retire.ptr q = x.ptr q := by cases q <;> rfl

@[simp] theorem Cog.c_setFlags (x : Cog) (w : Width) (wc wz : Bool) (v : Word) :
    (x.setFlags w wc wz v).c = if wc then topBit w v else x.c := rfl
@[simp] theorem Cog.z_setFlags (x : Cog) (w : Width) (wc wz : Bool) (v : Word) :
    (x.setFlags w wc wz v).z = if wz then v == 0 else x.z := rfl

end Sys2Proof.Machine
end

