-- ==== Sys2Proof/Laws/Memory.lean ====
section
/-! SUPPORT. The laws of Hub RAM: a read after a write, every other byte left alone, the canonical form kept. They hold
for every memory, in canonical form or not, but for the last group. -/

namespace Sys2Proof.Machine

/-! ### One byte -/

theorem Memory.readByte_eraseCell (m : Memory) (a b : Nat) :
    (m.eraseCell a).readByte b = if b = a then Memory.unwritten else m.readByte b := by
  induction m with
  | nil => simp [Memory.eraseCell, Memory.readByte]
  | cons x m ih =>
    obtain ⟨k, w⟩ := x
    by_cases hk : k = a
    · simp only [Memory.eraseCell, hk, if_true, ih, Memory.readByte]
      by_cases hb : b = a
      · simp [hb]
      · simp [hb, Ne.symm hb]
    · by_cases hb : b = a
      · subst hb
        simp [Memory.eraseCell, Memory.readByte, ih, hk]
      · simp [Memory.eraseCell, Memory.readByte, ih, hk, hb]

theorem Memory.readByte_insertCell (m : Memory) (a b : Nat) (v : Byte) (h : ∀ x ∈ m, x.1 ≠ a) :
    (m.insertCell a v).readByte b = if b = a then v else m.readByte b := by
  induction m with
  | nil =>
    by_cases hb : b = a
    · simp [Memory.insertCell, Memory.readByte, hb]
    · simp [Memory.insertCell, Memory.readByte, hb, Ne.symm hb]
  | cons x m ih =>
    obtain ⟨k, w⟩ := x
    have hk : k ≠ a := h (k, w) (by simp)
    have ih' := ih (fun y hy => h y (by simp [hy]))
    simp only [Memory.insertCell]
    split
    · by_cases hb : b = a
      · simp [Memory.readByte, hb]
      · simp [Memory.readByte, hb, Ne.symm hb]
    · simp only [Memory.readByte, ih']
      by_cases hkb : k = b
      · have hb : b ≠ a := hkb ▸ hk
        simp [hkb, hb]
      · simp [hkb]

theorem Memory.mem_eraseCell {m : Memory} {a : Nat} {x : Host.Cell} : x ∈ m.eraseCell a ↔ x ∈ m ∧ x.1 ≠ a := by
  induction m with
  | nil => simp [Memory.eraseCell]
  | cons y m ih =>
    obtain ⟨k, w⟩ := y
    by_cases hk : k = a
    · subst hk
      simp only [Memory.eraseCell, if_true, ih, List.mem_cons]
      constructor
      · rintro ⟨h1, h2⟩; exact ⟨.inr h1, h2⟩
      · rintro ⟨h1 | h1, h2⟩
        · subst h1; exact absurd rfl h2
        · exact ⟨h1, h2⟩
    · simp only [Memory.eraseCell, hk, if_false, List.mem_cons, ih]
      constructor
      · rintro (h1 | ⟨h1, h2⟩)
        · subst h1; exact ⟨.inl rfl, hk⟩
        · exact ⟨.inr h1, h2⟩
      · rintro ⟨h1 | h1, h2⟩
        · exact .inl h1
        · exact .inr ⟨h1, h2⟩

/-- The one law of a byte write. -/
theorem Memory.readByte_writeByte (m : Memory) (a b : Nat) (v : Byte) :
    (m.writeByte a v).readByte b = if b = a then v else m.readByte b := by
  unfold Memory.writeByte
  split
  · next h => rw [Memory.readByte_eraseCell, h]
  · rw [Memory.readByte_insertCell _ _ _ _ (fun x hx => (Memory.mem_eraseCell.mp hx).2), Memory.readByte_eraseCell]
    split <;> rfl

/-! ### The canonical form -/

theorem Memory.mem_insertCell {m : Memory} {a : Nat} {v : Byte} {x : Host.Cell} :
    x ∈ m.insertCell a v ↔ x = (a, v) ∨ x ∈ m := by
  induction m with
  | nil => simp [Memory.insertCell]
  | cons y m ih =>
    obtain ⟨k, w⟩ := y
    simp only [Memory.insertCell]
    split
    · simp
    · simp only [List.mem_cons, ih]; tauto

theorem Memory.eraseCell_wf {m : Memory} (a : Nat) (h : m.wf) : (m.eraseCell a).wf := by
  refine ⟨?_, fun x hx => h.2 x (Memory.mem_eraseCell.mp hx).1⟩
  have hp := h.1
  clear h
  induction m with
  | nil => simp [Memory.eraseCell]
  | cons y m ih =>
    obtain ⟨k, w⟩ := y
    rw [List.pairwise_cons] at hp
    simp only [Memory.eraseCell]
    split
    · exact ih hp.2
    · exact List.pairwise_cons.mpr ⟨fun x hx => hp.1 x (Memory.mem_eraseCell.mp hx).1, ih hp.2⟩

theorem Memory.insertCell_wf {m : Memory} {a : Nat} {v : Byte} (h : m.wf) (hv : v ≠ Memory.unwritten)
    (ha : ∀ x ∈ m, x.1 ≠ a) : (m.insertCell a v).wf := by
  refine ⟨?_, fun x hx => ?_⟩
  · have hp := h.1
    clear h
    induction m with
    | nil => simp [Memory.insertCell]
    | cons y m ih =>
      obtain ⟨k, w⟩ := y
      rw [List.pairwise_cons] at hp
      have hk : k ≠ a := ha (k, w) (by simp)
      simp only [Memory.insertCell]
      split
      · next hlt =>
        refine List.pairwise_cons.mpr ⟨fun x hx => ?_, List.pairwise_cons.mpr hp⟩
        rcases List.mem_cons.mp hx with rfl | hx
        · exact hlt
        · exact Nat.lt_trans hlt (hp.1 x hx)
      · next hlt =>
        refine List.pairwise_cons.mpr ⟨fun x hx => ?_, ih (fun x hx => ha x (by simp [hx])) hp.2⟩
        rcases Memory.mem_insertCell.mp hx with rfl | hx
        · show k < a; omega
        · exact hp.1 x hx
  · rcases Memory.mem_insertCell.mp hx with rfl | hx
    · exact hv
    · exact h.2 x hx

theorem Memory.writeByte_wf {m : Memory} (a : Nat) (v : Byte) (h : m.wf) : (m.writeByte a v).wf := by
  unfold Memory.writeByte
  split
  · exact Memory.eraseCell_wf a h
  · next hv => exact Memory.insertCell_wf (Memory.eraseCell_wf a h) hv (fun x hx => (Memory.mem_eraseCell.mp hx).2)

theorem Memory.writeByte_keys {m : Memory} {a : Nat} {v : Byte} {x : Host.Cell} (h : x ∈ m.writeByte a v) :
    x.1 = a ∨ x ∈ m := by
  unfold Memory.writeByte at h
  split at h
  · exact .inr (Memory.mem_eraseCell.mp h).1
  · rcases Memory.mem_insertCell.mp h with rfl | h
    · exact .inl rfl
    · exact .inr (Memory.mem_eraseCell.mp h).1

/-! ### Several bytes -/

theorem Memory.scatter_wf {m : Memory} (masked : Bool) (v : Word) (a : HubAddr) (is : List Nat) (h : m.wf) :
    (m.scatter masked v a is).wf := by
  induction is generalizing m with
  | nil => exact h
  | cons i is ih =>
    simp only [Memory.scatter]
    split
    · exact ih h
    · exact ih (Memory.writeByte_wf _ _ h)

theorem Memory.scatter_keys {m : Memory} {masked : Bool} {v : Word} {a : HubAddr} {is : List Nat} {x : Host.Cell}
    (h : x ∈ m.scatter masked v a is) : (∃ i ∈ is, x.1 = byteAddr a i) ∨ x ∈ m := by
  induction is generalizing m with
  | nil => exact .inr h
  | cons i is ih =>
    simp only [Memory.scatter] at h
    split at h
    · rcases ih h with ⟨j, hj, e⟩ | h
      · exact .inl ⟨j, by simp [hj], e⟩
      · exact .inr h
    · rcases ih h with ⟨j, hj, e⟩ | h
      · exact .inl ⟨j, by simp [hj], e⟩
      · rcases Memory.writeByte_keys h with e | h
        · exact .inl ⟨i, by simp, e⟩
        · exact .inr h

/-- A write leaves every byte outside it alone. -/
theorem Memory.readByte_scatter_other (m : Memory) (masked : Bool) (v : Word) (a : HubAddr) (is : List Nat) (b : Nat)
    (h : ∀ i ∈ is, b ≠ byteAddr a i) : (m.scatter masked v a is).readByte b = m.readByte b := by
  induction is generalizing m with
  | nil => rfl
  | cons i is ih =>
    have hi : b ≠ byteAddr a i := h i (by simp)
    have ih' := fun m' => ih m' (fun j hj => h j (by simp [hj]))
    simp only [Memory.scatter]
    split
    · exact ih' m
    · rw [ih', Memory.readByte_writeByte, if_neg hi]

/-- Different offsets below 2^20 are different addresses. -/
theorem byteAddr_injective {a : HubAddr} {i j : Nat} (hi : i < 2 ^ 20) (hj : j < 2 ^ 20)
    (h : byteAddr a i = byteAddr a j) : i = j := by
  have h' : BitVec.ofNat 20 i = BitVec.ofNat 20 j := by
    have := BitVec.eq_of_toNat_eq h
    simpa using this
  have h'' := congrArg BitVec.toNat h'
  rw [BitVec.toNat_ofNat, BitVec.toNat_ofNat] at h''
  omega

/-- A byte that was written reads as the data's byte, or as before where a masked write met a zero byte. -/
theorem Memory.readByte_scatter_same (m : Memory) (masked : Bool) (v : Word) (a : HubAddr) (is : List Nat) (i : Nat)
    (hnd : is.Nodup) (hlt : ∀ j ∈ is, j < 2 ^ 20) (hi : i ∈ is) :
    (m.scatter masked v a is).readByte (byteAddr a i) =
      if masked && byteAt v i == 0 then m.readByte (byteAddr a i) else byteAt v i := by
  induction is generalizing m with
  | nil => cases hi
  | cons j is ih =>
    rw [List.nodup_cons] at hnd
    have other : ∀ m', i = j → (Memory.scatter m' masked v a is).readByte (byteAddr a i) =
        m'.readByte (byteAddr a i) := fun m' e => by
      refine Memory.readByte_scatter_other _ _ _ _ _ _ (fun l hl e' => hnd.1 ?_)
      have := byteAddr_injective (hlt i hi) (hlt l (by simp [hl])) e'
      rwa [← e, this]
    simp only [Memory.scatter]
    rcases List.mem_cons.mp hi with e | hi'
    · subst e
      split
      · rw [other _ rfl]
      · rw [other _ rfl, Memory.readByte_writeByte, if_pos rfl]
    · have hne : byteAddr a i ≠ byteAddr a j := fun e =>
        hnd.1 (by rwa [← byteAddr_injective (hlt i hi) (hlt j (by simp)) e])
      have ih' := fun m' => ih m' hnd.2 (fun l hl => hlt l (by simp [hl])) hi'
      split
      · exact ih' m
      · rw [ih', Memory.readByte_writeByte, if_neg hne]

theorem Width.bytes_nodup (w : Width) : w.bytes.Nodup := by cases w <;> decide

theorem Width.bytes_lt (w : Width) : ∀ i ∈ w.bytes, i < 2 ^ 20 := by cases w <;> decide

/-- Reading bytes depends on those bytes only. -/
theorem Memory.gather_congr {m n : Memory} {a : HubAddr} {is : List Nat}
    (h : ∀ i ∈ is, m.readByte (byteAddr a i) = n.readByte (byteAddr a i)) : m.gather a is = n.gather a is := by
  induction is with
  | nil => rfl
  | cons i is ih =>
    simp only [Memory.gather]
    rw [h i (by simp), ih (fun j hj => h j (by simp [hj]))]

theorem Memory.gather_append (m : Memory) (a : HubAddr) (is js : List Nat) :
    m.gather a (is ++ js) = m.gather a is ||| m.gather a js := by
  induction is with
  | nil => simp [Memory.gather]
  | cons i is ih => simp [Memory.gather, ih, BitVec.or_assoc]

end Sys2Proof.Machine
end

