-- ==== Sys2Proof/Laws/Operations.lean ====
section
/-! SUPPORT. For each shared operation, everything it can do: the operands, setting up a transfer, finishing it, one
event of it, the condition field, and what all of them leave alone. -/

namespace Sys2Proof.Machine

/-! ### Refusals -/

@[simp] theorem require_true (r : Refusal) : require true r = .ok () := rfl
@[simp] theorem require_false (r : Refusal) : require false r = .error r := rfl

theorem require_ok {b : Bool} {r : Refusal} {u : Unit} (h : require b r = .ok u) : b = true := by
  cases b
  · cases h
  · rfl

/-- A chain of refusable operations that succeeds succeeds at each link. -/
theorem bind_ok {α β : Type} {x : Except Refusal α} {f : α → Except Refusal β} {b : β} (h : (x >>= f) = .ok b) :
    ∃ a, x = .ok a ∧ f a = .ok b := by
  cases x with
  | error e => cases h
  | ok a => exact ⟨a, rfl, h⟩

@[simp] theorem ok_bind {α β : Type} (a : α) (f : α → Except Refusal β) : ((.ok a : Except Refusal α) >>= f) = f a := rfl
@[simp] theorem error_bind {α β : Type} (r : Refusal) (f : α → Except Refusal β) :
    ((.error r : Except Refusal α) >>= f) = .error r := rfl
@[simp] theorem pure_eq_ok {α : Type} (a : α) : (pure a : Except Refusal α) = .ok a := rfl

/-! ### Operands -/

theorem readReg_ok {r : RegAddr} {s : State} {v : Word} (h : readReg r s = .ok v) :
    namesPointer r = false ∧ v = s.cog.reg r := by
  obtain ⟨_, h1, h2⟩ := bind_ok h
  refine ⟨by simpa using require_ok h1, ?_⟩
  cases h2; rfl

theorem readReg_of {r : RegAddr} (s : State) (h : namesPointer r = false) : readReg r s = .ok (s.cog.reg r) := by
  simp [readReg, h]

theorem readReg_pointer {r : RegAddr} (s : State) (h : namesPointer r = true) :
    readReg r s = .error .pointerRegister := by simp [readReg, h]

/-- `s1` is `s` but for the pointer the S operand updates. -/
def PointerMoved (src : Src) (s s1 : State) : Prop :=
  s1 = s ∨ ∃ p v, updatedPtr src = some p ∧ s1 = s.setCog (s.cog.setPtr p v)

theorem effAddr_ok {src : Src} {scale : Nat} {s s1 : State} {a : HubAddr} (h : effAddr src scale s = .ok (a, s1)) :
    PointerMoved src s s1 := by
  match src with
  | .reg r =>
    obtain ⟨v, h1, h2⟩ := bind_ok h
    cases h2; exact .inl rfl
  | .imm v => cases h; exact .inl rfl
  | .ptr p (.index i) => cases h; exact .inl rfl
  | .ptr p (.post i) =>
    simp only [effAddr] at h
    split at h <;> cases h
    exact .inr ⟨p, _, rfl, rfl⟩
  | .ptr p (.pre i) =>
    simp only [effAddr] at h
    split at h <;> cases h
    exact .inr ⟨p, _, rfl, rfl⟩

theorem effAddrBlock_ok {src : Src} {n : Nat} {s s1 : State} {a : HubAddr} (h : effAddrBlock src n s = .ok (a, s1)) :
    PointerMoved src s s1 := by
  match src with
  | .reg r =>
    obtain ⟨v, h1, h2⟩ := bind_ok h
    cases h2; exact .inl rfl
  | .imm v => cases h; exact .inl rfl
  | .ptr p (.index i) =>
    simp only [effAddrBlock] at h
    split at h <;> cases h
    exact .inl rfl
  | .ptr p (.post i) =>
    simp only [effAddrBlock] at h
    split at h
    · cases h; exact .inr ⟨p, _, rfl, rfl⟩
    · split at h <;> cases h
      exact .inr ⟨p, _, rfl, rfl⟩
  | .ptr p (.pre i) =>
    simp only [effAddrBlock] at h
    split at h
    · cases h; exact .inr ⟨p, _, rfl, rfl⟩
    · split at h <;> cases h
      exact .inr ⟨p, _, rfl, rfl⟩

theorem blockAddr_ok {src : Src} {n : Nat} {s s1 : State} {a : HubAddr} (h : blockAddr src n s = .ok (a, s1)) :
    effAddrBlock src n s = .ok (a, s1) ∧ a.toNat % 4 = 0 ∧ blockPopulated a n = true := by
  obtain ⟨⟨a', s'⟩, h1, h2⟩ := bind_ok h
  obtain ⟨_, h3, h4⟩ := bind_ok h2
  obtain ⟨_, h5, h6⟩ := bind_ok h4
  cases h6
  exact ⟨h1, by simpa using require_ok h3, require_ok h5⟩

theorem blockAddr_of {src : Src} {n : Nat} {s s1 : State} {a : HubAddr} (h : effAddrBlock src n s = .ok (a, s1))
    (ha : a.toNat % 4 = 0) (hp : blockPopulated a n = true) : blockAddr src n s = .ok (a, s1) := by
  simp [blockAddr, h, ha, hp]

/-- What the pointer update leaves alone. -/
theorem PointerMoved.same {src : Src} {s s1 : State} (h : PointerMoved src s s1) :
    s1.hub = s.hub ∧ s1.cog.regs = s.cog.regs ∧ s1.cog.lut = s.cog.lut ∧ s1.cog.c = s.cog.c ∧ s1.cog.z = s.cog.z ∧
    s1.cog.q = s.cog.q ∧ s1.cog.qpfx = s.cog.qpfx ∧ s1.cog.pc = s.cog.pc ∧ s1.cog.prog = s.cog.prog ∧
    s1.cog.inFlight = s.cog.inFlight ∧ ∀ p, updatedPtr src ≠ some p → s1.cog.ptr p = s.cog.ptr p := by
  rcases h with rfl | ⟨p, v, hp, rfl⟩
  · simp
  · simp only [State.hub_setCog, State.cog_setCog, Cog.regs_setPtr, Cog.lut_setPtr, Cog.c_setPtr, Cog.z_setPtr,
      Cog.q_setPtr, Cog.qpfx_setPtr, Cog.pc_setPtr, Cog.prog_setPtr, Cog.inFlight_setPtr, true_and]
    intro q hq
    exact Cog.ptr_setPtr_other _ _ _ _ (fun e => hq (e ▸ hp))

/-! ### Frames -/

theorem State.FrameOf.refl (s : State) : s.FrameOf s := ⟨rfl, rfl, fun _ _ => rfl, rfl, rfl⟩

theorem State.FrameOf.trans {s t u : State} (h1 : s.FrameOf t) (h2 : t.FrameOf u) : s.FrameOf u :=
  ⟨h2.cur.trans h1.cur, h2.turns.trans h1.turns,
    fun k hk => (h2.others k (h1.cur ▸ hk)).trans (h1.others k hk), h2.prog.trans h1.prog, h2.inFlight.trans h1.inFlight⟩

theorem State.FrameOf.setCog {s : State} {c : Cog} (hp : c.prog = s.cog.prog) (hi : c.inFlight = s.cog.inFlight) :
    s.FrameOf (s.setCog c) :=
  ⟨rfl, rfl, fun k hk => State.cogs_setCog_other s c k hk, by simpa using hp, by simpa using hi⟩

theorem State.FrameOf.setHub (s : State) (m : Memory) : s.FrameOf (s.setHub m) :=
  ⟨rfl, rfl, fun _ _ => rfl, rfl, rfl⟩

theorem State.FrameOf.retire (s : State) : s.FrameOf s.retire := State.FrameOf.setCog rfl rfl

theorem PointerMoved.frame {src : Src} {s s1 : State} (h : PointerMoved src s s1) : s.FrameOf s1 := by
  rcases h with rfl | ⟨p, v, -, rfl⟩
  · exact .refl _
  · exact .setCog (by simp) (by simp)

theorem loadLong_frame (m : Side) (a : HubAddr) (k : RegAddr) (s : State) : s.FrameOf (loadLong m a k s) :=
  .setCog (by simp) (by simp)

theorem completeLoad_frame (w : Width) (d : RegAddr) (wc wz : Bool) (v : Word) (s : State) :
    s.FrameOf (completeLoad w d wc wz v s) := .setCog rfl rfl

theorem completeBlockLoad_frame (wc wz : Bool) (v : Word) (s : State) : s.FrameOf (completeBlockLoad wc wz v s) :=
  .setCog rfl rfl

theorem loadBlock_frame (m : Side) (wc wz : Bool) (n : Nat) (a : HubAddr) (k : RegAddr) (s : State) :
    s.FrameOf (loadBlock m wc wz n a k s) := by
  induction n generalizing a k s with
  | zero => exact .refl s
  | succ n ih =>
    cases n with
    | zero => exact (loadLong_frame m a k s).trans (completeBlockLoad_frame _ _ _ _)
    | succ n => exact (loadLong_frame m a k s).trans (ih _ _ _)

theorem storeBlock_frame (src : BlockSrc) (masked : Bool) (n : Nat) (a : HubAddr) (k : RegAddr) (s : State) :
    s.FrameOf (storeBlock src masked n a k s) := by
  induction n generalizing a k s with
  | zero => exact .refl s
  | succ n ih => exact (State.FrameOf.setHub _ _).trans (ih _ _ _)

/-- Finishing a transfer changes Hub RAM and the acting cog only, and neither its list nor its work in progress. -/
theorem Transfer.finish_frame (t : Transfer) (s : State) : s.FrameOf (t.finish s) := by
  cases t with
  | load => exact completeLoad_frame _ _ _ _ _ _
  | store => exact (State.FrameOf.setHub _ _).trans (.retire _)
  | blockLoad => exact loadBlock_frame _ _ _ _ _ _ _
  | blockStore => exact (storeBlock_frame _ _ _ _ _ _).trans (.retire _)

/-! ### Block transfers, long by long -/

/-- The hub addresses and indexes of a block, one after another. -/
theorem nextLong (a : HubAddr) (k : Nat) : a + 4 + BitVec.ofNat 20 (4 * k) = a + BitVec.ofNat 20 (4 * (k + 1)) := by
  rw [BitVec.add_assoc]
  congr 1
  apply BitVec.eq_of_toNat_eq
  rw [BitVec.toNat_add, BitVec.toNat_ofNat, BitVec.toNat_ofNat, show (4 : BitVec 20).toNat = 4 from rfl]
  omega

theorem nextIndex (d : RegAddr) (k : Nat) : d + 1 + BitVec.ofNat 9 k = d + BitVec.ofNat 9 (k + 1) := by
  rw [BitVec.add_assoc]
  congr 1
  apply BitVec.eq_of_toNat_eq
  rw [BitVec.toNat_add, BitVec.toNat_ofNat, BitVec.toNat_ofNat, show (1 : BitVec 9).toNat = 1 from rfl]
  omega

@[simp] theorem Cog.side_setFlags (x : Cog) (m : Side) (k : RegAddr) (w : Width) (wc wz : Bool) (v : Word) :
    (x.setFlags w wc wz v).side m k = x.side m k := by cases m <;> rfl

@[simp] theorem Cog.side_retire (x : Cog) (m : Side) (k : RegAddr) : x.retire.side m k = x.side m k := by
  cases m <;> rfl

theorem Cog.side_setSide_same (x : Cog) (m : Side) (k : RegAddr) (v : Word) : (x.setSide m k v).side m k = v := by
  cases m
  · exact Cog.reg_setReg_same x k v
  · exact Cog.lutAt_setLut_same x k v

theorem Cog.side_setSide_other (x : Cog) (m : Side) (k j : RegAddr) (v : Word) (h : j ≠ k) :
    (x.setSide m k v).side m j = x.side m j := by
  cases m
  · exact Cog.reg_setReg_other x k j v h
  · exact Cog.lutAt_setLut_other x k j v h

/-- A block read of `n + 1` longs in closed form: the cog-side memory it writes, the flags, and all it leaves alone. -/
theorem loadBlock_spec (m : Side) (wc wz : Bool) (n : Nat) (a : HubAddr) (d : RegAddr) (s : State)
    (hd : d.toNat + n + 1 ≤ 512) :
    let t := loadBlock m wc wz (n + 1) a d s
    (∀ k, k ≤ n → t.cog.side m (d + BitVec.ofNat 9 k) = s.hub.read (a + BitVec.ofNat 20 (4 * k)) .long) ∧
    (∀ r : RegAddr, r.toNat < d.toNat ∨ d.toNat + n < r.toNat → t.cog.side m r = s.cog.side m r) ∧
    t.cog.c = (if wc then topBit .long (s.hub.read (a + BitVec.ofNat 20 (4 * n)) .long) else s.cog.c) ∧
    t.cog.z = (if wz then s.hub.read (a + BitVec.ofNat 20 (4 * n)) .long == 0 else s.cog.z) ∧
    t.hub = s.hub ∧ t.cog.ptra = s.cog.ptra ∧ t.cog.ptrb = s.cog.ptrb ∧ t.cog.q = s.cog.q ∧
    t.cog.qpfx = .none ∧ t.cog.pc = s.cog.pc + 1 ∧
    (m = .regs → t.cog.lut = s.cog.lut) ∧ (m = .lut → t.cog.regs = s.cog.regs) := by
  induction n generalizing a d s with
  | zero =>
    simp only [loadBlock, completeBlockLoad, loadLong, State.cog_setCog, State.hub_setCog]
    refine ⟨fun k hk => ?_, fun r hr => ?_, ?_, ?_, trivial, ?_, ?_, ?_, ?_, ?_, ?_, ?_⟩
    · obtain rfl : k = 0 := by omega
      simpa using Cog.side_setSide_same s.cog m d (s.hub.read a .long)
    · have hne : r ≠ d := fun e => by subst e; omega
      simpa using Cog.side_setSide_other s.cog m d r (s.hub.read a .long) hne
    all_goals first | (intro hm; subst hm; simp [Cog.setSide]) | simp
  | succ n ih =>
    have hd1 : (d + 1).toNat = d.toNat + 1 := by
      rw [BitVec.toNat_add]; simp; omega
    have := ih (a + 4) (d + 1) (loadLong m a d s) (by omega)
    simp only [loadBlock]
    obtain ⟨h1, h2, h3, h4, h5, h6, h7, h8, h9, h10, h11, h12⟩ := this
    simp only [nextLong] at h1 h3 h4
    refine ⟨fun k hk => ?_, fun r hr => ?_, ?_, ?_, ?_, ?_, ?_, ?_, h9, ?_, ?_, ?_⟩
    · cases k with
      | zero =>
        rw [h2 _ (by simp; omega)]
        simpa [loadLong] using Cog.side_setSide_same s.cog m d (s.hub.read a .long)
      | succ k =>
        have := h1 k (by omega)
        rw [nextIndex] at this
        simpa [loadLong] using this
    · rw [h2 r (by omega)]
      have hne : r ≠ d := fun e => by subst e; omega
      simpa [loadLong] using Cog.side_setSide_other s.cog m d r (s.hub.read a .long) hne
    · rw [h3]; simp [loadLong]
    · rw [h4]; simp [loadLong]
    · rw [h5]; simp [loadLong]
    · rw [h6]; simp [loadLong]
    · rw [h7]; simp [loadLong]
    · rw [h8]; simp [loadLong]
    · rw [h10]; simp [loadLong]
    · intro hm; rw [h11 hm]; subst hm; simp [loadLong, Cog.setSide]
    · intro hm; rw [h12 hm]; subst hm; simp [loadLong, Cog.setSide]

/-- The address of byte `i` of long `k` of a block that lies in populated Hub RAM. -/
theorem byteAddr_block {a : HubAddr} {k i : Nat} (h : a.toNat + 4 * k + 4 ≤ Config.hubSize) (hi : i < 4) :
    byteAddr (a + BitVec.ofNat 20 (4 * k)) i = a.toNat + 4 * k + i := by
  unfold Config.hubSize at h
  simp only [byteAddr, BitVec.toNat_add, BitVec.toNat_ofNat]
  omega

/-- A block write of `n` longs in closed form. -/
theorem storeBlock_spec (src : BlockSrc) (masked : Bool) (n : Nat) (a : HubAddr) (d : RegAddr) (s : State)
    (ha : a.toNat + 4 * n ≤ Config.hubSize) :
    let t := storeBlock src masked n a d s
    (∀ k i, k < n → i < 4 → t.hub.readByte (a.toNat + 4 * k + i) =
      if masked && byteAt (src.value s.cog (d + BitVec.ofNat 9 k)) i == 0
      then s.hub.readByte (a.toNat + 4 * k + i) else byteAt (src.value s.cog (d + BitVec.ofNat 9 k)) i) ∧
    (∀ b, b < a.toNat ∨ a.toNat + 4 * n ≤ b → t.hub.readByte b = s.hub.readByte b) ∧ t.cog = s.cog := by
  induction n generalizing a d s with
  | zero => exact ⟨fun k i hk => absurd hk (by omega), fun _ _ => rfl, rfl⟩
  | succ n ih =>
    by_cases hn : n = 0
    · subst hn
      simp only [storeBlock, storeLong]
      have e0 : ∀ i, i < 4 → byteAddr a i = a.toNat + i := fun i hi => by
        have := byteAddr_block (a := a) (k := 0) (i := i) (by omega) hi
        simpa using this
      refine ⟨fun k i hk hi => ?_, fun b hb => ?_, rfl⟩
      · obtain rfl : k = 0 := by omega
        have := Memory.readByte_scatter_same s.hub masked (src.value s.cog d) a Width.long.bytes i
          (Width.bytes_nodup _) (Width.bytes_lt _) (by simp [Width.bytes]; omega)
        rw [e0 i hi] at this
        simpa [BlockSrc.value] using this
      · refine Memory.readByte_scatter_other _ _ _ _ _ _ (fun i hi => ?_)
        have hi' : i < 4 := by simp [Width.bytes] at hi; omega
        rw [e0 i hi']; omega
    · have ha4 : (a + 4).toNat = a.toNat + 4 := by
        unfold Config.hubSize at ha
        rw [BitVec.toNat_add]; simp; omega
      have e0 : ∀ i, i < 4 → byteAddr a i = a.toNat + i := fun i hi => by
        have := byteAddr_block (a := a) (k := 0) (i := i) (by omega) hi
        simpa using this
      obtain ⟨h1, h2, h3⟩ := ih (a + 4) (d + 1) (storeLong src a d masked s) (by omega)
      simp only [storeBlock]
      refine ⟨fun k i hk hi => ?_, fun b hb => ?_, h3⟩
      · cases k with
        | zero =>
          rw [h2 _ (by omega)]
          have := Memory.readByte_scatter_same s.hub masked (src.value s.cog d) a Width.long.bytes i
            (Width.bytes_nodup _) (Width.bytes_lt _) (by simp [Width.bytes]; omega)
          rw [e0 i hi] at this
          simpa [BlockSrc.value, storeLong] using this
        | succ k =>
          have := h1 k i (by omega) hi
          rw [nextIndex, ha4] at this
          rw [show a.toNat + 4 * (k + 1) + i = a.toNat + 4 + 4 * k + i by omega, this]
          have hsame : (storeLong src a d masked s).hub.readByte (a.toNat + 4 + 4 * k + i) =
              s.hub.readByte (a.toNat + 4 + 4 * k + i) := by
            refine Memory.readByte_scatter_other _ _ _ _ _ _ (fun j hj => ?_)
            have hj' : j < 4 := by simp [Width.bytes] at hj; omega
            rw [e0 j hj']; omega
          rw [hsame]; rfl
      · rw [h2 b (by omega)]
        refine Memory.readByte_scatter_other _ _ _ _ _ _ (fun i hi => ?_)
        have hi' : i < 4 := by simp [Width.bytes] at hi; omega
        rw [e0 i hi']; omega

/-! ### The condition field -/

@[simp] theorem condHolds_always (c z : Bool) : condHolds always c z = true := by simp [condHolds, always]

theorem runIf_holds {e : Cond} {s : State} (ran : Host.Outcome State Fault Refusal)
    (h : condHolds e s.cog.c s.cog.z = true) : runIf e s ran = ran := by
  cases ran <;> simp [runIf, h]

theorem runIf_skips {e : Cond} {s : State} (ran : Host.Outcome State Fault Refusal)
    (h : condHolds e s.cog.c s.cog.z = false) : runIf e s ran = .next s.retire := by
  cases ran <;> simp [runIf, h]

@[simp] theorem runIf_always (s : State) (ran : Host.Outcome State Fault Refusal) : runIf always s ran = ran :=
  runIf_holds ran (condHolds_always _ _)

/-- A word that completes either did what it does under its condition or was skipped. -/
theorem runIf_next {e : Cond} {s t : State} {ran : Host.Outcome State Fault Refusal} (h : runIf e s ran = .next t) :
    (condHolds e s.cog.c s.cog.z = true ∧ ran = .next t) ∨
      (condHolds e s.cog.c s.cog.z = false ∧ t = s.retire) := by
  cases hc : condHolds e s.cog.c s.cog.z with
  | true => rw [runIf_holds ran hc] at h; exact .inl ⟨rfl, h⟩
  | false => rw [runIf_skips ran hc] at h; cases h; exact .inr ⟨rfl, rfl⟩

theorem perform_next {r : Except Refusal (State × Transfer)} {t : State} (h : perform r = .next t) :
    ∃ s1 tr, r = .ok (s1, tr) ∧ t = tr.finish s1 := by
  match r with
  | .ok (s1, tr) => cases h; exact ⟨s1, tr, rfl, rfl⟩
  | .error _ => cases h

end Sys2Proof.Machine
end

