-- ==== Sys2Proof/Laws/Transfers.lean ====
section
/-! SUPPORT. Setting up a transfer, both ways: what follows when it succeeds, and when it does succeed; and exec as one
transfer under its condition field. -/

namespace Sys2Proof.Machine

/-! ### Addresses -/

theorem byteAddr_eq (a : HubAddr) (i : Nat) : byteAddr a i = (a.toNat + i) % 2 ^ 20 := by
  simp [byteAddr, BitVec.toNat_add]

theorem byteAddr_add (a : HubAddr) (k i : Nat) : byteAddr (a + BitVec.ofNat 20 k) i = byteAddr a (k + i) := by
  simp only [byteAddr, BitVec.add_assoc, BitVec.ofNat_add]

theorem Width.mem_bytes (w : Width) (i : Nat) : i ∈ w.bytes ↔ i < w.scale := by
  cases w <;> simp [Width.bytes, Width.scale] <;> omega

theorem populated_iff (a : HubAddr) (w : Width) :
    populated a w = true ↔ ∀ i, i < w.scale → (a.toNat + i) % 2 ^ 20 < Config.hubSize := by
  simp only [populated, List.all_eq_true, Width.mem_bytes, decide_eq_true_eq, byteAddr_eq]

/-- The hub address of a pointer expression, modulo 2^20 (R82). -/
theorem pointerPlus_toNat (old : Word) (step : Int) :
    ((pointerPlus old step).toNat : Int) = (old.toNat + step) % 2 ^ 20 := by
  simp [pointerPlus, BitVec.toNat_add, BitVec.toNat_ofInt, BitVec.toNat_setWidth]
  omega

@[simp] theorem pointerPlus_zero (old : Word) : pointerPlus old 0 = old.setWidth 20 := by simp [pointerPlus]

/-- The new pointer where R82 fixes it. -/
theorem stepPointer_exact {old : Word} {step : Int} (h1 : old.toNat < 2 ^ 20) (h2 : 0 ≤ (old.toNat : Int) + step)
    (h3 : (old.toNat : Int) + step < 2 ^ 20) : ((stepPointer old step).toNat : Int) = old.toNat + step := by
  rw [stepPointer, if_pos ⟨h1, h2, h3⟩, BitVec.toNat_ofInt]; omega

/-- The next long of a block that lies in populated Hub RAM. -/
theorem nextLong_toNat {a : HubAddr} {n : Nat} (h : blockPopulated a (n + 2) = true) : (a + 4).toNat = a.toNat + 4 := by
  have h := of_decide_eq_true h
  simp only [Config.hubSize] at h
  rw [BitVec.toNat_add]; simp; omega

theorem blockFits_le {m : Side} {d : RegAddr} {n : Nat} (h : blockFits m d n = true) : d.toNat + n ≤ 512 := by
  cases m <;> have := of_decide_eq_true h <;> simp only [Config.regBlockLimit, Config.lutSize] at this <;> omega

/-! ### Single accesses -/

theorem issueRead_of {w : Width} {wc wz : Bool} {d : RegAddr} {src : Src} {s s1 : State} {a : HubAddr}
    (hd : namesPointer d = false) (h : effAddr src w.scale s = .ok (a, s1)) (hp : populated a w = true) :
    issueRead w wc wz d src s = .ok (s1, .load w a d wc wz w.bytes 0) := by
  simp [issueRead, h, hd, hp]

theorem issueRead_ok {w : Width} {wc wz : Bool} {d : RegAddr} {src : Src} {s s1 : State} {t : Transfer}
    (h : issueRead w wc wz d src s = .ok (s1, t)) :
    ∃ a, t = .load w a d wc wz w.bytes 0 ∧ effAddr src w.scale s = .ok (a, s1) ∧ namesPointer d = false ∧
      populated a w = true := by
  obtain ⟨⟨a, s'⟩, h3, h⟩ := bind_ok h
  obtain ⟨_, h1, h⟩ := bind_ok h
  obtain ⟨_, h2, h⟩ := bind_ok h
  cases h
  exact ⟨a, rfl, h3, by simpa using require_ok h1, require_ok h2⟩

theorem issueWrite_of {w : Width} {masked : Bool} {data : Data} {v : Word} {src : Src} {s s1 : State} {a : HubAddr}
    (hd : readData data s = .ok v) (h : effAddr src w.scale s = .ok (a, s1)) (hp : populated a w = true) :
    issueWrite w masked data src s = .ok (s1, .store a v masked w.bytes) := by
  simp [issueWrite, h, hd, hp]

theorem issueWrite_ok {w : Width} {masked : Bool} {data : Data} {src : Src} {s s1 : State} {t : Transfer}
    (h : issueWrite w masked data src s = .ok (s1, t)) :
    ∃ a v, t = .store a v masked w.bytes ∧ effAddr src w.scale s = .ok (a, s1) ∧ readData data s = .ok v ∧
      populated a w = true := by
  obtain ⟨v, h1, h⟩ := bind_ok h
  obtain ⟨⟨a, s'⟩, h3, h⟩ := bind_ok h
  obtain ⟨_, h2, h⟩ := bind_ok h
  cases h
  exact ⟨a, v, rfl, h3, h1, require_ok h2⟩

@[simp] theorem issueNarrowRead_of {s : State} (hq : s.cog.qpfx = .none) (w : Width) (wc wz : Bool) (d : RegAddr)
    (src : Src) : issueNarrowRead w wc wz d src s = issueRead w wc wz d src s := by
  simp [issueNarrowRead, hq]

@[simp] theorem issueNarrowWrite_of {s : State} (hq : s.cog.qpfx = .none) (w : Width) (data : Data) (src : Src) :
    issueNarrowWrite w data src s = issueWrite w false data src s := by
  simp [issueNarrowWrite, hq]

/-! ### Block transfers -/

theorem issueBlockRead_of {m : Side} {wc wz : Bool} {d : RegAddr} {src : Src} {s s1 : State} {a : HubAddr} {n : Nat}
    (hn : n = s.cog.q.toNat + 1) (h1 : n ≤ Config.blockMax) (h2 : blockFits m d n = true)
    (h : effAddrBlock src n s = .ok (a, s1)) (ha : a.toNat % 4 = 0) (hp : a.toNat + 4 * n ≤ Config.hubSize) :
    issueBlockRead m wc wz d src s = .ok (s1, .blockLoad m a d n wc wz) := by
  have hl : blockLongs s = n := hn.symm
  simp [issueBlockRead, hl, h1, h2, blockAddr_of h ha (decide_eq_true hp)]

theorem issueBlockRead_ok {m : Side} {wc wz : Bool} {d : RegAddr} {src : Src} {s s1 : State} {t : Transfer}
    (h : issueBlockRead m wc wz d src s = .ok (s1, t)) :
    ∃ a, t = .blockLoad m a d (s.cog.q.toNat + 1) wc wz ∧ effAddrBlock src (s.cog.q.toNat + 1) s = .ok (a, s1) ∧
      s.cog.q.toNat + 1 ≤ Config.blockMax ∧ blockFits m d (s.cog.q.toNat + 1) = true ∧ a.toNat % 4 = 0 ∧
      blockPopulated a (s.cog.q.toNat + 1) = true := by
  obtain ⟨_, h1, h⟩ := bind_ok h
  obtain ⟨_, h2, h⟩ := bind_ok h
  obtain ⟨⟨a, s'⟩, h3, h⟩ := bind_ok h
  cases h
  exact ⟨a, rfl, (blockAddr_ok h3).1, of_decide_eq_true (require_ok h1), require_ok h2, (blockAddr_ok h3).2⟩

theorem issueBlockWrite_of {m : Side} {masked : Bool} {d : RegAddr} {src : Src} {s s1 : State} {a : HubAddr} {n : Nat}
    (hn : n = s.cog.q.toNat + 1) (h1 : n ≤ Config.blockMax) (h2 : blockFits m d n = true)
    (h : effAddrBlock src n s = .ok (a, s1)) (ha : a.toNat % 4 = 0) (hp : a.toNat + 4 * n ≤ Config.hubSize) :
    issueBlockWrite m masked d src s = .ok (s1, .blockStore (.side m) a d n masked) := by
  have hl : blockLongs s = n := hn.symm
  simp [issueBlockWrite, hl, h1, h2, blockAddr_of h ha (decide_eq_true hp)]

theorem issueBlockWrite_ok {m : Side} {masked : Bool} {d : RegAddr} {src : Src} {s s1 : State} {t : Transfer}
    (h : issueBlockWrite m masked d src s = .ok (s1, t)) :
    ∃ a, t = .blockStore (.side m) a d (s.cog.q.toNat + 1) masked ∧
      effAddrBlock src (s.cog.q.toNat + 1) s = .ok (a, s1) ∧ s.cog.q.toNat + 1 ≤ Config.blockMax ∧
      blockFits m d (s.cog.q.toNat + 1) = true ∧ a.toNat % 4 = 0 ∧ blockPopulated a (s.cog.q.toNat + 1) = true := by
  obtain ⟨_, h1, h⟩ := bind_ok h
  obtain ⟨_, h2, h⟩ := bind_ok h
  obtain ⟨⟨a, s'⟩, h3, h⟩ := bind_ok h
  cases h
  exact ⟨a, rfl, (blockAddr_ok h3).1, of_decide_eq_true (require_ok h1), require_ok h2, (blockAddr_ok h3).2⟩

theorem issueFill_of {v : Word} {src : Src} {s s1 : State} {a : HubAddr} {n : Nat} (hn : n = s.cog.q.toNat + 1)
    (h1 : n ≤ Config.blockMax) (h : effAddrBlock src n s = .ok (a, s1)) (ha : a.toNat % 4 = 0)
    (hp : a.toNat + 4 * n ≤ Config.hubSize) :
    issueFill .regs v src s = .ok (s1, .blockStore (.fill v) a 0 n false) := by
  have hl : blockLongs s = n := hn.symm
  simp [issueFill, hl, h1, blockAddr_of h ha (decide_eq_true hp)]

theorem issueFill_ok {m : Side} {v : Word} {src : Src} {s s1 : State} {t : Transfer}
    (h : issueFill m v src s = .ok (s1, t)) :
    ∃ a, t = .blockStore (.fill v) a 0 (s.cog.q.toNat + 1) false ∧
      effAddrBlock src (s.cog.q.toNat + 1) s = .ok (a, s1) ∧ s.cog.q.toNat + 1 ≤ Config.blockMax ∧ m = .regs ∧
      a.toNat % 4 = 0 ∧ blockPopulated a (s.cog.q.toNat + 1) = true := by
  obtain ⟨_, h1, h⟩ := bind_ok h
  obtain ⟨_, h2, h⟩ := bind_ok h
  obtain ⟨⟨a, s'⟩, h3, h⟩ := bind_ok h
  cases h
  exact ⟨a, rfl, (blockAddr_ok h3).1, of_decide_eq_true (require_ok h1), by simpa using require_ok h2,
    (blockAddr_ok h3).2⟩

/-! ### What refuses an access -/

theorem effAddrBlock_notValid {src : Src} (n : Nat) (s : State)
    (h : (∃ p i, src = .ptr p (.index i) ∧ i ≠ 0) ∨
      ∃ p i, (src = .ptr p (.post i) ∨ src = .ptr p (.pre i)) ∧ i ≠ 1 ∧ i ≠ -1) :
    effAddrBlock src n s = .error .blockPointerForm := by
  obtain ⟨p, i, rfl, h⟩ | ⟨p, i, rfl | rfl, h, h'⟩ := h
  · exact if_neg h
  all_goals exact (if_neg h).trans (if_neg h')

theorem issueRead_error {w : Width} {src : Src} {s : State} {why : Refusal} (wc wz : Bool) (d : RegAddr)
    (h : effAddr src w.scale s = .error why) : issueRead w wc wz d src s = .error why := by simp [issueRead, h]

theorem issueRead_pointer {w : Width} {d : RegAddr} {src : Src} {s s1 : State} {a : HubAddr} (wc wz : Bool)
    (hd : namesPointer d = true) (h : effAddr src w.scale s = .ok (a, s1)) :
    issueRead w wc wz d src s = .error .pointerRegister := by simp [issueRead, h, hd]

theorem issueWrite_error {w : Width} {data : Data} {v : Word} {src : Src} {s : State} {why : Refusal} (masked : Bool)
    (hd : readData data s = .ok v) (h : effAddr src w.scale s = .error why) :
    issueWrite w masked data src s = .error why := by simp [issueWrite, hd, h]

theorem issueWrite_pointer {r : RegAddr} (w : Width) (masked : Bool) (src : Src) (s : State)
    (h : namesPointer r = true) : issueWrite w masked (.reg r) src s = .error .pointerRegister := by
  simp [issueWrite, readData, readReg_pointer s h]

/-- The address of a block transfer is refused by its form, or for its alignment or its range. -/
theorem blockAddr_error {src : Src} {n : Nat} {s : State} {why : Refusal}
    (h : effAddrBlock src n s = .error why ∨
      ∃ a s1, effAddrBlock src n s = .ok (a, s1) ∧ ((a.toNat % 4 ≠ 0 ∧ why = .blockUnaligned) ∨
        (a.toNat % 4 = 0 ∧ blockPopulated a n = false ∧ why = .unpopulatedHub))) :
    blockAddr src n s = .error why := by
  obtain h | ⟨a, s1, h, ⟨ha, rfl⟩ | ⟨ha, hp, rfl⟩⟩ := h
  · simp [blockAddr, h]
  · simp [blockAddr, h, show (a.toNat % 4 == 0) = false by simpa using ha]
  · simp [blockAddr, h, ha, hp]

theorem issueBlockRead_error {m : Side} {d : RegAddr} {src : Src} {s : State} {why : Refusal} (wc wz : Bool)
    (h1 : blockLongs s ≤ Config.blockMax) (h2 : blockFits m d (blockLongs s) = true)
    (h : blockAddr src (blockLongs s) s = .error why) : issueBlockRead m wc wz d src s = .error why := by
  simp [issueBlockRead, h1, h2, h]

theorem issueBlockWrite_error {m : Side} {d : RegAddr} {src : Src} {s : State} {why : Refusal} (masked : Bool)
    (h1 : blockLongs s ≤ Config.blockMax) (h2 : blockFits m d (blockLongs s) = true)
    (h : blockAddr src (blockLongs s) s = .error why) : issueBlockWrite m masked d src s = .error why := by
  simp [issueBlockWrite, h1, h2, h]

theorem issueFill_error {src : Src} {s : State} {why : Refusal} (v : Word) (h1 : blockLongs s ≤ Config.blockMax)
    (h : blockAddr src (blockLongs s) s = .error why) : issueFill .regs v src s = .error why := by
  simp [issueFill, h1, h]

/-- Data that is no register is filled with. -/
theorem issueBlockWrlong_fill {data : Data} (h : ∀ r, data ≠ .reg r) (m : Side) (src : Src) (s : State) :
    ∃ v, readData data s = .ok v ∧ issueBlockWrlong m data src s = issueFill m v src s := by
  cases data with
  | reg r => exact absurd rfl (h r)
  | imm v => exact ⟨_, rfl, rfl⟩
  | aug v => exact ⟨_, rfl, rfl⟩

/-! ### Doing the work -/

/-- A block write changes Hub RAM only, until the instruction ends. -/
@[simp] theorem storeBlock_cog (src : BlockSrc) (masked : Bool) (n : Nat) (a : HubAddr) (k : RegAddr) (s : State) :
    (storeBlock src masked n a k s).cog = s.cog := by
  induction n generalizing a k s with
  | zero => rfl
  | succ n ih => exact ih _ _ _

/-- A block read changes no byte of Hub RAM. -/
@[simp] theorem loadBlock_hub (m : Side) (wc wz : Bool) (n : Nat) (a : HubAddr) (k : RegAddr) (s : State) :
    (loadBlock m wc wz n a k s).hub = s.hub := by
  induction n generalizing a k s with
  | zero => rfl
  | succ n ih =>
    cases n with
    | zero => rfl
    | succ n => exact ih _ _ _

/-- SETQ and SETQ2, when they complete. -/
theorem setPrefix_next {p : Prefix} {arg : QArg} {s t : State} (h : setPrefix p arg s = .next t) :
    s.cog.qpfx = .none ∧ ∃ v, readQArg arg s = .ok v ∧
      t = s.setCog { s.cog with q := v, qpfx := p, pc := s.cog.pc + 1 } := by
  simp only [setPrefix] at h
  split at h
  · next hq =>
    split at h
    · next v hv => cases h; exact ⟨hq, v, hv, rfl⟩
    · cases h
  · cases h

end Sys2Proof.Machine
end

