-- ==== Sys2Proof/Laws/Events.lean ====
section
/-! SUPPORT. What the statements about events and steps rest on: equal reads are equal memories, the order of bytes does
not matter, and exec, the first event and a fetch in the form of one inversion each. -/

namespace Sys2Proof.Machine

/-! ### Memory as a set of bytes -/

theorem Memory.mem_iff {m : Memory} (h : m.wf) (a : Nat) (v : Byte) :
    (a, v) ∈ m ↔ m.readByte a = v ∧ v ≠ Memory.unwritten := by
  have h1 := h.1
  have h2 := h.2
  clear h
  induction m with
  | nil => simp only [List.not_mem_nil, Memory.readByte, false_iff, not_and, not_not]; exact fun e => e.symm
  | cons x m ih =>
    obtain ⟨b, w⟩ := x
    rw [List.pairwise_cons] at h1
    have ih := ih h1.2 (fun y hy => h2 y (by simp [hy]))
    have hw := h2 (b, w) (by simp)
    by_cases hb : b = a
    · subst hb
      have hn : ∀ v, (b, v) ∉ m := fun v hv => Nat.lt_irrefl b (h1.1 (b, v) hv)
      simp only [List.mem_cons, Prod.mk.injEq, true_and, hn, or_false, Memory.readByte, if_true]
      exact ⟨fun e => ⟨e.symm, e ▸ hw⟩, fun e => e.1.symm⟩
    · simp [Memory.readByte, hb, ih, Ne.symm hb]

/-- Canonical memories that read the same everywhere are the same list. -/
theorem Memory.ext {m n : Memory} (hm : m.wf) (hn : n.wf) (h : ∀ a, m.readByte a = n.readByte a) : m = n := by
  have mem : ∀ x : Host.Cell, x ∈ m ↔ x ∈ n := by
    rintro ⟨a, v⟩
    rw [Memory.mem_iff hm, Memory.mem_iff hn, h]
  have nd : ∀ {l : Memory}, l.Pairwise (fun x y => x.1 < y.1) → l.Nodup :=
    fun h => h.imp (fun h e => by subst e; exact Nat.lt_irrefl _ h)
  exact List.Perm.eq_of_pairwise (le := fun x y : Host.Cell => x.1 < y.1)
    (fun _ _ _ _ h1 h2 => absurd h1 (Nat.lt_asymm h2)) hm.1 hn.1
    ((List.perm_ext_iff_of_nodup (nd hm.1) (nd hn.1)).2 mem)

theorem Memory.writeByte_comm {m : Memory} (h : m.wf) {a b : Nat} {x y : Byte} (hab : a ≠ b) :
    (m.writeByte a x).writeByte b y = (m.writeByte b y).writeByte a x := by
  refine Memory.ext (Memory.writeByte_wf _ _ (Memory.writeByte_wf _ _ h))
    (Memory.writeByte_wf _ _ (Memory.writeByte_wf _ _ h)) (fun c => ?_)
  simp only [Memory.readByte_writeByte]
  by_cases h1 : c = a <;> by_cases h2 : c = b <;> simp_all

theorem Memory.gather_perm {m : Memory} {a : HubAddr} {is js : List Nat} (h : is.Perm js) :
    m.gather a is = m.gather a js := by
  induction h with
  | nil => rfl
  | cons x _ ih => simp only [Memory.gather, ih]
  | swap x y l =>
    simp only [Memory.gather]
    rw [← BitVec.or_assoc, ← BitVec.or_assoc, BitVec.or_comm (_ <<< _)]
  | trans _ _ h1 h2 => exact h1.trans h2

theorem Memory.scatter_append (m : Memory) (masked : Bool) (v : Word) (a : HubAddr) (is js : List Nat) :
    m.scatter masked v a (is ++ js) = (m.scatter masked v a is).scatter masked v a js := by
  induction is generalizing m with
  | nil => rfl
  | cons i is ih => simp only [List.cons_append, Memory.scatter]; split <;> exact ih _

theorem Memory.scatter_perm {m : Memory} (hm : m.wf) {masked : Bool} {v : Word} {a : HubAddr} {is js : List Nat}
    (h : is.Perm js) (h4 : ∀ i ∈ is, i < 4) : m.scatter masked v a is = m.scatter masked v a js := by
  induction h generalizing m with
  | nil => rfl
  | cons x _ ih =>
    simp only [Memory.scatter]
    split
    · exact ih hm (fun i hi => h4 i (by simp [hi]))
    · exact ih (Memory.writeByte_wf _ _ hm) (fun i hi => h4 i (by simp [hi]))
  | swap x y l =>
    simp only [Memory.scatter]
    split <;> split <;> try rfl
    by_cases h : byteAddr a x = byteAddr a y
    · have e : x = y := byteAddr_injective (by have := h4 x (by simp); omega) (by have := h4 y (by simp); omega) h
      subst e; rfl
    · rw [Memory.writeByte_comm hm (Ne.symm h)]
  | trans p _ h1 h2 => exact (h1 hm h4).trans (h2 hm (fun i hi => h4 i (p.mem_iff.2 hi)))

/-- A written byte reads back. -/
theorem Memory.readByte_write_same (m : Memory) (a : HubAddr) (w : Width) (v : Word) {i : Nat} (hi : i ∈ w.bytes) :
    (m.write a w v).readByte (byteAddr a i) = byteAt v i := by
  have := Memory.readByte_scatter_same m false v a w.bytes i (Width.bytes_nodup _) (Width.bytes_lt _) hi
  simpa [Memory.write] using this

/-! ### The two parts of a crossing access -/

theorem splitPart_perm (hiFirst : Bool) (a : HubAddr) (todo : List Nat) :
    ((splitPart hiFirst a todo).1 ++ (splitPart hiFirst a todo).2).Perm todo := by
  have base : (todo.filter (fun i => inFirstLong a i) ++ todo.filter (fun i => !inFirstLong a i)).Perm todo :=
    List.filter_append_perm _ _
  simp only [splitPart]
  split
  · simp
  · split
    · exact List.perm_append_comm.trans base
    · exact base

theorem splitPart_uncrossed {hiFirst : Bool} {a : HubAddr} {todo : List Nat}
    (h : ∀ j ∈ todo, inFirstLong a j = true) : splitPart hiFirst a todo = (todo, []) := by
  have : todo.filter (fun i => !inFirstLong a i) = [] := by simpa using h
  simp [splitPart, this]

theorem State.park_none_self {s : State} (h : s.cog.inFlight = none) : s.park none = s := by
  have e : ({ s.cog with inFlight := none } : Cog) = s.cog := by
    cases hh : s.cog
    simp only [hh] at h
    simp [h]
  simp only [State.park, e, State.setCog_self]

/-! ### Fetch, exec and the first event -/

theorem placeWord_get (l : List Word) (n : Nat) (w : Word) : (placeWord l n w)[n]? = some w := by
  simp only [placeWord, List.append_assoc]
  rw [List.getElem?_append_right (by simp), List.getElem?_append_right (by simp; omega)]
  simp

theorem withInstr_next {s t : State} {go : Instr → Host.Outcome State Fault Refusal} (h : withInstr s go = .next t) :
    ∃ w i, fetch s = some w ∧ decode w = .ok i ∧ go i = .next t := by
  simp only [withInstr] at h
  split at h
  · cases h
  · next w hw =>
    split at h
    · next i hi => exact ⟨w, i, hw, hi, h⟩
    · cases h
    · cases h

/-- Every instruction is its Hub RAM work under its condition field, or one of the two prefixes. -/
theorem exec_eq (i : Instr) (s : State) :
    (∃ r, issue i s = some r ∧ exec i s = runIf i.cond s (perform r)) ∨
      (issue i s = none ∧ ∃ p arg, ((i = .setq i.cond arg ∧ p = .setq) ∨ (i = .setq2 i.cond arg ∧ p = .setq2)) ∧
        exec i s = runIf i.cond s (setPrefix p arg s)) := by
  cases i
  case setq e arg => exact .inr ⟨rfl, .setq, arg, .inl ⟨rfl, rfl⟩, rfl⟩
  case setq2 e arg => exact .inr ⟨rfl, .setq2, arg, .inr ⟨rfl, rfl⟩, rfl⟩
  all_goals exact .inl ⟨_, rfl, rfl⟩

end Sys2Proof.Machine
end

