-- ==== Sys2Proof/Laws/PerInstr.lean ====
section
/-! SUPPORT. For each instruction: its word matches the row of spec/opcode_table.json that bears its name (30_encoding.md
R57, R58, R62). -/

namespace Sys2Proof.Laws.TableRow

/-- The instruction's word matches its own row of the table. -/
def Statement (i : Instr) : Prop := ∃ row ∈ tableRows, row.1 = rowName i ∧ matchesRow (encode i) row = true

/-- A word matches a mask and match if it agrees with the match on the mask's bits. -/
theorem and_eq_of_bits (w mask m : Word) (h : ∀ i : Fin 32, (w.getLsbD i && mask.getLsbD i) = m.getLsbD i) :
    (w &&& mask == m) = true := by
  rw [beq_iff_eq]
  apply BitVec.eq_of_getLsbD_eq
  intro i hi
  rw [BitVec.getLsbD_and]
  exact h ⟨i, hi⟩

theorem rdbyte (e : Cond) (wc wz : Bool) (d : RegAddr) (src : Src) : Statement (.rdbyte e wc wz d src) := by
  refine ⟨_, List.mem_of_getElem? (i := 0) rfl, rfl, and_eq_of_bits _ _ _ ?_⟩
  simp only [encode, getLsbD_mkWord]
  generalize encodeSrc src = x
  intro i
  fin_cases i <;> simp

theorem rdword (e : Cond) (wc wz : Bool) (d : RegAddr) (src : Src) : Statement (.rdword e wc wz d src) := by
  refine ⟨_, List.mem_of_getElem? (i := 1) rfl, rfl, and_eq_of_bits _ _ _ ?_⟩
  simp only [encode, getLsbD_mkWord]
  generalize encodeSrc src = x
  intro i
  fin_cases i <;> simp

theorem rdlong (e : Cond) (wc wz : Bool) (d : RegAddr) (src : Src) : Statement (.rdlong e wc wz d src) := by
  refine ⟨_, List.mem_of_getElem? (i := 2) rfl, rfl, and_eq_of_bits _ _ _ ?_⟩
  simp only [encode, getLsbD_mkWord]
  generalize encodeSrc src = x
  intro i
  fin_cases i <;> simp

theorem wmlong (e : Cond) (d : RegAddr) (src : Src) : Statement (.wmlong e d src) := by
  refine ⟨_, List.mem_of_getElem? (i := 3) rfl, rfl, and_eq_of_bits _ _ _ ?_⟩
  simp only [encode, getLsbD_mkWord]
  generalize encodeSrc src = x
  intro i
  fin_cases i <;> simp

theorem wrbyte (e : Cond) (data : Data) (src : Src) : Statement (.wrbyte e data src) := by
  refine ⟨_, List.mem_of_getElem? (i := 4) rfl, rfl, and_eq_of_bits _ _ _ ?_⟩
  simp only [encode, getLsbD_mkWord]
  generalize encodeSrc src = x
  generalize encodeData data = y
  intro i
  fin_cases i <;> simp

theorem wrword (e : Cond) (data : Data) (src : Src) : Statement (.wrword e data src) := by
  refine ⟨_, List.mem_of_getElem? (i := 5) rfl, rfl, and_eq_of_bits _ _ _ ?_⟩
  simp only [encode, getLsbD_mkWord]
  generalize encodeSrc src = x
  generalize encodeData data = y
  intro i
  fin_cases i <;> simp

theorem wrlong (e : Cond) (data : Data) (src : Src) : Statement (.wrlong e data src) := by
  refine ⟨_, List.mem_of_getElem? (i := 6) rfl, rfl, and_eq_of_bits _ _ _ ?_⟩
  simp only [encode, getLsbD_mkWord]
  generalize encodeSrc src = x
  generalize encodeData data = y
  intro i
  fin_cases i <;> simp

theorem pusha (e : Cond) (data : Data) : Statement (.pusha e data) := by
  refine ⟨_, List.mem_of_getElem? (i := 7) rfl, rfl, and_eq_of_bits _ _ _ ?_⟩
  simp only [encode, getLsbD_mkWord]
  generalize encodeData data = x
  intro i
  fin_cases i <;> simp [sPushA]

theorem pushb (e : Cond) (data : Data) : Statement (.pushb e data) := by
  refine ⟨_, List.mem_of_getElem? (i := 8) rfl, rfl, and_eq_of_bits _ _ _ ?_⟩
  simp only [encode, getLsbD_mkWord]
  generalize encodeData data = x
  intro i
  fin_cases i <;> simp [sPushB]

theorem popa (e : Cond) (wc wz : Bool) (d : RegAddr) : Statement (.popa e wc wz d) := by
  refine ⟨_, List.mem_of_getElem? (i := 9) rfl, rfl, and_eq_of_bits _ _ _ ?_⟩
  simp only [encode, getLsbD_mkWord]
  intro i
  fin_cases i <;> simp [sPopA]

theorem popb (e : Cond) (wc wz : Bool) (d : RegAddr) : Statement (.popb e wc wz d) := by
  refine ⟨_, List.mem_of_getElem? (i := 10) rfl, rfl, and_eq_of_bits _ _ _ ?_⟩
  simp only [encode, getLsbD_mkWord]
  intro i
  fin_cases i <;> simp [sPopB]

theorem setq (e : Cond) (arg : QArg) : Statement (.setq e arg) := by
  refine ⟨_, List.mem_of_getElem? (i := 11) rfl, rfl, and_eq_of_bits _ _ _ ?_⟩
  simp only [encode, getLsbD_mkWord]
  generalize encodeQArg arg = x
  intro i
  fin_cases i <;> simp [sSetq]

theorem setq2 (e : Cond) (arg : QArg) : Statement (.setq2 e arg) := by
  refine ⟨_, List.mem_of_getElem? (i := 12) rfl, rfl, and_eq_of_bits _ _ _ ?_⟩
  simp only [encode, getLsbD_mkWord]
  generalize encodeQArg arg = x
  intro i
  fin_cases i <;> simp [sSetq2]

end Sys2Proof.Laws.TableRow
end

