-- ==== Sys2Proof/Tests/Slice0.lean ====
section
/-! SUPPORT. The model's own tests. Words and expected results are those of spec/95_test_vectors.md (the row is named),
which that file derives from the rules; a `witness_` theorem shows that the hypotheses of the statement it names can be
met, clause by clause and at the ends of the ranges. -/

namespace Sys2Proof.Tests

-- One proof at a time: with many small kernel evaluations waiting on each other Lean starts a thread for each.
set_option Elab.async false

open Sys2Proof.Machine

/-! ### Small states -/

/-- Write registers of a cog. -/
def withRegs (c : Cog) (l : List (RegAddr × Word)) : Cog := l.foldl (fun c x => c.setReg x.1 x.2) c

/-- Hub RAM with these bytes from an address on. -/
def withBytes (m : Memory) (a : Nat) : List Byte → Memory
  | [] => m
  | v :: vs => withBytes (m.writeByte a v) (a + 1) vs

/-- The chip after reset with cog 0's registers, PTRA, PTRB and Hub RAM set. -/
def chip (regs : List (RegAddr × Word)) (pa pb : Word) (m : Memory) : State :=
  (State.reset.setCog { withRegs Cog.reset regs with ptra := pa, ptrb := pb }).setHub m

/-- A prefix pending with its count. -/
def prefixed (p : Prefix) (q : Word) (s : State) : State := s.setCog { s.cog with qpfx := p, q := q }

/-- One step that runs a word. -/
def runWord (w : Word) (s : State) : Host.Outcome State Fault Refusal := step (s.withFetchWord 32 w.toNat)

/-- What an outcome shows, if it is a next state. -/
def sees {α : Type} (f : State → α) : Host.Outcome State Fault Refusal → Option α
  | .next t => some (f t)
  | .fault _ => none
  | .refused _ => none

/-- The refusal of an outcome, if it is one. -/
def refusal : Host.Outcome State Fault Refusal → Option Refusal
  | .next _ => none
  | .fault _ => none
  | .refused r => some r

/-- The hub address an address operand gives. -/
def addrOf : Except Refusal (HubAddr × State) → Option HubAddr
  | .ok x => some x.1
  | .error _ => none

/-- Some bytes of Hub RAM. -/
def bytesFrom (a n : Nat) (s : State) : List Byte := (List.range n).map fun i => s.hub.readByte (a + i)

theorem next_of_sees {α : Type} {f : State → α} {o : Host.Outcome State Fault Refusal} (h : (sees f o).isSome = true) :
    ∃ t, o = .next t := by
  match o with
  | .next t => exact ⟨t, rfl⟩
  | .fault _ => cases h
  | .refused _ => cases h

theorem ok_of_addrOf {x : Except Refusal (HubAddr × State)} {a : HubAddr} (h : addrOf x = some a) :
    ∃ s1, x = .ok (a, s1) := by
  match x with
  | .ok (b, s1) => cases h; exact ⟨s1, rfl⟩
  | .error _ => cases h

/-! ### WellFormed: each check refuses an ill-formed term -/

theorem test_ill_formed_post_index_zero : (Instr.rdbyte 15 false false 5 (.ptr .a (.post 0))).wellFormed = false := by
  decide
theorem test_ill_formed_pre_index_zero : (Instr.wmlong 15 5 (.ptr .b (.pre 0))).wellFormed = false := by decide
theorem test_ill_formed_aug_data : (Instr.wrbyte 15 (.aug 0x89ABCDEF) (.reg 6)).wellFormed = false := by decide
theorem test_ill_formed_aug_push : (Instr.pusha 15 (.aug 1)).wellFormed = false := by decide
theorem test_ill_formed_wrlong_spells_pusha : (Instr.wrlong 15 (.reg 5) (.ptr .a (.post 1))).wellFormed = false := by
  decide
theorem test_ill_formed_wrlong_spells_pushb : (Instr.wrlong 15 (.reg 5) (.ptr .b (.post 1))).wellFormed = false := by
  decide
theorem test_ill_formed_rdlong_spells_popa :
    (Instr.rdlong 15 false false 9 (.ptr .a (.pre (-1)))).wellFormed = false := by decide
theorem test_ill_formed_rdlong_spells_popb :
    (Instr.rdlong 15 false false 9 (.ptr .b (.pre (-1)))).wellFormed = false := by decide
theorem test_well_formed_wrword_post_one : (Instr.wrword 15 (.reg 5) (.ptr .a (.post 1))).wellFormed = true := by decide

/-! ### Decoding: words written out from the encodings of 30_encoding.md (95_test_vectors.md 2.1, 2.4) -/

theorem test_decode_rdbyte : decode 0b1111_1010110_010_000001000_000000110#32 =
    .ok (.rdbyte 15 false true 8 (.reg 6)) := by decide +kernel
theorem test_decode_rdbyte_index : decode 0b1111_1010110_001_000000101_100100000#32 =
    .ok (.rdbyte 15 false false 5 (.ptr .a (.index (-32)))) := by decide +kernel
theorem test_decode_rdword : decode 0b1111_1010111_100_000000111_000000110#32 =
    .ok (.rdword 15 true false 7 (.reg 6)) := by decide +kernel
theorem test_decode_rdword_pre : decode 0b1111_1010111_001_000000101_111000011#32 =
    .ok (.rdword 15 false false 5 (.ptr .b (.pre 3))) := by decide +kernel
theorem test_decode_rdlong : decode 0b1111_1011000_110_000000101_000000110#32 =
    .ok (.rdlong 15 true true 5 (.reg 6)) := by decide +kernel
theorem test_decode_rdlong_immediate : decode 0b1111_1011000_001_000000101_011111111#32 =
    .ok (.rdlong 15 false false 5 (.imm 0xFF)) := by decide +kernel
theorem test_decode_wmlong : decode 0b1111_1010011_110_000000101_000000110#32 =
    .ok (.wmlong 15 5 (.reg 6)) := by decide +kernel
theorem test_decode_wrbyte : decode 0b1111_1100010_010_001000001_000000110#32 =
    .ok (.wrbyte 15 (.imm 0x41) (.reg 6)) := by decide +kernel
theorem test_decode_wrword : decode 0b1111_1100010_101_000000101_111111111#32 =
    .ok (.wrword 15 (.reg 5) (.ptr .b (.post (-1)))) := by decide +kernel
theorem test_decode_wrlong : decode 0b1111_1100011_001_000000101_101110000#32 =
    .ok (.wrlong 15 (.reg 5) (.ptr .a (.post (-16)))) := by decide +kernel
theorem test_decode_pusha : decode 0b1111_1100011_011_001010101_101100001#32 = .ok (.pusha 15 (.imm 0x55)) := by
  decide +kernel
theorem test_decode_pushb : decode 0b1111_1100011_001_000000101_111100001#32 = .ok (.pushb 15 (.reg 5)) := by
  decide +kernel
theorem test_decode_popa : decode 0b1111_1011000_111_000001001_101011111#32 = .ok (.popa 15 true true 9) := by
  decide +kernel
theorem test_decode_popb : decode 0b1111_1011000_011_000001001_111011111#32 = .ok (.popb 15 false true 9) := by
  decide +kernel
theorem test_decode_setq : decode 0b1111_1101011_001_000000011_000101000#32 = .ok (.setq 15 (.imm 3)) := by decide +kernel
theorem test_decode_setq2 : decode 0b1111_1101011_000_000010100_000101001#32 = .ok (.setq2 15 (.reg 20)) := by
  decide +kernel
theorem test_decode_condition : decode 0b0000_1011000_000_000000101_000000110#32 =
    .ok (.rdlong 0 false false 5 (.reg 6)) := by decide +kernel

/-- The words that match no row (95_test_vectors.md 2.1). -/
theorem test_decode_unknown : [0xFC700A06#32, 0xFA600A06#32, 0xFA680A06#32, 0xFA700A06#32, 0#32].all
    (fun w => decode w == .error .unknownWord) = true := by decide +kernel
/-- E19, E20 (R80). -/
theorem test_decode_index_zero : decode 0xFC640B60#32 = .error .indexFieldZero ∧
    decode 0xFB040B40#32 = .error .indexFieldZero := by decide +kernel
theorem test_encode_words : encode (.wmlong 15 5 (.imm 0x20)) = 0xFA7C0A20#32 ∧
    encode (.rdbyte 15 false false 8 (.ptr .a (.post (-1)))) = 0xFAC4117F#32 ∧
    encode (.setq 15 (.imm 511)) = 0xFD67FE28#32 := by decide +kernel
theorem test_decodeTableWord : decodeTableWord 32 0xFC640B61 = some (.pusha 15 (.reg 5)) ∧
    decodeTableWord 32 0xFC700A06 = none := by decide +kernel
/-- The rows of R57, R62 do not overlap, but for the aliases and the rows they are instances of. -/
theorem test_rows_apart : (tableRows.filter fun r => ["PUSHA", "PUSHB", "POPA", "POPB"].all (· != r.1)).Pairwise
    (fun r r' => (r.2.2 ^^^ r'.2.2) &&& r.2.1 &&& r'.2.1 ≠ 0) := by decide +kernel

/-! ### Reads (95_test_vectors.md 2.2, 2.4) -/

/-- The bytes of 2.2: 80 00 00 00 FF 7F 00 80 from $01000 on. -/
def readHub : Memory := withBytes [] 0x1000 [0x80, 0, 0, 0, 0xFF, 0x7F, 0, 0x80]

/-- A read with WCZ: register, C and Z after it. -/
def readBack (r : RegAddr) (w : Word) (s : State) : Option (Word × Bool × Bool) :=
  sees (fun t => (t.cog.reg r, t.cog.c, t.cog.z)) (runWord w s)

/-- V3: an unaligned long, C from bit 31. V5 with V7: the address is cut to 20 bits and taken before x6 is written.
E22: the address is settled although the new pointer is not. -/
theorem test_rdlong_single :
    readBack 5 0xFB180A06 (chip [(6, 0x1001)] 0 0 readHub) = some (0xFF000000, true, false) ∧
    readBack 6 0xFB000C06 (chip [(6, 0xFFF01000)] 0 0 readHub) = some (0x80, false, false) ∧
    sees (fun t => t.cog.reg 5) (runWord 0xFB040B61 (chip [] 0xFFF01000 0 readHub)) = some 0x80 := by decide +kernel
/-- V11. -/
theorem test_rdword_crossing : readBack 7 0xFAF80E06 (chip [(6, 0x1003)] 0 0 readHub) = some (0xFF00, true, false) := by
  decide +kernel
/-- V10. -/
theorem test_rdword_zero : readBack 7 0xFAF80E06 (chip [(6, 0x1002)] 0 0 readHub) = some (0, false, true) := by
  decide +kernel
/-- V13. -/
theorem test_rdbyte_sign : readBack 8 0xFAD81006 (chip [(6, 0x1000)] 0 0 readHub) = some (0x80, true, false) := by
  decide +kernel
/-- E12 with V16: the old upper bits are cleared and PTRA steps back by 1. -/
theorem test_rdbyte_post : sees (fun t => (t.cog.reg 8, t.cog.ptra, t.cog.ptrb))
    (runWord 0xFAC4117F (chip [(8, 0xFFFFFFFF)] 0x1000 0x2000 readHub)) = some (0x80, 0xFFF, 0x2000) := by
  decide +kernel

/-! ### Writes (2.3, 2.4) -/

/-- The bytes of 2.3: 11 22 33 44 55 66 77 88 from $02000 on. -/
def writeHub : Memory := withBytes [] 0x2000 [0x11, 0x22, 0x33, 0x44, 0x55, 0x66, 0x77, 0x88]

/-- The eight bytes after a write. -/
def written (w : Word) (s : State) : Option (List Byte) := sees (bytesFrom 0x2000 8) (runWord w s)

/-- W2: an unaligned long. W7: the register is both data and address. -/
theorem test_wrlong_single :
    written 0xFC600A06 (chip [(5, 0x89ABCDEF), (6, 0x2002)] 0 0 writeHub) =
      some [0x11, 0x22, 0xEF, 0xCD, 0xAB, 0x89, 0x77, 0x88] ∧
    written 0xFC600C06 (chip [(6, 0x2004)] 0 0 writeHub) = some [0x11, 0x22, 0x33, 0x44, 0x04, 0x20, 0, 0] := by
  decide +kernel
/-- W9. -/
theorem test_wrword_crossing : written 0xFC500A06 (chip [(5, 0x89ABCDEF), (6, 0x2003)] 0 0 writeHub) =
    some [0x11, 0x22, 0x33, 0xEF, 0xCD, 0x66, 0x77, 0x88] := by decide +kernel
/-- E8: PTRB-- steps by 2. -/
theorem test_wrword_post : sees (fun t => (bytesFrom 0x2000 3 t, t.cog.ptra, t.cog.ptrb))
    (runWord 0xFC540BFF (chip [(5, 0x89ABCDEF)] 0x1000 0x2000 writeHub)) =
    some ([0xEF, 0xCD, 0x33], 0x1000, 0x1FFE) := by decide +kernel
/-- W14: bit 8 of the immediate is dropped. -/
theorem test_wrbyte_immediate : written 0xFC4BFE06 (chip [(6, 0x2000)] 0 0 writeHub) =
    some [0xFF, 0x22, 0x33, 0x44, 0x55, 0x66, 0x77, 0x88] := by decide +kernel
/-- W22: the last populated byte; a zero byte is written, so the cell is gone. -/
theorem test_wrbyte_last : sees (fun t => t.hub) (runWord 0xFC400A06
    (chip [(6, 0x7FFFF)] 0 0 (withBytes [] 0x7FFFF [0x12]))) = some [] := by decide +kernel
/-- W15 and W18: the mask is by byte of the data, at an aligned and at an unaligned address. -/
theorem test_wmlong_single :
    written 0xFA780A06 (chip [(5, 0xAA00BB00), (6, 0x2000)] 0 0 writeHub) =
      some [0x11, 0xBB, 0x33, 0xAA, 0x55, 0x66, 0x77, 0x88] ∧
    written 0xFA780A06 (chip [(5, 0x00CD00EF), (6, 0x2003)] 0 0 writeHub) =
      some [0x11, 0x22, 0x33, 0xEF, 0x55, 0xCD, 0x77, 0x88] := by decide +kernel

/-! ### Aliases (2.5) -/

/-- A8: an unaligned stack. -/
theorem test_pusha_unaligned : sees (fun t => (bytesFrom 0x3002 4 t, t.cog.ptra))
    (runWord 0xFC640B61 (chip [(5, 0xCAFEF00D)] 0x3002 0 [])) = some ([0x0D, 0xF0, 0xFE, 0xCA], 0x3006) := by
  decide +kernel
/-- A3. -/
theorem test_pushb : sees (fun t => (bytesFrom 0x3100 4 t, t.cog.ptra, t.cog.ptrb))
    (runWord 0xFC640BE1 (chip [(5, 0xCAFEF00D)] 0x3000 0x3100 [])) =
    some ([0x0D, 0xF0, 0xFE, 0xCA], 0x3000, 0x3104) := by decide +kernel
/-- A4. -/
theorem test_popa : sees (fun t => (t.cog.reg 9, t.cog.ptra, t.cog.c, t.cog.z))
    (runWord 0xFB1C135F (chip [] 0x3004 0 (withBytes [] 0x3000 [0x0D, 0xF0, 0xFE, 0xCA]))) =
    some (0xCAFEF00D, 0x3000, true, false) := by decide +kernel
/-- A6. -/
theorem test_popb : sees (fun t => (t.cog.reg 9, t.cog.ptrb, t.cog.c, t.cog.z))
    (runWord 0xFB0C13DF (chip [] 0 0x3104 [])) = some (0, 0x3100, false, true) := by decide +kernel

/-! ### Prefixes and block transfers (2.6) -/

/-- The longs of B1 at $2000. -/
def blockHub : Memory :=
  withBytes [] 0x2000 [0x11, 0x11, 0x11, 0x11, 0x22, 0x22, 0x22, 0x22, 0, 0, 0, 0, 1, 0, 0, 0x80]

theorem test_setq : sees (fun t => (t.cog.q, t.cog.qpfx, t.cog.pc)) (runWord 0xFD640628 State.reset) =
    some (3, .setq, 1) := by decide +kernel
theorem test_setq2_register : sees (fun t => (t.cog.q, t.cog.qpfx)) (runWord 0xFD602829 (chip [(20, 1)] 0 0 [])) =
    some (1, .setq2) := by decide +kernel
/-- B2: the flags are those of the last long, and x19 is not written. B5: --PTRA steps by 4*N and the block runs upward.
B6: the D field is the index into Lookup RAM. -/
theorem test_rdlong_block :
    sees (fun t => ([16, 17, 18, 19].map t.cog.reg, t.cog.c, t.cog.z, t.cog.qpfx))
      (runWord 0xFB182006 (prefixed .setq 2 (chip [(6, 0x2000), (19, 7)] 0 0 blockHub))) =
      some ([0x11111111, 0x22222222, 0, 7], false, true, .none) ∧
    sees (fun t => ([16, 17, 18, 19].map t.cog.reg, t.cog.ptra))
      (runWord 0xFB04215F (prefixed .setq 3 (chip [] 0x2010 0 blockHub))) =
      some ([0x11111111, 0x22222222, 0, 0x80000001], 0x2000) ∧
    sees (fun t => ([0x30, 0x31, 0x32, 0x33].map t.cog.lutAt, t.cog.reg 0x30))
      (runWord 0xFB006006 (prefixed .setq2 3 (chip [(6, 0x2000)] 0 0 blockHub))) =
      some ([0x11111111, 0x22222222, 0, 0x80000001], 0) := by decide +kernel
/-- B9. -/
theorem test_wmlong_block : written 0xFA782006 (prefixed .setq 1 (chip [(6, 0x2000), (16, 0xAA00BB00)] 0 0 writeHub)) =
    some [0x11, 0xBB, 0x33, 0xAA, 0x55, 0x66, 0x77, 0x88] := by decide +kernel
/-- B8 and B10, with two longs each. -/
theorem test_wrlong_block :
    sees (fun t => (bytesFrom 0x2000 8 t, t.cog.ptra))
      (runWord 0xFC64215F (prefixed .setq 1 (chip [(16, 1), (17, 2)] 0x2008 0 writeHub))) =
      some ([1, 0, 0, 0, 2, 0, 0, 0], 0x2000) ∧
    written 0xFC6B4A06 (prefixed .setq 1 (chip [(6, 0x2000)] 0 0 writeHub)) =
      some [0xA5, 1, 0, 0, 0xA5, 1, 0, 0] := by decide +kernel
/-- B14, B15, B17, B18, B19, B22, B23, V18, W21: what is refused. -/
theorem test_refusals :
    refusal (runWord 0xFB002006 (prefixed .setq 3 (chip [(6, 0x2002)] 0 0 []))) = some .blockUnaligned ∧
    refusal (runWord 0xFB042101 (prefixed .setq 3 (chip [] 0x2000 0 []))) = some .blockPointerForm ∧
    refusal (runWord 0xFC6B4A06 (prefixed .setq2 3 (chip [(6, 0x2000)] 0 0 []))) = some .fillUnderSetq2 ∧
    refusal (runWord 0xFAE02206 (prefixed .setq 3 (chip [(6, 0x2000)] 0 0 []))) = some .prefixPending ∧
    refusal (runWord 0xFD640628 (prefixed .setq 3 State.reset)) = some .prefixPending ∧
    refusal (runWord 0xFB002006 (prefixed .setq 1 (chip [(6, 0x7FFFC)] 0 0 []))) = some .unpopulatedHub ∧
    refusal (runWord 0xFB03FC06 (prefixed .setq 3 (chip [(6, 0x2000)] 0 0 []))) = some .blockRange ∧
    refusal (runWord 0xFB000A06 (chip [(6, 0x80000)] 0 0 [])) = some .unpopulatedHub ∧
    refusal (runWord 0xFC600A06 (chip [(6, 0xC0000)] 0 0 [])) = some .unpopulatedHub := by decide +kernel

/-! ### Witnesses: the hypotheses of the statements can be met -/

theorem witness_DecodeOfEncode : (Instr.wrlong 15 (.reg 5) (.ptr .a (.post (-16)))).wellFormed = true ∧
    (Instr.popa 0 true true 511).wellFormed = true := by decide

theorem witness_EncodeOfDecode : decode 0xFC640B70#32 = .ok (.wrlong 15 (.reg 5) (.ptr .a (.post (-16)))) := by
  decide +kernel

/-- The last address of each width, through a register with bits above 19 set. -/
theorem witness_RegisterFormAddress :
    namesPointer 6 = false ∧ namesPointer 0 = false ∧ namesPointer 511 = false ∧
    ∀ x ∈ [((0xFFF7FFFF : Word), Width.byte), (0x7FFFE, .word), (0x7FFFC, .long)],
      (chip [(6, x.1)] 0 0 []).cog.qpfx = .none ∧
      populated (((chip [(6, x.1)] 0 0 []).cog.reg 6).setWidth 20) x.2 = true := by decide +kernel

/-- Sums at both ends of 0 to 2^20 - 1. -/
theorem witness_UpdatingFormExact :
    ((1 : BitVec 5) ≠ 0 ∧ ((chip [] 0xFFFFE 0 []).cog.ptr .a).toNat < 2 ^ 20 ∧
      (((chip [] 0xFFFFE 0 []).cog.ptr .a).toNat : Int) + (1 : BitVec 5).toInt * Width.byte.scale < 2 ^ 20 ∧
      0 ≤ (((chip [] 0xFFFFE 0 []).cog.ptr .a).toNat : Int) + (1 : BitVec 5).toInt * Width.byte.scale) ∧
    ((-16 : BitVec 5) ≠ 0 ∧ ((chip [] 0 64 []).cog.ptr .b).toNat < 2 ^ 20 ∧
      0 ≤ (((chip [] 0 64 []).cog.ptr .b).toNat : Int) + (-16 : BitVec 5).toInt * Width.long.scale ∧
      (((chip [] 0 64 []).cog.ptr .b).toNat : Int) + (-16 : BitVec 5).toInt * Width.long.scale < 2 ^ 20) := by
  decide +kernel

theorem witness_UpdatingFormBeyondRange : (-1 : BitVec 5) ≠ 0 := by decide

/-- Every clause at an end of its range. -/
theorem witness_BlockFormAddress :
    namesPointer 0x1F7 = false ∧ namesPointer 0x1FA = false ∧
    ((chip [] 0x7FFFF 0 []).cog.ptr .a).toNat + 4 * 0x20000 < 2 ^ 20 ∧
    (((chip [] 16 0 []).cog.ptr .a).toNat < 2 ^ 20 ∧ 4 * 4 ≤ ((chip [] 16 0 []).cog.ptr .a).toNat) ∧
    (-32 : BitVec 6) ≠ 0 ∧ ((2 : BitVec 5) ≠ 1 ∧ (2 : BitVec 5) ≠ -1) ∧
    ((0 : BitVec 5) ≠ 1 ∧ (0 : BitVec 5) ≠ -1) := by decide +kernel

theorem witness_RdlongResult : ∃ s1, (chip [(6, 0x7FFFC)] 0 0 []).cog.qpfx = .none ∧ namesPointer 5 = false ∧
    effAddr (.reg 6) 4 (chip [(6, 0x7FFFC)] 0 0 []) = .ok (0x7FFFC, s1) ∧ populated 0x7FFFC .long = true := by
  obtain ⟨s1, h⟩ := ok_of_addrOf
    (show addrOf (effAddr (.reg 6) 4 (chip [(6, 0x7FFFC)] 0 0 [])) = some 0x7FFFC by decide +kernel)
  exact ⟨s1, by decide +kernel, by decide, h, by decide +kernel⟩

theorem witness_RdwordResult : ∃ s1, (chip [] 0x7FFFC 0 []).cog.qpfx = .none ∧ namesPointer 511 = false ∧
    effAddr (.ptr .a (.pre 1)) 2 (chip [] 0x7FFFC 0 []) = .ok (0x7FFFE, s1) ∧ populated 0x7FFFE .word = true := by
  obtain ⟨s1, h⟩ := ok_of_addrOf
    (show addrOf (effAddr (.ptr .a (.pre 1)) 2 (chip [] 0x7FFFC 0 [])) = some 0x7FFFE by decide +kernel)
  exact ⟨s1, by decide +kernel, by decide, h, by decide +kernel⟩

theorem witness_RdbyteResult : ∃ s1, State.reset.cog.qpfx = .none ∧ namesPointer 0 = false ∧
    effAddr (.imm 255) 1 State.reset = .ok (255, s1) ∧ populated 255 .byte = true := by
  obtain ⟨s1, h⟩ := ok_of_addrOf (show addrOf (effAddr (.imm 255) 1 State.reset) = some 255 by decide +kernel)
  exact ⟨s1, by decide +kernel, by decide, h, by decide +kernel⟩

theorem witness_DataOperands : namesPointer 0 = false ∧ namesPointer 0x1F7 = false ∧ namesPointer 0x1FA = false := by
  decide

/-- Each width at its last populated address. -/
theorem witness_PlainWriteResult : ∀ x ∈ [((0x7FFFF : HubAddr), Width.byte), (0x7FFFE, .word), (0x7FFFC, .long)],
    ∃ s1, (chip [(6, x.1.setWidth 32)] 0 0 []).cog.qpfx = .none ∧
      readData (.imm 0x1FF) (chip [(6, x.1.setWidth 32)] 0 0 []) = .ok 0x1FF ∧
      effAddr (.reg 6) x.2.scale (chip [(6, x.1.setWidth 32)] 0 0 []) = .ok (x.1, s1) ∧ populated x.1 x.2 = true := by
  intro x hx
  have h : addrOf (effAddr (.reg 6) x.2.scale (chip [(6, x.1.setWidth 32)] 0 0 [])) = some x.1 ∧
      (chip [(6, x.1.setWidth 32)] 0 0 []).cog.qpfx = .none ∧ populated x.1 x.2 = true := by
    revert x; decide +kernel
  obtain ⟨s1, h1⟩ := ok_of_addrOf h.1
  exact ⟨s1, h.2.1, rfl, h1, h.2.2⟩

theorem witness_WmlongResult : ∃ s1, (chip [] 0x7FFFC 0 []).cog.qpfx = .none ∧ namesPointer 5 = false ∧
    effAddr (.ptr .a (.post 1)) 4 (chip [] 0x7FFFC 0 []) = .ok (0x7FFFC, s1) ∧ populated 0x7FFFC .long = true := by
  obtain ⟨s1, h⟩ := ok_of_addrOf
    (show addrOf (effAddr (.ptr .a (.post 1)) 4 (chip [] 0x7FFFC 0 [])) = some 0x7FFFC by decide +kernel)
  exact ⟨s1, by decide +kernel, by decide, h, by decide +kernel⟩

theorem witness_WmlongWithoutZeroByteIsWrlong : (chip [(5, 0x89ABCDEF)] 0 0 []).cog.qpfx = .none ∧
    ∀ i, i < 4 → ((chip [(5, 0x89ABCDEF)] 0 0 []).cog.reg 5).extractLsb' (8 * i) 8 ≠ 0#8 := by decide +kernel

/-- The last pointer of PTRA and the first of PTRB. -/
theorem witness_PushResult : (chip [] 0x7FFFC 0 []).cog.qpfx = .none ∧
    readData (.imm 0) (chip [] 0x7FFFC 0 []) = .ok 0 ∧ ((chip [] 0x7FFFC 0 []).cog.ptr .a).toNat + 4 ≤ Config.hubSize ∧
    ((chip [] 0x7FFFC 0 []).cog.ptr .b).toNat + 4 ≤ Config.hubSize := by decide +kernel

/-- The last pointer of PTRA and the first of PTRB. -/
theorem witness_PopResult : (chip [] 0x80000 4 []).cog.qpfx = .none ∧ namesPointer 9 = false ∧
    4 ≤ ((chip [] 0x80000 4 []).cog.ptr .a).toNat ∧ ((chip [] 0x80000 4 []).cog.ptr .a).toNat ≤ Config.hubSize ∧
    4 ≤ ((chip [] 0x80000 4 []).cog.ptr .b).toNat ∧ ((chip [] 0x80000 4 []).cog.ptr .b).toNat ≤ Config.hubSize := by
  decide +kernel

theorem witness_PushThenPop : (chip [(5, 7)] 0x7FFFC 0 []).cog.qpfx = .none ∧
    readData (.reg 5) (chip [(5, 7)] 0x7FFFC 0 []) = .ok 7 ∧ namesPointer 9 = false ∧
    ((chip [(5, 7)] 0x7FFFC 0 []).cog.ptr .a).toNat + 4 ≤ Config.hubSize := by decide +kernel

theorem witness_SetqResult : (chip [(20, 1)] 0 0 []).cog.qpfx = .none ∧
    readQArg (.reg 20) (chip [(20, 1)] 0 0 []) = .ok 1 ∧ readQArg (.imm 511) (chip [(20, 1)] 0 0 []) = .ok 511 := by
  decide +kernel

/-- The longest block of registers, ending at the last populated long. -/
theorem witness_BlockReadToRegisters :
    let s := prefixed .setq 0x1EF (chip [(6, 0x7F840)] 0 0 [])
    ∃ s1, s.cog.qpfx = .setq ∧ 0x1F0 = s.cog.q.toNat + 1 ∧ 0x1F0 ≤ Config.blockMax ∧
      (0 : RegAddr).toNat + 0x1F0 ≤ Config.regBlockLimit ∧ effAddrBlock (.reg 6) 0x1F0 s = .ok (0x7F840, s1) ∧
      (0x7F840 : HubAddr).toNat % 4 = 0 ∧ (0x7F840 : HubAddr).toNat + 4 * 0x1F0 ≤ Config.hubSize := by
  intro s
  obtain ⟨s1, h⟩ := ok_of_addrOf (show addrOf (effAddrBlock (.reg 6) 0x1F0 s) = some 0x7F840 by decide +kernel)
  exact ⟨s1, by decide +kernel, by decide +kernel, by decide, by decide, h, by decide, by decide⟩

/-- The longest block of Lookup RAM, through `--PTRA` down to address 0. -/
theorem witness_BlockReadToLut :
    let s := prefixed .setq2 511 (chip [] 2048 0 [])
    ∃ s1, s.cog.qpfx = .setq2 ∧ 512 = s.cog.q.toNat + 1 ∧ 512 ≤ Config.blockMax ∧
      (0 : RegAddr).toNat + 512 ≤ Config.lutSize ∧ effAddrBlock (.ptr .a (.pre (-1))) 512 s = .ok (0, s1) ∧
      (0 : HubAddr).toNat % 4 = 0 ∧ (0 : HubAddr).toNat + 4 * 512 ≤ Config.hubSize := by
  intro s
  obtain ⟨s1, h⟩ := ok_of_addrOf (show addrOf (effAddrBlock (.ptr .a (.pre (-1))) 512 s) = some 0 by decide +kernel)
  exact ⟨s1, by decide +kernel, by decide +kernel, by decide, by decide, h, by decide, by decide⟩

/-- One state for each clause. -/
theorem witness_BlockFlagsFromLastLong :
    let s := prefixed .setq 1 (chip [(6, 0x2000)] 0 0 blockHub)
    s.cog.qpfx ≠ .none ∧ (∃ s1 t, effAddrBlock (.reg 6) (s.cog.q.toNat + 1) s = .ok (0x2000, s1) ∧
      exec (.rdlong always true true 16 (.reg 6)) s = .next t) ∧
    (∃ t, exec (.wrlong always (.imm 5) (.reg 6)) s = .next t) ∧ ∃ t, exec (.wmlong always 16 (.reg 6)) s = .next t := by
  intro s
  obtain ⟨s1, h⟩ := ok_of_addrOf (show addrOf (effAddrBlock (.reg 6) 2 s) = some 0x2000 by decide +kernel)
  obtain ⟨t, ht⟩ := next_of_sees (f := fun _ => ())
    (show (sees (fun _ => ()) (exec (.rdlong always true true 16 (.reg 6)) s)).isSome = true by decide +kernel)
  exact ⟨by decide +kernel, ⟨s1, t, h, ht⟩,
    next_of_sees (f := fun _ => ()) (by decide +kernel), next_of_sees (f := fun _ => ()) (by decide +kernel)⟩

/-- Both cog-side memories, at the end of their ranges. -/
theorem witness_BlockWriteResult :
    let s := prefixed .setq 1 (chip [(6, 0x7FFF8)] 0 0 [])
    let s' := prefixed .setq2 1 (chip [(6, 0x7FFF8)] 0 0 [])
    (∃ s1, s.cog.qpfx = .setq ∧ 2 = s.cog.q.toNat + 1 ∧ 2 ≤ Config.blockMax ∧
      (0x1EE : RegAddr).toNat + 2 ≤ Config.regBlockLimit ∧ effAddrBlock (.reg 6) 2 s = .ok (0x7FFF8, s1) ∧
      (0x7FFF8 : HubAddr).toNat % 4 = 0 ∧ (0x7FFF8 : HubAddr).toNat + 4 * 2 ≤ Config.hubSize) ∧
    ∃ s1, s'.cog.qpfx = .setq2 ∧ 2 = s'.cog.q.toNat + 1 ∧ (0x1FE : RegAddr).toNat + 2 ≤ Config.lutSize ∧
      effAddrBlock (.reg 6) 2 s' = .ok (0x7FFF8, s1) := by
  intro s s'
  obtain ⟨s1, h⟩ := ok_of_addrOf (show addrOf (effAddrBlock (.reg 6) 2 s) = some 0x7FFF8 by decide +kernel)
  obtain ⟨s2, h'⟩ := ok_of_addrOf (show addrOf (effAddrBlock (.reg 6) 2 s') = some 0x7FFF8 by decide +kernel)
  exact ⟨⟨s1, by decide +kernel, by decide +kernel, by decide, by decide, h, by decide, by decide⟩,
    s2, by decide +kernel, by decide +kernel, by decide, h'⟩

/-- The hypotheses are those of `BlockWriteResult`. -/
theorem witness_BlockMaskedWriteResult :
    let s := prefixed .setq 1 (chip [(6, 0x7FFF8)] 0 0 [])
    ∃ s1, s.cog.qpfx = .setq ∧ 2 = s.cog.q.toNat + 1 ∧ 2 ≤ Config.blockMax ∧
      (0x1EE : RegAddr).toNat + 2 ≤ Config.regBlockLimit ∧ effAddrBlock (.reg 6) 2 s = .ok (0x7FFF8, s1) ∧
      (0x7FFF8 : HubAddr).toNat % 4 = 0 ∧ (0x7FFF8 : HubAddr).toNat + 4 * 2 ≤ Config.hubSize :=
  witness_BlockWriteResult.1

/-- A fill of the whole populated Hub RAM. -/
theorem witness_FillResult :
    let s := prefixed .setq 0x1FFFF (chip [] 0 0 [])
    ∃ s1, s.cog.qpfx = .setq ∧ (∀ r, Data.imm 0x1A5 ≠ .reg r) ∧ readData (.imm 0x1A5) s = .ok 0x1A5 ∧
      0x20000 = s.cog.q.toNat + 1 ∧ 0x20000 ≤ Config.blockMax ∧ effAddrBlock (.imm 0) 0x20000 s = .ok (0, s1) ∧
      (0 : HubAddr).toNat % 4 = 0 ∧ (0 : HubAddr).toNat + 4 * 0x20000 ≤ Config.hubSize := by
  intro s
  obtain ⟨s1, h⟩ := ok_of_addrOf (show addrOf (effAddrBlock (.imm 0) 0x20000 s) = some 0 by decide +kernel)
  exact ⟨s1, by decide +kernel, by simp, rfl, by decide +kernel, by decide, h, by decide, by decide⟩

/-- The last register and the last long. -/
theorem witness_BlockOfOneIsSingle :
    let s := prefixed .setq 0 (chip [] 0x7FFFC 0 [])
    ∃ s1, s.cog.qpfx = .setq ∧ s.cog.q = 0 ∧ (0x1EF : RegAddr).toNat + 1 ≤ Config.regBlockLimit ∧
      effAddrBlock (.ptr .a (.post 1)) 1 s = .ok (0x7FFFC, s1) ∧ (0x7FFFC : HubAddr).toNat % 4 = 0 ∧
      (0x7FFFC : HubAddr).toNat + 4 ≤ Config.hubSize := by
  intro s
  obtain ⟨s1, h⟩ := ok_of_addrOf (show addrOf (effAddrBlock (.ptr .a (.post 1)) 1 s) = some 0x7FFFC by decide +kernel)
  exact ⟨s1, by decide +kernel, by decide +kernel, by decide, h, by decide, by decide⟩

/-- Each read completes: RDBYTE, RDWORD, and RDLONG under every prefix. -/
theorem witness_ReadFrame :
    let s := chip [(6, 0x2000)] 0 0 blockHub
    (∃ t, exec (.rdbyte always true false 5 (.reg 6)) s = .next t) ∧
    (∃ t, exec (.rdword always false true 5 (.ptr .a (.post 1))) s = .next t) ∧
    (∃ t, exec (.rdlong always false false 5 (.reg 6)) s = .next t) ∧
    (∃ t, exec (.rdlong always false false 5 (.reg 6)) (prefixed .setq 1 s) = .next t) ∧
    ∃ t, exec (.rdlong always false false 5 (.reg 6)) (prefixed .setq2 1 s) = .next t := by
  intro s
  exact ⟨next_of_sees (f := fun _ => ()) (by decide +kernel), next_of_sees (f := fun _ => ()) (by decide +kernel),
    next_of_sees (f := fun _ => ()) (by decide +kernel), next_of_sees (f := fun _ => ()) (by decide +kernel),
    next_of_sees (f := fun _ => ()) (by decide +kernel)⟩

theorem witness_WriteFrame :
    let s := chip [(6, 0x2000)] 0 0 writeHub
    s.cog.qpfx = .none ∧ (∃ t, exec (.wrbyte always (.imm 1) (.reg 6)) s = .next t) ∧
    (∃ t, exec (.wrword always (.reg 5) (.ptr .b (.post 1))) s = .next t) ∧
    (∃ t, exec (.wrlong always (.aug 0x89ABCDEF) (.reg 6)) s = .next t) ∧
    ∃ t, exec (.wmlong always 5 (.reg 6)) s = .next t := by
  intro s
  exact ⟨by decide +kernel, next_of_sees (f := fun _ => ()) (by decide +kernel),
    next_of_sees (f := fun _ => ()) (by decide +kernel), next_of_sees (f := fun _ => ()) (by decide +kernel),
    next_of_sees (f := fun _ => ()) (by decide +kernel)⟩

theorem witness_BlockWriteFrame :
    let s := prefixed .setq 1 (chip [(6, 0x2000)] 0 0 writeHub)
    s.cog.qpfx ≠ .none ∧ (∃ t, exec (.wrlong always (.imm 1) (.reg 6)) s = .next t) ∧
    ∃ t, exec (.wmlong always 5 (.reg 6)) s = .next t := by
  intro s
  exact ⟨by decide +kernel, next_of_sees (f := fun _ => ()) (by decide +kernel),
    next_of_sees (f := fun _ => ()) (by decide +kernel)⟩

theorem witness_PrefixFrame : (∃ t, exec (.setq always (.imm 3)) State.reset = .next t) ∧
    ∃ t, exec (.setq2 always (.imm 3)) State.reset = .next t :=
  ⟨next_of_sees (f := fun _ => ()) (by decide +kernel), next_of_sees (f := fun _ => ()) (by decide +kernel)⟩

theorem witness_EveryInstructionAdvances : ∃ t, exec (.pusha always (.imm 5)) State.reset = .next t :=
  next_of_sees (f := fun _ => ()) (by decide +kernel)

/-- A read that does change both flags. -/
theorem witness_FlagsWrittenByReadsOnly : ∃ t, exec (.rdlong always true true 5 (.imm 0))
      (chip [] 0 0 (withBytes [] 3 [0x80])) = .next t ∧
    t.cog.c ≠ (chip [] 0 0 (withBytes [] 3 [0x80])).cog.c := by
  have h : sees (fun t => t.cog.c) (exec (.rdlong always true true 5 (.imm 0)) (chip [] 0 0 (withBytes [] 3 [0x80]))) =
      some true := by decide +kernel
  obtain ⟨t, ht⟩ := next_of_sees (show (sees (fun t => t.cog.c) _).isSome = true by rw [h]; rfl)
  rw [ht] at h
  refine ⟨t, ht, ?_⟩
  have hc : t.cog.c = true := by simpa [sees] using h
  rw [hc]; decide +kernel

/-- Two states that differ in the acting cog's number, and in another cog. -/
theorem witness_NoCogReadsAnother :
    let s := State.reset
    let s' := { State.reset with cur := 1, cogs := State.reset.cogs.set 0 { Cog.reset with pc := 5 } }
    s.hub = s'.hub ∧ s.cog = s'.cog ∧ s.cur ≠ s'.cur :=
  ⟨rfl, rfl, by decide⟩

/-- The first address beyond each width, and an access that wraps to address 0. -/
theorem witness_UnpopulatedIsRefused :
    ∀ x ∈ [((0x80000 : HubAddr), Width.byte, 0), (0x7FFFF, .word, 1), (0x7FFFD, .long, 3), (0xFFFFF, .word, 0)],
    ∃ s1, (chip [(6, x.1.setWidth 32)] 0 0 []).cog.qpfx = .none ∧ namesPointer 5 = false ∧
      readData (.imm 7) (chip [(6, x.1.setWidth 32)] 0 0 []) = .ok 7 ∧
      effAddr (.reg 6) x.2.1.scale (chip [(6, x.1.setWidth 32)] 0 0 []) = .ok (x.1, s1) ∧ x.2.2 < x.2.1.scale ∧
      Config.hubSize ≤ (x.1.toNat + x.2.2) % 2 ^ 20 := by
  intro x hx
  have h : addrOf (effAddr (.reg 6) x.2.1.scale (chip [(6, x.1.setWidth 32)] 0 0 [])) = some x.1 ∧
      (chip [(6, x.1.setWidth 32)] 0 0 []).cog.qpfx = .none ∧ x.2.2 < x.2.1.scale ∧
      Config.hubSize ≤ (x.1.toNat + x.2.2) % 2 ^ 20 := by revert x; decide +kernel
  obtain ⟨s1, h1⟩ := ok_of_addrOf h.1
  exact ⟨s1, h.2.1, by decide, rfl, h1, h.2.2⟩

theorem witness_PrefixBeforeOthersIsRefused : (prefixed .setq 0 State.reset).cog.qpfx ≠ .none ∧
    (prefixed .setq2 0 State.reset).cog.qpfx ≠ .none := by decide +kernel

/-- Each clause just beyond its limit, after each prefix; a fill longer than any cog-side range. -/
theorem witness_BlockRefusals :
    (∀ r, Data.imm 0x1A5 ≠ .reg r) ∧ (∀ r, Data.aug 0xFFFFFFFF ≠ .reg r) ∧
    (∀ x ∈ [(Prefix.setq, Config.regBlockLimit, (0x1EE : RegAddr)), (.setq2, Config.lutSize, 0x1FE)],
      let s := prefixed x.1 1 (chip [(6, 0x2002), (7, 0x7FFFC)] 0 0 [])
      ((s.cog.qpfx = .setq ∧ x.2.1 = Config.regBlockLimit) ∨ (s.cog.qpfx = .setq2 ∧ x.2.1 = Config.lutSize)) ∧
      Config.blockMax < (prefixed x.1 0x20000 s).cog.q.toNat + 1 ∧
      2 = s.cog.q.toNat + 1 ∧ 2 ≤ Config.blockMax ∧ x.2.1 < (x.2.2 + 1).toNat + 2 ∧ x.2.2.toNat + 2 ≤ x.2.1 ∧
      addrOf (effAddrBlock (.reg 6) 2 s) = some 0x2002 ∧ (0x2002 : HubAddr).toNat % 4 ≠ 0 ∧
      addrOf (effAddrBlock (.reg 7) 2 s) = some 0x7FFFC ∧ (0x7FFFC : HubAddr).toNat % 4 = 0 ∧
      Config.hubSize < (0x7FFFC : HubAddr).toNat + 4 * 2) ∧
    ((32 : BitVec 6) ≠ 0 ∧ (-2 : BitVec 5) ≠ 1 ∧ (-2 : BitVec 5) ≠ -1) ∧
    (let s := prefixed .setq 0x1F0 (chip [(6, 0x7FFFC)] 0 0 [])
     0x1F1 = s.cog.q.toNat + 1 ∧ 0x1F1 ≤ Config.blockMax ∧ addrOf (effAddrBlock (.reg 6) 0x1F1 s) = some 0x7FFFC ∧
      Config.hubSize < (0x7FFFC : HubAddr).toNat + 4 * 0x1F1) := by
  exact ⟨by simp, by simp, by decide +kernel, by decide, by decide +kernel⟩

/-- Both pointer registers; every width of a single access, and a block after each prefix. -/
theorem witness_OperandRefusals : namesPointer 0x1F8 = true ∧ namesPointer 0x1F9 = true ∧
    State.reset.cog.qpfx = .none ∧ namesPointer 0x1F7 = false ∧ readData (.imm 7) State.reset = .ok 7 ∧
    (∀ n ∈ [1, 2, 4], addrOf (effAddr (.ptr .a (.post 1)) n State.reset) = some 0) ∧
    (∀ r, Data.imm 5 ≠ .reg r) ∧
    ∀ x ∈ [(Prefix.setq, Config.regBlockLimit, (0x1EE : RegAddr)), (.setq2, Config.lutSize, 0x1FE)],
      let s := prefixed x.1 1 State.reset
      2 = s.cog.q.toNat + 1 ∧ 2 ≤ Config.blockMax ∧ x.2.2.toNat + 2 ≤ x.2.1 ∧
      ((s.cog.qpfx = .setq ∧ x.2.1 = Config.regBlockLimit) ∨ (s.cog.qpfx = .setq2 ∧ x.2.1 = Config.lutSize)) :=
  ⟨by decide, by decide, by decide +kernel, by decide, rfl, by decide +kernel, by simp, by decide +kernel⟩

/-- With no turn ahead, and with a turn of another cog. -/
theorem witness_StepRunsDecodedInstruction :
    let s := State.reset.withFetchWord 32 0xFC640B61
    let s' : State := { s with cur := 3, turns := [.whole 0] }
    (fetch s = some 0xFC640B61#32 ∧ decode 0xFC640B61#32 = .ok (.pusha 15 (.reg 5)) ∧ s.cog.inFlight = none ∧
      s.turns = []) ∧
    s'.turns = .whole 0 :: [] ∧ fetch { s' with cur := 0, turns := [] } = some 0xFC640B61#32 := by decide +kernel

theorem witness_PlacedWordRuns : (Instr.setq2 15 (.imm 511)).wellFormed = true := by decide

/-- One state for each clause, with no turn ahead and at a turn of each kind. -/
theorem witness_StepRefusals :
    (State.reset.turns = [] ∧ State.reset.cog.inFlight = none ∧ State.reset.cog.prog.length ≤ State.reset.cog.pc) ∧
    (fetch (State.reset.withFetchWord 32 0) = some 0#32 ∧ decode 0#32 = .error .unknownWord) ∧
    (fetch (State.reset.withFetchWord 32 0xFB040B40) = some 0xFB040B40#32 ∧
      decode 0xFB040B40#32 = .error .indexFieldZero) ∧
    ∀ turn ∈ [Turn.whole 0, .event 0 true],
      let s : State := { State.reset.withFetchWord 32 0x0B040B40 with cur := 3, turns := [turn] }
      ({ s with cur := 7, turns := [] } : State).cog.prog.length ≤ ({ s with cur := 7, turns := [] } : State).cog.pc ∧
      ({ s with cur := 0, turns := [] } : State).cog.inFlight = none ∧
      fetch { s with cur := 0, turns := [] } = some 0x0B040B40#32 ∧
      decode 0x0B040B40#32 = .error .indexFieldZero := by decide +kernel

theorem witness_EndedRunStops : State.reset.ended := by
  show ∀ k : Fin 8, (State.reset.cogs.get k).prog.length ≤ (State.reset.cogs.get k).pc ∧
    (State.reset.cogs.get k).inFlight = none
  decide +kernel

/-- A sound state with a step. -/
theorem witness_StepKeepsInv : (State.reset.withFetchWord 32 0xFC6CAB61).Inv ∧
    ∃ t, step (State.reset.withFetchWord 32 0xFC6CAB61) = .next t := by
  refine ⟨⟨by decide +kernel, by decide +kernel, fun k t h => ?_⟩, next_of_sees (f := fun _ => ()) (by decide +kernel)⟩
  have hn : ∀ k : Fin 8, ((State.reset.withFetchWord 32 0xFC6CAB61).cogs.get k).inFlight = none := by decide +kernel
  rw [hn k] at h
  cases h

theorem witness_ProgramTextConstant : ∃ t, step (State.reset.withFetchWord 32 0xFC6CAB61) = .next t :=
  witness_StepKeepsInv.2

theorem witness_StepTouchesOneCog : ∃ t, step (State.reset.withFetchWord 32 0xFC6CAB61) = .next t ∧ (7 : Fin 8) ≠ t.cur := by
  obtain ⟨t, h⟩ := next_of_sees (show (sees (fun t => t.cur) (step (State.reset.withFetchWord 32 0xFC6CAB61))).isSome = true
    by decide +kernel)
  have hc : sees (fun t => t.cur) (step (State.reset.withFetchWord 32 0xFC6CAB61)) = some 0 := by decide +kernel
  rw [h] at hc
  refine ⟨t, h, ?_⟩
  have : t.cur = 0 := by simpa [sees] using hc
  rw [this]; decide

theorem witness_ProgramIsStraightLine :
    let s := State.reset.setCog { State.reset.cog with prog := [0xFC6CAB61, 0xFB04135F] }
    s.turns = [] ∧ s.cog.inFlight = none ∧ s.cog.pc ≤ s.cog.prog.length ∧
      ∃ t, Host.Core.run Sys2Proof.core 2 s = .next t := by
  intro s
  exact ⟨rfl, by decide +kernel, by decide +kernel, next_of_sees (f := fun _ => ()) (by decide +kernel)⟩

/-- An aligned long read, and a word write that ends at a long boundary. -/
theorem witness_UncrossedAccessIsOneEvent :
    (∀ s1 w a d wc wz todo got, issue (.rdlong always false false 5 (.imm 0x40)) State.reset =
      some (.ok (s1, .load w a d wc wz todo got)) → crosses a w = false) ∧
    (∀ s1 a v masked todo, issue (.wrword always (.imm 5) (.imm 0x42)) State.reset =
      some (.ok (s1, .store a v masked todo)) → ∀ j ∈ todo, inFirstLong a j = true) := by
  constructor
  · intro s1 w a d wc wz todo got h
    have h : issueRead .long false false 5 (.imm 0x40) State.reset = .ok (s1, .load w a d wc wz todo got) := by
      simpa [issue, issueRdlong, State.reset, State.cog, Cog.reset, Vector.get] using h
    obtain ⟨b, h1, h2, -⟩ := issueRead_ok h
    cases h1; cases h2
    decide
  · intro s1 a v masked todo h
    have h : issueWrite .word false (.imm 5) (.imm 0x42) State.reset = .ok (s1, .store a v masked todo) := by
      simpa [issue, issueNarrowWrite, State.reset, State.cog, Cog.reset, Vector.get] using h
    obtain ⟨b, x, h1, h2, -⟩ := issueWrite_ok h
    cases h1; cases h2
    decide

/-- A crossing RDLONG alone on its cog: its first event parks the rest. -/
def tornReader : State :=
  (chip [(6, 0x1003)] 0 0 readHub).withFetchWord 32 0xFB000A06

/-- Both cases: an event that ends the instruction (an aligned push), and one that does not. -/
theorem witness_EventsComposeToInstruction :
    (∃ t, runEvent false (State.reset.withFetchWord 32 0xFC6CAB61) = .next t ∧ t.cog.inFlight = none) ∧
    ∃ t, runEvent true tornReader = .next t ∧ t.cog.inFlight ≠ none := by
  have h1 : sees (fun t => t.cog.inFlight.isSome) (runEvent false (State.reset.withFetchWord 32 0xFC6CAB61)) =
      some false := by decide +kernel
  have h2 : sees (fun t => t.cog.inFlight.isSome) (runEvent true tornReader) = some true := by decide +kernel
  obtain ⟨t, ht⟩ := next_of_sees (show (sees (fun t => t.cog.inFlight.isSome)
    (runEvent false (State.reset.withFetchWord 32 0xFC6CAB61))).isSome = true by rw [h1]; rfl)
  obtain ⟨u, hu⟩ := next_of_sees (show (sees (fun t => t.cog.inFlight.isSome)
    (runEvent true tornReader)).isSome = true by rw [h2]; rfl)
  rw [ht] at h1
  rw [hu] at h2
  refine ⟨⟨t, ht, ?_⟩, u, hu, fun e => ?_⟩
  · simpa [sees] using h1
  · simp [sees, e] at h2

/-- Cog 0 pushes by WRLONG, cog 1 reads the same address. -/
theorem witness_ReadSeesOtherCogsWrite :
    let s := chip [] 0 0 []
    ∃ s1 t u1, s.cog.qpfx = .none ∧ readData (.imm 7) s = .ok 7 ∧ effAddr (.imm 0x41) 4 s = .ok (0x41, s1) ∧
      exec (.wrlong always (.imm 7) (.imm 0x41)) s = .next t ∧ (1 : Fin 8) ≠ s.cur ∧
      ({ t with cur := 1 } : State).cog.qpfx = .none ∧ namesPointer 5 = false ∧
      effAddr (.imm 0x41) 4 { t with cur := 1 } = .ok (0x41, u1) := by
  intro s
  have h : sees (fun t => ({ t with cur := 1 } : State).cog.qpfx) (exec (.wrlong always (.imm 7) (.imm 0x41)) s) =
      some .none := by decide +kernel
  obtain ⟨t, ht⟩ := next_of_sees (show (sees (fun t => ({ t with cur := 1 } : State).cog.qpfx)
    (exec (.wrlong always (.imm 7) (.imm 0x41)) s)).isSome = true by rw [h]; rfl)
  rw [ht] at h
  exact ⟨s, t, { t with cur := 1 }, by decide +kernel, rfl, rfl, ht, by decide +kernel, by simpa [sees] using h,
    by decide, rfl⟩

/-- Cog 0 reads across a long boundary, cog 1 writes there between the two events. -/
theorem witness_CrossingReadCanBeTorn :
    let s := chip [] 0 0 readHub
    ∃ t r q, s.cog.qpfx = .none ∧ s.cog.inFlight = none ∧ namesPointer 5 = false ∧
      effAddr (.imm 0x43) 4 s = .ok (0x43, s) ∧ populated 0x43 .long = true ∧ (0x43 : HubAddr).toNat % 4 ≠ 0 ∧
      begin_ false (.rdlong always true true 5 (.imm 0x43)) s = .next t ∧ (1 : Fin 8) ≠ s.cur ∧
      ({ t with cur := 1 } : State).cog.qpfx = .none ∧ readData (.imm 7) { t with cur := 1 } = .ok 7 ∧
      effAddr (.imm 0x43) 4 { t with cur := 1 } = .ok (0x43, { t with cur := 1 }) ∧
      exec (.wrlong always (.imm 7) (.imm 0x43)) { t with cur := 1 } = .next r ∧
      runEvent false { r with cur := s.cur } = .next q := by
  intro s
  let second : State → Host.Outcome State Fault Refusal := fun t =>
    exec (.wrlong always (.imm 7) (.imm 0x43)) { t with cur := 1 }
  let third : State → Host.Outcome State Fault Refusal := fun r => runEvent false { r with cur := s.cur }
  have h : sees (fun t => (({ t with cur := 1 } : State).cog.qpfx, (sees (fun r => (sees (fun _ => ()) (third r)).isSome)
      (second t)))) (begin_ false (.rdlong always true true 5 (.imm 0x43)) s) = some (.none, some true) := by
    decide +kernel
  obtain ⟨t, ht⟩ : ∃ t, begin_ false (.rdlong always true true 5 (.imm 0x43)) s = .next t :=
    next_of_sees (f := fun _ => ()) (by decide +kernel)
  rw [ht] at h
  have hq : ({ t with cur := 1 } : State).cog.qpfx = .none := congrArg Prod.fst (Option.some.inj h)
  replace h : sees (fun r => (sees (fun _ => ()) (third r)).isSome) (second t) = some true :=
    congrArg Prod.snd (Option.some.inj h)
  obtain ⟨r, hr⟩ := next_of_sees (show (sees (fun r => (sees (fun _ => ()) (third r)).isSome) (second t)).isSome = true by
    rw [h]; rfl)
  rw [hr] at h
  obtain ⟨q, hq'⟩ := next_of_sees (show (sees (fun _ => ()) (third r)).isSome = true by simpa [sees] using h)
  exact ⟨t, r, q, by decide +kernel, by decide +kernel, by decide, rfl, by decide +kernel, by decide, ht,
    by decide +kernel, hq, rfl, rfl, hr, hq'⟩

theorem witness_SlicesRotate : sliceOf ((0 : HubAddr) + BitVec.ofNat 20 (4 * 7)) = sliceOf 0x7FFFC ∧ 7 < 8 ∧
    0 < waitCycles 7 0 := by decide

theorem witness_CycleRangesFollow : cogexecRange (.rdbyte always true true 5 (.reg 6)) = some (9, 16) ∧
    cogexecRange (.wrword always (.reg 5) (.reg 6)) = some (3, 11) := by decide

end Sys2Proof.Tests
end

section
/-! PROOFS. The masked write of Hub RAM (20_memory.md R33): the laws of `scatter` at the four offsets of a long. -/

namespace Sys2Proof.Machine

/-- A byte of the access is written when the data's byte is not zero, and kept otherwise. -/
theorem Memory.readByte_writeMasked_same (m : Memory) (a : HubAddr) (v : Word) {i : Nat} (hi : i < 4) :
    (m.writeMasked a v).readByte (byteAddr a i) =
      if byteAt v i = 0 then m.readByte (byteAddr a i) else byteAt v i := by
  have mem : i ∈ Width.long.bytes := (Width.mem_bytes .long i).mpr hi
  simpa [Memory.writeMasked] using Memory.readByte_scatter_same m true v a _ i
    (Width.bytes_nodup .long) (Width.bytes_lt .long) mem

/-- A byte outside the access is kept. -/
theorem Memory.readByte_writeMasked_other (m : Memory) (a : HubAddr) (v : Word) {b : Nat}
    (h : ∀ i, i < 4 → b ≠ byteAddr a i) : (m.writeMasked a v).readByte b = m.readByte b :=
  Memory.readByte_scatter_other m true v a _ b (fun i hi => h i ((Width.mem_bytes .long i).mp hi))

/-- Settles O13: each byte of the access by the law of a masked write at that byte, every other one by its frame. -/
theorem maskedWriteSkipsZeroBytes : Obligations.MaskedWriteSkipsZeroBytes := by
  intro m a v
  simp only [← byteAddr_eq]
  exact ⟨fun _ hi => m.readByte_writeMasked_same a v hi, fun _ => m.readByte_writeMasked_other a v⟩

end Sys2Proof.Machine
end

section
/-! PROOFS. The stack aliases (30_encoding.md R64): the S operand each alias implies is encoded as the S field that is
fixed in its row (R58). -/

namespace Sys2Proof

theorem encodeSrc_push_a : encodeSrc (.ptr .a (.post 1)) = (true, sPushA) := by decide

theorem encodeSrc_push_b : encodeSrc (.ptr .b (.post 1)) = (true, sPushB) := by decide

theorem encodeSrc_pop_a : encodeSrc (.ptr .a (.pre (-1))) = (true, sPopA) := by decide

theorem encodeSrc_pop_b : encodeSrc (.ptr .b (.pre (-1))) = (true, sPopB) := by decide

namespace Machine

/-- Settles O22: an alias sets up its base instruction's transfer under the same condition field, so the outcomes are
equal by definition; the words are equal because the S operand it implies encodes to the S field of its row. -/
theorem aliasesAreBaseInstructions : Obligations.AliasesAreBaseInstructions := by
  intro e wc wz d data s
  refine ⟨⟨rfl, ?pusha⟩, ⟨rfl, ?pushb⟩, ⟨rfl, ?popa⟩, ⟨rfl, ?popb⟩⟩
  case pusha => simp only [encode, encodeSrc_push_a]
  case pushb => simp only [encode, encodeSrc_push_b]
  case popa => simp only [encode, encodeSrc_pop_a]
  case popb => simp only [encode, encodeSrc_pop_b]

end Machine

end Sys2Proof
end

section
/-! PROOFS. The register and immediate forms of the address operand (40_pointer_expressions.md R71, R72), and a single
read that completes (41_hub_reads.md R90). -/

namespace Sys2Proof.Machine

/-- R71, in a single access. -/
theorem effAddr_reg {r : RegAddr} (scale : Nat) (s : State) (hr : namesPointer r = false) :
    effAddr (.reg r) scale s = .ok ((s.cog.reg r).setWidth 20, s) := by
  simp [effAddr, readReg_of s hr]

@[simp] theorem Cog.reg_completeLoad_same (w : Width) (d : RegAddr) (wc wz : Bool) (v : Word) (s : State) :
    (completeLoad w d wc wz v s).cog.reg d = v := by simp [completeLoad]

section SingleRead

variable {w : Width} {d : RegAddr} {src : Src} {s s1 : State} {a : HubAddr}

/-- A single read whose destination and address are valid ends with the value Hub RAM held before the instruction; a
pointer update is already in `s1`. -/
theorem perform_issueRead (wc wz : Bool) (hd : namesPointer d = false) (ha : effAddr src w.scale s = .ok (a, s1))
    (hp : populated a w = true) :
    perform (issueRead w wc wz d src s) = .next (completeLoad w d wc wz (s.hub.read a w) s1) := by
  obtain ⟨hub, -⟩ := (effAddr_ok ha).same
  simp [issueRead_of hd ha hp, perform, Transfer.finish, Memory.read, hub]

/-! With no prefix pending each read instruction is a single read of its width (R91 to R93). -/

theorem exec_rdbyte_single (wc wz : Bool) (hq : s.cog.qpfx = .none) :
    exec (.rdbyte always wc wz d src) s = perform (issueRead .byte wc wz d src s) := by
  simp [exec, execRdbyte, hq]

theorem exec_rdword_single (wc wz : Bool) (hq : s.cog.qpfx = .none) :
    exec (.rdword always wc wz d src) s = perform (issueRead .word wc wz d src s) := by
  simp [exec, execRdword, hq]

theorem exec_rdlong_single (wc wz : Bool) (hq : s.cog.qpfx = .none) :
    exec (.rdlong always wc wz d src) s = perform (issueRead .long wc wz d src s) := by
  simp [exec, execRdlong, issueRdlong, hq]

end SingleRead

/-- A single read with S = D takes its address from the old x[D] and leaves the value read there in x[D]. -/
theorem perform_issueRead_own_address {w : Width} {r : RegAddr} {s : State} (wc wz : Bool)
    (hr : namesPointer r = false) (hp : populated ((s.cog.reg r).setWidth 20) w = true) :
    ∃ t, perform (issueRead w wc wz r (.reg r) s) = .next t ∧
      t.cog.reg r = s.hub.read ((s.cog.reg r).setWidth 20) w :=
  ⟨_, perform_issueRead wc wz hr (effAddr_reg w.scale s hr) hp, Cog.reg_completeLoad_same ..⟩

/-- Settles O5: the register form's equation, and one read through its own destination at each of the three widths. -/
theorem registerFormAddress : Obligations.RegisterFormAddress := by
  intro r s hr
  refine ⟨fun scale => effAddr_reg scale s hr, fun wc wz hq => ?_⟩
  rw [exec_rdbyte_single wc wz hq, exec_rdword_single wc wz hq, exec_rdlong_single wc wz hq]
  exact ⟨perform_issueRead_own_address wc wz hr, perform_issueRead_own_address wc wz hr,
    perform_issueRead_own_address wc wz hr⟩

/-- Settles O6: both address functions give the 8-bit value zero-extended, so no bit of it is lost in 20 bits. -/
theorem immediateFormAddress : Obligations.ImmediateFormAddress := by
  intro v s
  have value_kept : (v.setWidth 20).toNat = v.toNat := BitVec.toNat_setWidth_of_le (by decide)
  exact ⟨v.setWidth 20, value_kept, fun _ => rfl, fun _ => rfl⟩

end Sys2Proof.Machine
end

section
/-! PROOFS. The flags of a block transfer (43_block_transfers.md R123): a long instruction with a prefix pending is one
block transfer; a block read ends with the flags of its last long, a block write and a fill with those before it. -/

namespace Sys2Proof.Machine

section Block

variable {d : RegAddr} {src : Src} {s t : State}

/-! With a prefix pending each long instruction is a block transfer to or from the side the prefix names (R116 to
R121). -/

theorem exec_rdlong_block (wc wz : Bool) (hq : s.cog.qpfx ≠ .none) :
    ∃ m, exec (.rdlong always wc wz d src) s = perform (issueBlockRead m wc wz d src s) := by
  cases hp : s.cog.qpfx with
  | none => exact absurd hp hq
  | setq => exact ⟨.regs, by simp [exec, execRdlong, issueRdlong, hp]⟩
  | setq2 => exact ⟨.lut, by simp [exec, execRdlong, issueRdlong, hp]⟩

theorem exec_wrlong_block (data : Data) (hq : s.cog.qpfx ≠ .none) :
    ∃ m, exec (.wrlong always data src) s = perform (issueBlockWrlong m data src s) := by
  cases hp : s.cog.qpfx with
  | none => exact absurd hp hq
  | setq => exact ⟨.regs, by simp [exec, execWrlong, issueWrlong, hp]⟩
  | setq2 => exact ⟨.lut, by simp [exec, execWrlong, issueWrlong, hp]⟩

theorem exec_wmlong_block (hq : s.cog.qpfx ≠ .none) :
    ∃ m, exec (.wmlong always d src) s = perform (issueBlockWrite m true d src s) := by
  cases hp : s.cog.qpfx with
  | none => exact absurd hp hq
  | setq => exact ⟨.regs, by simp [exec, execWmlong, issueWmlong, hp]⟩
  | setq2 => exact ⟨.lut, by simp [exec, execWmlong, issueWmlong, hp]⟩

/-- A block read that completes has the flags of its last long: the pointer update before the longs moves neither a
flag nor Hub RAM. -/
theorem perform_issueBlockRead_flags {m : Side} {wc wz : Bool} {a : HubAddr} {s1 : State}
    (ha : effAddrBlock src (s.cog.q.toNat + 1) s = .ok (a, s1))
    (h : perform (issueBlockRead m wc wz d src s) = .next t) :
    let last := s.hub.read (a + BitVec.ofNat 20 (4 * s.cog.q.toNat)) .long
    t.cog.c = (if wc then topBit .long last else s.cog.c) ∧ t.cog.z = (if wz then last == 0 else s.cog.z) := by
  obtain ⟨s2, tr, hi, rfl⟩ := perform_next h
  obtain ⟨b, rfl, hb, -, hfits, -⟩ := issueBlockRead_ok hi
  obtain ⟨rfl, rfl⟩ : a = b ∧ s1 = s2 := by simpa [ha] using hb
  obtain ⟨hub, -, -, c, z, -⟩ := (effAddrBlock_ok ha).same
  obtain ⟨-, -, hc, hz, -⟩ := loadBlock_spec m wc wz s.cog.q.toNat a d s1 (blockFits_le hfits)
  rw [hub, c] at hc
  rw [hub, z] at hz
  exact ⟨hc, hz⟩

/-! What a block write leaves of the acting cog: the pointer update, and the end of the instruction. -/

theorem Transfer.cog_finish_blockStore (origin : BlockSrc) (a : HubAddr) (k : RegAddr) (n : Nat) (masked : Bool)
    (s : State) : ((Transfer.blockStore origin a k n masked).finish s).cog = s.cog.retire := by
  simp [Transfer.finish]

theorem perform_issueBlockWrite_cog {m : Side} {masked : Bool}
    (h : perform (issueBlockWrite m masked d src s) = .next t) :
    ∃ s1, PointerMoved src s s1 ∧ t.cog = s1.cog.retire := by
  obtain ⟨s1, tr, hi, rfl⟩ := perform_next h
  obtain ⟨a, rfl, ha, -⟩ := issueBlockWrite_ok hi
  exact ⟨s1, effAddrBlock_ok ha, Transfer.cog_finish_blockStore ..⟩

theorem perform_issueFill_cog {m : Side} {v : Word} (h : perform (issueFill m v src s) = .next t) :
    ∃ s1, PointerMoved src s s1 ∧ t.cog = s1.cog.retire := by
  obtain ⟨s1, tr, hi, rfl⟩ := perform_next h
  obtain ⟨a, rfl, ha, -⟩ := issueFill_ok hi
  exact ⟨s1, effAddrBlock_ok ha, Transfer.cog_finish_blockStore ..⟩

theorem perform_issueBlockWrlong_cog {m : Side} {data : Data}
    (h : perform (issueBlockWrlong m data src s) = .next t) :
    ∃ s1, PointerMoved src s s1 ∧ t.cog = s1.cog.retire := by
  cases data with
  | reg d => exact perform_issueBlockWrite_cog h
  | imm v => exact perform_issueFill_cog h
  | aug v => exact perform_issueFill_cog h

/-- Neither a pointer update nor the end of an instruction writes a flag. -/
theorem flags_of_pointerMoved_retire (h : ∃ s1, PointerMoved src s s1 ∧ t.cog = s1.cog.retire) :
    t.cog.c = s.cog.c ∧ t.cog.z = s.cog.z := by
  obtain ⟨s1, moved, ht⟩ := h
  obtain ⟨-, -, -, c, z, -⟩ := moved.same
  simp [ht, c, z]

end Block

/-- Settles O29: each of the three instructions is a block transfer of the side its prefix names; the closed form of a
block read gives the flags of the long at A + 4Q, and a block write ends with the flags the pointer update left. -/
theorem blockFlagsFromLastLong : Obligations.BlockFlagsFromLastLong := by
  intro s t hq
  refine ⟨fun wc wz d src a s1 ha h => ?rdlong, fun data src h => ?wrlong, fun d src h => ?wmlong⟩
  case rdlong =>
    obtain ⟨m, hm⟩ := exec_rdlong_block (d := d) (src := src) wc wz hq
    have flags := perform_issueBlockRead_flags ha (hm ▸ h)
    simpa only [topBit, beq_eq_decide] using flags
  case wrlong =>
    obtain ⟨m, hm⟩ := exec_wrlong_block (src := src) data hq
    exact flags_of_pointerMoved_retire (perform_issueBlockWrlong_cog (hm ▸ h))
  case wmlong =>
    obtain ⟨m, hm⟩ := exec_wmlong_block (d := d) (src := src) hq
    exact flags_of_pointerMoved_retire (perform_issueBlockWrite_cog (hm ▸ h))

end Sys2Proof.Machine
end

section
/-! PROOFS. Decoder and encoder (30_encoding.md R50 to R62): each is the other's inverse, field by field, and a word is
unknown exactly when its fields fit no row of the table. -/

namespace Sys2Proof

/-! ### From an instruction to its word and back -/

/-- Two S operands with the same I bit and S field are the same operand. -/
theorem encodeSrc_inj {src src' : Src} (h : src.wellFormed = true) (h' : src'.wellFormed = true) :
    src = src' ↔ encodeSrc src = encodeSrc src' := by
  refine ⟨congrArg encodeSrc, fun e => ?_⟩
  have read_back := decodeSrc_encodeSrc src h
  rw [e, decodeSrc_encodeSrc src' h'] at read_back
  cases read_back
  rfl

/-- Only the S operand `PTRx++` is encoded as the rows of PUSHA and PUSHB have it (R58). -/
theorem isPush_iff {src : Src} (h : src.wellFormed = true) :
    src.isPush = true ↔ encodeSrc src = (true, sPushA) ∨ encodeSrc src = (true, sPushB) := by
  rw [← encodeSrc_push_a, ← encodeSrc_push_b, ← encodeSrc_inj h rfl, ← encodeSrc_inj h rfl]
  simp [Src.isPush]

/-- Only the S operand `--PTRx` is encoded as the rows of POPA and POPB have it (R58). -/
theorem isPop_iff {src : Src} (h : src.wellFormed = true) :
    src.isPop = true ↔ encodeSrc src = (true, sPopA) ∨ encodeSrc src = (true, sPopB) := by
  rw [← encodeSrc_pop_a, ← encodeSrc_pop_b, ← encodeSrc_inj h rfl, ← encodeSrc_inj h rfl]
  simp [Src.isPop]

/-- The decoder reads a well-formed S operand back from the word it was encoded in. -/
theorem withSrc_mkWord (e : Cond) (op7 : BitVec 7) (b20 b19 : Bool) (d : BitVec 9) {src : Src} (mk : Src → Instr)
    (h : src.wellFormed = true) :
    withSrc (mkWord e op7 b20 b19 (encodeSrc src).1 d (encodeSrc src).2) mk = .ok (mk src) := by
  simp [withSrc, decodeSrc_encodeSrc src h]

/-- Settles O1: the fields of the word are those `encode` put together, so the decoder takes the instruction's own
branch; a RDLONG or WRLONG misses the alias branches because its S operand is not the alias's. -/
theorem decodeOfEncode : Obligations.DecodeOfEncode := by
  intro i hi
  cases i with
  | rdbyte e wc wz d src => simp [encode, decode, withSrc_mkWord _ _ _ _ _ _ hi]
  | rdword e wc wz d src => simp [encode, decode, withSrc_mkWord _ _ _ _ _ _ hi]
  | rdlong e wc wz d src =>
    obtain ⟨hs, hpop⟩ : src.wellFormed = true ∧ ¬ src.isPop = true := by simpa [Instr.wellFormed] using hi
    rw [isPop_iff hs, not_or, Prod.ext_iff, Prod.ext_iff] at hpop
    simp [encode, decode, hpop, withSrc_mkWord _ _ _ _ _ _ hs]
  | wmlong e d src => simp [encode, decode, withSrc_mkWord _ _ _ _ _ _ hi]
  | wrbyte e data src =>
    obtain ⟨hd, hs⟩ : data.wellFormed = true ∧ src.wellFormed = true := by simpa [Instr.wellFormed] using hi
    simp [encode, decode, withSrc_mkWord _ _ _ _ _ _ hs, decodeData_encodeData data hd]
  | wrword e data src =>
    obtain ⟨hd, hs⟩ : data.wellFormed = true ∧ src.wellFormed = true := by simpa [Instr.wellFormed] using hi
    simp [encode, decode, withSrc_mkWord _ _ _ _ _ _ hs, decodeData_encodeData data hd]
  | wrlong e data src =>
    obtain ⟨⟨hd, hs⟩, hpush⟩ : (data.wellFormed = true ∧ src.wellFormed = true) ∧ ¬ src.isPush = true := by
      simpa [Instr.wellFormed] using hi
    rw [isPush_iff hs, not_or, Prod.ext_iff, Prod.ext_iff] at hpush
    simp [encode, decode, hpush, withSrc_mkWord _ _ _ _ _ _ hs, decodeData_encodeData data hd]
  | pusha e data => simp [encode, decode, decodeData_encodeData data hi]
  | pushb e data => simp [encode, decode, decodeData_encodeData data hi, sPushA, sPushB]
  | popa e wc wz d => simp [encode, decode]
  | popb e wc wz d => simp [encode, decode, sPopA, sPopB]
  | setq e arg => simp [encode, decode]
  | setq2 e arg => simp [encode, decode, sSetq, sSetq2]

/-! ### From a word to its instruction and back -/

/-- What the S operand of a decoded word was read from. -/
theorem withSrc_ok {w : Word} {mk : Src → Instr} {i : Instr} (h : withSrc w mk = .ok i) :
    ∃ src, i = mk src ∧ encodeSrc src = (fB18 w, fS w) ∧ src.wellFormed = true := by
  simp only [withSrc] at h
  split at h
  · next src hsrc =>
    cases h
    exact ⟨src, rfl, encodeSrc_decodeSrc _ _ src hsrc⟩
  · cases h

/-- A branch of the decoder that reads an S operand, and whose instruction has the word's other fields. -/
theorem encode_of_withSrc {w : Word} {mk : Src → Instr} {i : Instr} (h : withSrc w mk = .ok i)
    (henc : ∀ src, encode (mk src) =
      mkWord (fCond w) (fOp7 w) (fB20 w) (fB19 w) (encodeSrc src).1 (fD w) (encodeSrc src).2)
    (hwf : ∀ src, encodeSrc src = (fB18 w, fS w) → src.wellFormed = true → (mk src).wellFormed = true) :
    encode i = w ∧ i.wellFormed = true := by
  obtain ⟨src, rfl, hsrc, hs⟩ := withSrc_ok h
  refine ⟨?_, hwf src hsrc hs⟩
  rw [henc, hsrc]
  exact mkWord_fields w

/-- A branch of the decoder that reads no S operand. -/
theorem encode_of_fields {w : Word} {i : Instr} (hwf : i.wellFormed = true)
    (henc : encode i = mkWord (fCond w) (fOp7 w) (fB20 w) (fB19 w) (fB18 w) (fD w) (fS w)) :
    encode i = w ∧ i.wellFormed = true := ⟨henc.trans (mkWord_fields w), hwf⟩

/-- Settles O2: along the decoder's branches; what a branch tested and what its operands were read from are all the
fields of the word. -/
theorem encodeOfDecode : Obligations.EncodeOfDecode := by
  intro w i h
  unfold decode at h
  split at h
  case isTrue hop => exact encode_of_withSrc h (by simp [encode, hop]) (fun _ _ hs => hs)
  split at h
  case isTrue hop => exact encode_of_withSrc h (by simp [encode, hop]) (fun _ _ hs => hs)
  split at h
  case isTrue hop =>
    split at h
    case isTrue sField => cases h; exact encode_of_fields rfl (by simp [encode, hop, sField])
    split at h
    case isTrue sField => cases h; exact encode_of_fields rfl (by simp [encode, hop, sField])
    next not_a not_b =>
      refine encode_of_withSrc h (by simp [encode, hop]) (fun src hsrc hs => ?_)
      have not_pop : ¬ src.isPop = true := by
        rw [isPop_iff hs, hsrc]
        simpa [not_or] using And.intro not_a not_b
      simp [Instr.wellFormed, hs, not_pop]
  split at h
  case isTrue hop =>
    split at h
    case isTrue bits => exact encode_of_withSrc h (by simp [encode, hop, bits]) (fun _ _ hs => hs)
    cases h
  split at h
  case isTrue hop =>
    split at h
    case isTrue h20 =>
      exact encode_of_withSrc h (by simp [encode, hop, h20]) (fun _ _ hs => by simp [Instr.wellFormed, hs])
    next h20 =>
      exact encode_of_withSrc h (by simp [encode, hop, h20]) (fun _ _ hs => by simp [Instr.wellFormed, hs])
  split at h
  case isTrue hop =>
    split at h
    · cases h
    next h20 =>
    split at h
    case isTrue sField =>
      cases h; exact encode_of_fields (by simp [Instr.wellFormed]) (by simp [encode, hop, h20, sField])
    split at h
    case isTrue sField =>
      cases h; exact encode_of_fields (by simp [Instr.wellFormed]) (by simp [encode, hop, h20, sField])
    next not_a not_b =>
      refine encode_of_withSrc h (by simp [encode, hop, h20]) (fun src hsrc hs => ?_)
      have not_push : ¬ src.isPush = true := by
        rw [isPush_iff hs, hsrc]
        simpa [not_or] using And.intro not_a not_b
      simp [Instr.wellFormed, hs, not_push]
  split at h
  case isTrue hop =>
    split at h
    · cases h
    next bits =>
    obtain ⟨h20, h19⟩ := not_or.mp bits
    split at h
    case isTrue hs => cases h; exact encode_of_fields rfl (by simp [encode, hop, h20, h19, hs])
    split at h
    case isTrue hs => cases h; exact encode_of_fields rfl (by simp [encode, hop, h20, h19, hs])
    cases h
  cases h

/-! ### The table -/

/-- A word matches a row when its fields, masked, are those of the row's match. -/
theorem matchesRow_iff (w : Word) (row : String × Word × Word) : matchesRow w row = true ↔
    fCond w &&& fCond row.2.1 = fCond row.2.2 ∧ fOp7 w &&& fOp7 row.2.1 = fOp7 row.2.2 ∧
    (fB20 w && fB20 row.2.1) = fB20 row.2.2 ∧ (fB19 w && fB19 row.2.1) = fB19 row.2.2 ∧
    (fB18 w && fB18 row.2.1) = fB18 row.2.2 ∧ fD w &&& fD row.2.1 = fD row.2.2 ∧
    fS w &&& fS row.2.1 = fS row.2.2 := by
  rw [← mkWord_inj, ← mkWord_and, mkWord_fields, mkWord_fields, mkWord_fields, matchesRow, beq_iff_eq]

/-- The fields of a word of one of the instructions (R57, R58, R62). -/
def Known (w : Word) : Prop :=
  fOp7 w = 0b1010110#7 ∨ fOp7 w = 0b1010111#7 ∨ fOp7 w = 0b1011000#7 ∨
  (fOp7 w = 0b1010011#7 ∧ fB20 w = true ∧ fB19 w = true) ∨ fOp7 w = 0b1100010#7 ∨
  (fOp7 w = 0b1100011#7 ∧ fB20 w = false) ∨
  (fOp7 w = 0b1101011#7 ∧ fB20 w = false ∧ fB19 w = false ∧ (fS w = sSetq ∨ fS w = sSetq2))

/-- The S operand is never why a word is unknown. -/
theorem withSrc_ne_unknown (w : Word) (mk : Src → Instr) : withSrc w mk ≠ .error .unknownWord := by
  intro h
  simp only [withSrc, decodeSrc] at h
  split at h
  · cases h
  · next r hr =>
    cases h
    split_ifs at hr
    cases hr

theorem decode_unknown_iff (w : Word) : decode w = .error .unknownWord ↔ ¬ Known w := by
  unfold decode Known
  split
  case isTrue hop => simp [hop, withSrc_ne_unknown]
  split
  case isTrue hop => simp [hop, withSrc_ne_unknown]
  split
  case isTrue hop => split_ifs <;> simp [hop, withSrc_ne_unknown]
  split
  case isTrue hop => split_ifs with bits <;> simp_all [withSrc_ne_unknown]
  split
  case isTrue hop => split_ifs <;> simp [hop, withSrc_ne_unknown]
  split
  case isTrue hop => split_ifs <;> simp_all [withSrc_ne_unknown]
  split
  case isTrue hop =>
    split_ifs with bits
    · rcases bits with h | h <;> simp [hop, h]
    all_goals simp_all
  simp_all

/-- The four alias rows only repeat words of the rows of RDLONG and WRLONG, so they add no word (R58). -/
theorem matchesRow_known_iff (w : Word) : (∃ row ∈ tableRows, matchesRow w row = true) ↔ Known w := by
  simp only [matchesRow_iff, Known]
  generalize fCond w = e, fOp7 w = op, fB20 w = b20, fB19 w = b19, fB18 w = b18, fD w = d, fS w = s
  have whole_op : op &&& 127#7 = op := BitVec.and_allOnes
  have whole_s : s &&& 511#9 = s := BitVec.and_allOnes
  simp only [tableRows, List.mem_cons, List.not_mem_nil, or_false, exists_eq_or_imp, ↓existsAndEq, fCond, fOp7, fB20,
    fB19, fB18, fD, fS, sSetq, sSetq2, BitVec.reduceExtractLsb', BitVec.getLsbD_eq_getElem, Nat.reduceLT,
    BitVec.reduceGetElem, BitVec.and_zero, whole_op, whole_s, Bool.and_false, Bool.and_true, and_self, and_true,
    true_and]
  constructor
  · rintro (h | h | h | h | h | h | h | h | h | h | h | h | h) <;> simp [h]
  · rintro (h | h | h | h | h | h | ⟨h, h20, h19, hs | hs⟩)
    case inr.inr.inr.inr.inl => cases b20 <;> simp [h]
    all_goals simp [*]

/-- Settles O3: both sides say that the word's fields are not those of a known word. -/
theorem unknownWordMatchesNoRow : Obligations.UnknownWordMatchesNoRow := by
  intro w
  rw [decode_unknown_iff, ← matchesRow_known_iff]
  simp

/-- Settles O4: the decoder evaluated on each word. -/
theorem sampleWordsDecode : Obligations.SampleWordsDecode := by
  unfold Obligations.SampleWordsDecode
  decide +kernel

end Sys2Proof
end

section
/-! PROOFS. What an instruction does, said once: what setting up its transfer fixes, what finishing the transfer or
doing one event of it keeps, and exec and its first event in the form of one inversion each. -/

namespace Sys2Proof

/-- The effects WC and WZ of an instruction, which the reads alone can have (R15). -/
def Instr.effects : Instr → Bool × Bool
  | .rdbyte _ wc wz .. | .rdword _ wc wz .. | .rdlong _ wc wz .. | .popa _ wc wz _ | .popb _ wc wz _ => (wc, wz)
  | .wmlong .. | .wrbyte .. | .wrword .. | .wrlong .. | .pusha .. | .pushb .. | .setq .. | .setq2 .. => (false, false)

/-- The S operand of an instruction that accesses Hub RAM; an alias has the one of its base instruction (R64). -/
def Instr.source : Instr → Option Src
  | .rdbyte _ _ _ _ src | .rdword _ _ _ _ src | .rdlong _ _ _ _ src | .wmlong _ _ src | .wrbyte _ _ src
  | .wrword _ _ src | .wrlong _ _ src => some src
  | .pusha .. => some (.ptr .a (.post 1))
  | .pushb .. => some (.ptr .b (.post 1))
  | .popa .. => some (.ptr .a (.pre (-1)))
  | .popb .. => some (.ptr .b (.pre (-1)))
  | .setq .. | .setq2 .. => none

namespace Machine

/-- The effects a transfer still carries. -/
def Transfer.effects : Transfer → Bool × Bool
  | .load _ _ _ wc wz .. => (wc, wz)
  | .blockLoad _ _ _ _ wc wz => (wc, wz)
  | .store .. => (false, false)
  | .blockStore .. => (false, false)

/-! ### Setting up -/

/-- A transfer set up from `s`: at most the pointer has moved, what is to be done is sound, and it has the
instruction's effects. -/
structure Issued (src : Src) (effects : Bool × Bool) (s s1 : State) (t : Transfer) : Prop where
  moved : PointerMoved src s s1
  sound : t.sound
  effects : t.effects = effects

section Issued

variable {w : Width} {wc wz masked : Bool} {d : RegAddr} {data : Data} {m : Side} {v : Word} {src : Src}
  {s s1 : State} {t : Transfer}

/-- All the bytes of a populated access are sound work. -/
theorem bytes_sound {a : HubAddr} (h : populated a w = true) :
    w.bytes ≠ [] ∧ ∀ i ∈ w.bytes, i < 4 ∧ byteAddr a i < Config.hubSize := by
  refine ⟨by cases w <;> simp [Width.bytes], fun i hi => ⟨?_, ?_⟩⟩
  · have := (Width.mem_bytes w i).mp hi
    cases w <;> simp only [Width.scale] at this <;> omega
  · rw [byteAddr_eq]
    exact (populated_iff a w).mp h i ((Width.mem_bytes w i).mp hi)

theorem issueRead_issued (h : issueRead w wc wz d src s = .ok (s1, t)) : Issued src (wc, wz) s s1 t := by
  obtain ⟨a, rfl, ha, -, hp⟩ := issueRead_ok h
  exact ⟨effAddr_ok ha, bytes_sound hp, rfl⟩

theorem issueWrite_issued (h : issueWrite w masked data src s = .ok (s1, t)) : Issued src (false, false) s s1 t := by
  obtain ⟨a, v, rfl, ha, -, hp⟩ := issueWrite_ok h
  exact ⟨effAddr_ok ha, bytes_sound hp, rfl⟩

theorem issueNarrowRead_issued (h : issueNarrowRead w wc wz d src s = .ok (s1, t)) : Issued src (wc, wz) s s1 t := by
  obtain ⟨_, -, h⟩ := bind_ok h
  exact issueRead_issued h

theorem issueNarrowWrite_issued (h : issueNarrowWrite w data src s = .ok (s1, t)) :
    Issued src (false, false) s s1 t := by
  obtain ⟨_, -, h⟩ := bind_ok h
  exact issueWrite_issued h

theorem issueBlockRead_issued (h : issueBlockRead m wc wz d src s = .ok (s1, t)) : Issued src (wc, wz) s s1 t := by
  obtain ⟨a, rfl, ha, -, hfits, haligned, hp⟩ := issueBlockRead_ok h
  exact ⟨effAddrBlock_ok ha, ⟨Nat.succ_pos _, haligned, hp, hfits⟩, rfl⟩

theorem issueBlockWrite_issued (h : issueBlockWrite m masked d src s = .ok (s1, t)) :
    Issued src (false, false) s s1 t := by
  obtain ⟨a, rfl, ha, -, hfits, haligned, hp⟩ := issueBlockWrite_ok h
  exact ⟨effAddrBlock_ok ha, ⟨Nat.succ_pos _, haligned, hp, hfits⟩, rfl⟩

theorem issueFill_issued (h : issueFill m v src s = .ok (s1, t)) : Issued src (false, false) s s1 t := by
  obtain ⟨a, rfl, ha, -, -, haligned, hp⟩ := issueFill_ok h
  exact ⟨effAddrBlock_ok ha, ⟨Nat.succ_pos _, haligned, hp⟩, rfl⟩

theorem issueBlockWrlong_issued (h : issueBlockWrlong m data src s = .ok (s1, t)) :
    Issued src (false, false) s s1 t := by
  cases data with
  | reg d => exact issueBlockWrite_issued h
  | imm v => exact issueFill_issued h
  | aug v => exact issueFill_issued h

theorem issueRdlong_issued (h : issueRdlong wc wz d src s = .ok (s1, t)) : Issued src (wc, wz) s s1 t := by
  unfold issueRdlong at h
  split at h
  · exact issueRead_issued h
  · exact issueBlockRead_issued h
  · exact issueBlockRead_issued h

theorem issueWrlong_issued (h : issueWrlong data src s = .ok (s1, t)) : Issued src (false, false) s s1 t := by
  unfold issueWrlong at h
  split at h
  · exact issueWrite_issued h
  · exact issueBlockWrlong_issued h
  · exact issueBlockWrlong_issued h

theorem issueWmlong_issued (h : issueWmlong d src s = .ok (s1, t)) : Issued src (false, false) s s1 t := by
  unfold issueWmlong at h
  split at h
  · exact issueWrite_issued h
  · exact issueBlockWrite_issued h
  · exact issueBlockWrite_issued h

/-- Whatever instruction sets a transfer up. -/
theorem issue_issued {i : Instr} (h : issue i s = some (.ok (s1, t))) :
    ∃ src, i.source = some src ∧ Issued src i.effects s s1 t := by
  cases i with
  | rdbyte => exact ⟨_, rfl, issueNarrowRead_issued (Option.some.inj h)⟩
  | rdword => exact ⟨_, rfl, issueNarrowRead_issued (Option.some.inj h)⟩
  | rdlong => exact ⟨_, rfl, issueRdlong_issued (Option.some.inj h)⟩
  | wmlong => exact ⟨_, rfl, issueWmlong_issued (Option.some.inj h)⟩
  | wrbyte => exact ⟨_, rfl, issueNarrowWrite_issued (Option.some.inj h)⟩
  | wrword => exact ⟨_, rfl, issueNarrowWrite_issued (Option.some.inj h)⟩
  | wrlong => exact ⟨_, rfl, issueWrlong_issued (Option.some.inj h)⟩
  | pusha => exact ⟨_, rfl, issueWrlong_issued (Option.some.inj h)⟩
  | pushb => exact ⟨_, rfl, issueWrlong_issued (Option.some.inj h)⟩
  | popa => exact ⟨_, rfl, issueRdlong_issued (Option.some.inj h)⟩
  | popb => exact ⟨_, rfl, issueRdlong_issued (Option.some.inj h)⟩
  | setq => cases h
  | setq2 => cases h

end Issued

/-! ### Finishing -/

/-- The last long of a sound block read ends the instruction and alone writes flags. -/
theorem finish_blockLoad_cog {m : Side} {a : HubAddr} {k : RegAddr} {left : Nat} {wc wz : Bool} (s : State)
    (ht : (Transfer.blockLoad m a k left wc wz).sound) :
    let t := (Transfer.blockLoad m a k left wc wz).finish s
    t.cog.qpfx = .none ∧ t.cog.pc = s.cog.pc + 1 ∧
    (wc = false → t.cog.c = s.cog.c) ∧ (wz = false → t.cog.z = s.cog.z) := by
  obtain ⟨hpos, -, -, hfits⟩ := ht
  obtain ⟨n, rfl⟩ := Nat.exists_eq_succ_of_ne_zero (Nat.ne_of_gt hpos)
  obtain ⟨-, -, hc, hz, -, -, -, -, hq, hpc, -⟩ := loadBlock_spec m wc wz n a k s (blockFits_le hfits)
  exact ⟨hq, hpc, by rintro rfl; exact hc, by rintro rfl; exact hz⟩

/-- Finishing work that is left ends the instruction (R17, R112). -/
theorem Transfer.finish_retires {t : Transfer} (ht : t.sound) (s : State) :
    (t.finish s).cog.qpfx = .none ∧ (t.finish s).cog.pc = s.cog.pc + 1 := by
  cases t with
  | load => simp [Transfer.finish, completeLoad]
  | store => simp [Transfer.finish]
  | blockLoad =>
    obtain ⟨hq, hpc, -⟩ := finish_blockLoad_cog s ht
    exact ⟨hq, hpc⟩
  | blockStore => simp [Transfer.finish]

/-- Without WC a transfer leaves C, without WZ it leaves Z (R15). -/
theorem Transfer.finish_flags {t : Transfer} (ht : t.sound) (s : State) :
    (t.effects.1 = false → (t.finish s).cog.c = s.cog.c) ∧ (t.effects.2 = false → (t.finish s).cog.z = s.cog.z) := by
  cases t with
  | load w a d wc wz => constructor <;> rintro (rfl : _ = false) <;> simp [Transfer.finish, completeLoad]
  | store => simp [Transfer.finish]
  | blockLoad =>
    obtain ⟨-, -, flags⟩ := finish_blockLoad_cog s ht
    exact flags
  | blockStore => simp [Transfer.finish]

/-! ### An instruction and its first event -/

section Exec

variable {i : Instr} {s t : State}

/-- SETQ or SETQ2, with the prefix it leaves pending (R110, R111). -/
def IsPrefix (i : Instr) (p : Prefix) (arg : QArg) : Prop :=
  (i = .setq i.cond arg ∧ p = .setq) ∨ (i = .setq2 i.cond arg ∧ p = .setq2)

/-- An instruction that completes was skipped, or finished the transfer it set up, or set a prefix. -/
theorem exec_next (h : exec i s = .next t) :
    t = s.retire ∨ (∃ s1 tr, issue i s = some (.ok (s1, tr)) ∧ t = tr.finish s1) ∨
      ∃ p arg v, IsPrefix i p arg ∧ t = s.setCog { s.cog with q := v, qpfx := p, pc := s.cog.pc + 1 } := by
  obtain ⟨r, hi, he⟩ | ⟨-, p, arg, hp, he⟩ := exec_eq i s
  · obtain ⟨-, hran⟩ | ⟨-, rfl⟩ := runIf_next (he ▸ h)
    · obtain ⟨s1, tr, rfl, rfl⟩ := perform_next hran
      exact .inr (.inl ⟨s1, tr, hi, rfl⟩)
    · exact .inl rfl
  · obtain ⟨-, hran⟩ | ⟨-, rfl⟩ := runIf_next (he ▸ h)
    · obtain ⟨-, v, -, rfl⟩ := setPrefix_next hran
      exact .inr (.inr ⟨p, arg, v, hp, rfl⟩)
    · exact .inl rfl

/-- No instruction changes another cog, or its own list and work in progress. -/
theorem exec_frame (h : exec i s = .next t) : s.FrameOf t := by
  obtain rfl | ⟨s1, tr, hi, rfl⟩ | ⟨p, arg, v, -, rfl⟩ := exec_next h
  · exact .retire s
  · obtain ⟨src, -, issued⟩ := issue_issued hi
    exact issued.moved.frame.trans (tr.finish_frame s1)
  · exact .setCog rfl rfl

/-- Settles O38: a skipped word and a finished transfer end the instruction; SETQ and SETQ2 leave their own prefix. -/
theorem everyInstructionAdvances : Obligations.EveryInstructionAdvances := by
  intro i s t h
  obtain rfl | ⟨s1, tr, hi, rfl⟩ | ⟨p, arg, v, hp, rfl⟩ := exec_next h
  · simp
  · obtain ⟨src, -, issued⟩ := issue_issued hi
    obtain ⟨-, -, -, -, -, -, -, hpc, -⟩ := issued.moved.same
    obtain ⟨hq, hpc'⟩ := Transfer.finish_retires issued.sound s1
    exact ⟨by rw [hpc', hpc], .inl hq⟩
  · refine ⟨by simp, .inr ?_⟩
    obtain ⟨hi, rfl⟩ | ⟨hi, rfl⟩ := hp
    · exact .inl ⟨_, arg, hi, by simp⟩
    · exact .inr ⟨_, arg, hi, by simp⟩

/-- An instruction without WC leaves C, one without WZ leaves Z. -/
theorem exec_flags (h : exec i s = .next t) :
    (i.effects.1 = false → t.cog.c = s.cog.c) ∧ (i.effects.2 = false → t.cog.z = s.cog.z) := by
  obtain rfl | ⟨s1, tr, hi, rfl⟩ | ⟨p, arg, v, -, rfl⟩ := exec_next h
  · simp
  · obtain ⟨src, -, issued⟩ := issue_issued hi
    obtain ⟨-, -, -, c, z, -⟩ := issued.moved.same
    rw [← issued.effects, ← c, ← z]
    exact Transfer.finish_flags issued.sound s1
  · simp

/-- Settles O39: an instruction that changes a flag has that effect, and only the reads have effects. -/
theorem flagsWrittenByReadsOnly : Obligations.FlagsWrittenByReadsOnly := by
  intro i s t h
  obtain ⟨hc, hz⟩ := exec_flags h
  refine ⟨fun changed => ?c, fun changed => ?z⟩
  case c =>
    have wc : i.effects.1 = true := by simpa using mt hc changed
    cases i <;> simp_all [Instr.effects]
  case z =>
    have wz : i.effects.2 = true := by simpa using mt hz changed
    cases i <;> simp_all [Instr.effects]

end Exec

end Machine

end Sys2Proof
end

section
/-! PROOFS. Atomic events (20_memory.md R35, R40; 10_state.md R19): what one event leaves alone, that Hub RAM and the
work in progress stay sound, and that an event and the rest of its instruction make the whole instruction. -/

namespace Sys2Proof.Machine

/-! ### Parking -/

@[simp] theorem State.park_park (s : State) (x y : Option Transfer) : (s.park x).park y = s.park y := by
  simp [State.park]

@[simp] theorem State.park_self (s : State) : s.park s.cog.inFlight = s := State.setCog_self s

theorem State.cogs_park_other (s : State) (x : Option Transfer) {k : Fin 8} (hk : k ≠ s.cur) :
    (s.park x).cogs.get k = s.cogs.get k := State.cogs_setCog_other s _ k hk

theorem loadLong_park (m : Side) (a : HubAddr) (k : RegAddr) (s : State) (x : Option Transfer) :
    (loadLong m a k s).park x = loadLong m a k (s.park x) := by
  cases m <;> simp [loadLong, State.park, Cog.setSide, Cog.setReg, Cog.setLut]

theorem storeLong_park (src : BlockSrc) (a : HubAddr) (k : RegAddr) (masked : Bool) (s : State) (x : Option Transfer) :
    (storeLong src a k masked s).park x = storeLong src a k masked (s.park x) := by
  have value_park : src.value (s.park x).cog k = src.value s.cog k := by
    rw [State.cog_park]
    match src with
    | .side .regs => rfl
    | .side .lut => rfl
    | .fill v => rfl
  simp only [storeLong, value_park]
  rfl

/-- What one event, or the whole of an instruction, can change: as `State.FrameOf`, but the acting cog's work in
progress may be another. -/
def State.ActsTo (s t : State) : Prop := ∃ rest, (s.park rest).FrameOf t

theorem State.FrameOf.actsTo {s t : State} (h : s.FrameOf t) : s.ActsTo t := ⟨s.cog.inFlight, by simpa using h⟩

theorem State.FrameOf.park_congr {s u : State} (h : s.FrameOf u) (x : Option Transfer) :
    (s.park x).FrameOf (u.park x) where
  cur := h.cur
  turns := h.turns
  others k hk := by
    have hku : k ≠ u.cur := h.cur ▸ hk
    rw [u.cogs_park_other x hku, s.cogs_park_other x hk]
    exact h.others k hk
  prog := by simpa using h.prog
  inFlight := by simp

theorem State.ActsTo.cur {s t : State} (h : s.ActsTo t) : t.cur = s.cur := h.choose_spec.cur

theorem State.ActsTo.others {s t : State} (h : s.ActsTo t) {k : Fin 8} (hk : k ≠ s.cur) :
    t.cogs.get k = s.cogs.get k := by
  obtain ⟨rest, h⟩ := h
  rw [h.others k hk, s.cogs_park_other rest hk]

theorem State.ActsTo.prog {s t : State} (h : s.ActsTo t) (k : Fin 8) : (t.cogs.get k).prog = (s.cogs.get k).prog := by
  by_cases hk : k = s.cur
  · have acting : t.cogs.get k = t.cog := by rw [State.cog, h.cur, hk]
    obtain ⟨rest, h⟩ := h
    rw [acting, h.prog, hk, State.cog_park]
    rfl
  · rw [h.others hk]

/-- The longs of a block transfer, one event each, and the parts of a single access leave the same things alone. -/
theorem Transfer.event_actsTo (hiFirst : Bool) (t : Transfer) (s : State) : s.ActsTo (t.event hiFirst s) := by
  cases t with
  | load w a d wc wz todo got =>
    simp only [Transfer.event]
    split
    · exact ⟨none, completeLoad_frame ..⟩
    · exact ⟨_, .refl _⟩
  | store a v masked todo =>
    simp only [Transfer.event]
    split
    · exact ⟨none, ((State.FrameOf.setHub s _).park_congr none).trans (.retire _)⟩
    · exact ⟨_, (State.FrameOf.setHub s _).park_congr _⟩
  | blockLoad m a k left wc wz =>
    simp only [Transfer.event]
    split
    · exact ⟨none, ((loadLong_frame m a k s).park_congr none).trans (completeBlockLoad_frame ..)⟩
    · exact ⟨_, (loadLong_frame m a k s).park_congr _⟩
  | blockStore src a k left masked =>
    have long : s.FrameOf (storeLong src a k masked s) := .setHub s _
    simp only [Transfer.event]
    split
    · exact ⟨none, (long.park_congr none).trans (.retire _)⟩
    · exact ⟨_, long.park_congr _⟩

/-! ### Soundness of Hub RAM and of the work in progress -/

/-- The part of `State.Inv` that speaks of Hub RAM. -/
def Memory.Sound (m : Memory) : Prop := m.wf ∧ ∀ x ∈ m, x.1 < Config.hubSize

theorem Memory.Sound.scatter {m : Memory} (h : m.Sound) (masked : Bool) (v : Word) {a : HubAddr} {is : List Nat}
    (his : ∀ i ∈ is, byteAddr a i < Config.hubSize) : (m.scatter masked v a is).Sound := by
  refine ⟨Memory.scatter_wf masked v a is h.1, fun x hx => ?_⟩
  obtain ⟨i, hi, e⟩ | hx := Memory.scatter_keys hx
  · rw [e]; exact his i hi
  · exact h.2 x hx

/-- The first long of a block that lies in populated Hub RAM. -/
theorem firstLong_populated {a : HubAddr} {n : Nat} (h : blockPopulated a (n + 1) = true) :
    ∀ i ∈ Width.long.bytes, byteAddr a i < Config.hubSize := by
  intro i hi
  have hi := (Width.mem_bytes .long i).mp hi
  have h := of_decide_eq_true h
  simp only [Width.scale] at hi
  rw [byteAddr_eq]
  exact lt_of_le_of_lt (Nat.mod_le _ _) (by omega)

theorem blockPopulated_next {a : HubAddr} {n : Nat} (h : blockPopulated a (n + 2) = true) :
    blockPopulated (a + 4) (n + 1) = true := by
  have ha := nextLong_toNat h
  have h := of_decide_eq_true h
  exact decide_eq_true (by omega)

theorem blockFits_next {m : Side} {k : RegAddr} {n : Nat} (h : blockFits m k (n + 2) = true) :
    blockFits m (k + 1) (n + 1) = true := by
  have hk : (k + 1).toNat = k.toNat + 1 := by
    have := blockFits_le h
    rw [BitVec.toNat_add, show (1 : RegAddr).toNat = 1 from rfl]
    omega
  cases m <;> have h := of_decide_eq_true h <;> exact decide_eq_true (by omega)

theorem storeBlock_sound (src : BlockSrc) (masked : Bool) {n : Nat} {a : HubAddr} (k : RegAddr) {s : State}
    (hp : blockPopulated a n = true) (h : s.hub.Sound) : (storeBlock src masked n a k s).hub.Sound := by
  induction n generalizing a k s with
  | zero => exact h
  | succ n ih =>
    have first : (storeLong src a k masked s).hub.Sound := h.scatter _ _ (firstLong_populated hp)
    cases n with
    | zero => exact first
    | succ n => exact ih _ (blockPopulated_next hp) first

/-- Sound work writes populated Hub RAM only. -/
theorem Transfer.finish_hub {t : Transfer} (ht : t.sound) {s : State} (h : s.hub.Sound) : (t.finish s).hub.Sound := by
  cases t with
  | load => exact h
  | store a v masked todo => exact h.scatter _ _ (fun i hi => (ht.2 i hi).2)
  | blockLoad => simpa [Transfer.finish] using h
  | blockStore src a k left masked =>
    have hp : blockPopulated a left = true := by
      match src, ht with
      | .side _, ⟨_, _, hp, _⟩ => exact hp
      | .fill _, ⟨_, _, hp⟩ => exact hp
    simpa [Transfer.finish] using storeBlock_sound src masked k hp h

/-- What soundness says of the whole state is kept by what leaves all but Hub RAM and the acting cog alone. -/
theorem State.Inv.frame {s t : State} (hs : s.Inv) (h : s.FrameOf t) (hub : t.hub.Sound) : t.Inv where
  hub_wf := hub.1
  hub_populated := hub.2
  inFlight_sound k tr hk := by
    by_cases hcur : k = s.cur
    · rw [hcur, ← h.cur] at hk
      exact hs.inFlight_sound s.cur tr (h.inFlight ▸ hk)
    · exact hs.inFlight_sound k tr (h.others k hcur ▸ hk)

theorem State.Inv.park {s : State} (hs : s.Inv) {rest : Option Transfer} (hrest : ∀ tr, rest = some tr → tr.sound) :
    (s.park rest).Inv where
  hub_wf := hs.hub_wf
  hub_populated := hs.hub_populated
  inFlight_sound k tr hk := by
    by_cases hcur : k = s.cur
    · subst hcur
      rw [State.park, State.cogs_setCog_cur] at hk
      exact hrest tr hk
    · rw [s.cogs_park_other rest hcur] at hk
      exact hs.inFlight_sound k tr hk

theorem State.Inv.hub {s : State} (hs : s.Inv) : s.hub.Sound := ⟨hs.hub_wf, hs.hub_populated⟩

/-! ### An event and the rest of its instruction -/

/-- One event of `t` from `s` ends in `u`: the instruction has ended, as if all of `t` had been done, or `rest` is kept,
and doing all of `rest` is doing all of `t`. -/
def EventOf (t : Transfer) (s u : State) : Prop :=
  u = t.finish (s.park none) ∨
  ∃ (rest : Transfer) (v : State), u = v.park (some rest) ∧ rest.sound ∧ s.FrameOf v ∧ v.hub.Sound ∧
    rest.finish (v.park none) = t.finish (s.park none)

section EventOf

variable {s : State} (hub : s.hub.Sound) {a : HubAddr} (hiFirst : Bool)

/-- The work a single access leaves for its second event. -/
theorem splitPart_later_sound {todo : List Nat} (h : ∀ i ∈ todo, i < 4 ∧ byteAddr a i < Config.hubSize)
    (hne : (splitPart hiFirst a todo).2.isEmpty ≠ true) : (splitPart hiFirst a todo).2 ≠ [] ∧
      ∀ i ∈ (splitPart hiFirst a todo).2, i < 4 ∧ byteAddr a i < Config.hubSize :=
  ⟨fun e => hne (by rw [e]; rfl), fun i hi =>
    h i ((splitPart_perm hiFirst a todo).mem_iff.mp (List.mem_append_right _ hi))⟩

/-- Two parts of a single access that make all of it, in either order, are all of it. -/
theorem gather_splitPart (m : Memory) (a : HubAddr) (todo : List Nat) :
    m.gather a (splitPart hiFirst a todo).1 ||| m.gather a (splitPart hiFirst a todo).2 = m.gather a todo := by
  rw [← Memory.gather_append, Memory.gather_perm (splitPart_perm hiFirst a todo)]

theorem scatter_splitPart {m : Memory} (hm : m.wf) (masked : Bool) (v : Word) {todo : List Nat}
    (h : ∀ i ∈ todo, i < 4 ∧ byteAddr a i < Config.hubSize) :
    (m.scatter masked v a (splitPart hiFirst a todo).1).scatter masked v a (splitPart hiFirst a todo).2 =
      m.scatter masked v a todo := by
  have perm := splitPart_perm hiFirst a todo
  rw [← Memory.scatter_append, Memory.scatter_perm hm perm (fun i hi => (h i (perm.mem_iff.mp hi)).1)]

include hub

theorem event_load {w : Width} {d : RegAddr} {wc wz : Bool} {todo : List Nat} {got : Word}
    (ht : (Transfer.load w a d wc wz todo got).sound) :
    EventOf (.load w a d wc wz todo got) s ((Transfer.load w a d wc wz todo got).event hiFirst s) := by
  have parts := gather_splitPart hiFirst s.hub a todo
  simp only [Transfer.event]
  split
  · next last =>
    have all_now : s.hub.gather a (splitPart hiFirst a todo).1 = s.hub.gather a todo := by
      simpa [List.isEmpty_iff.mp last, Memory.gather] using parts
    exact .inl (by simp [Transfer.finish, all_now])
  · next more =>
    refine .inr ⟨_, s, rfl, splitPart_later_sound hiFirst ht.2 more, .refl s, hub, ?_⟩
    simp [Transfer.finish, BitVec.or_assoc, parts]

theorem event_store {v : Word} {masked : Bool} {todo : List Nat} (ht : (Transfer.store a v masked todo).sound) :
    EventOf (.store a v masked todo) s ((Transfer.store a v masked todo).event hiFirst s) := by
  have parts := scatter_splitPart hiFirst hub.1 masked v ht.2
  simp only [Transfer.event]
  split
  · next last =>
    rw [List.isEmpty_iff.mp last, Memory.scatter] at parts
    exact .inl (by rw [parts]; rfl)
  · next more =>
    refine .inr ⟨_, s.setHub _, rfl, splitPart_later_sound hiFirst ht.2 more, .setHub s _, ?_, ?_⟩
    · refine hub.scatter _ _ (fun i hi => (ht.2 i ?_).2)
      exact (splitPart_perm hiFirst a todo).mem_iff.mp (List.mem_append_left _ hi)
    · simp only [Transfer.finish, State.hub_park, State.hub_setHub, parts]
      rfl

theorem event_blockLoad {m : Side} {k : RegAddr} {left : Nat} {wc wz : Bool}
    (ht : (Transfer.blockLoad m a k left wc wz).sound) :
    EventOf (.blockLoad m a k left wc wz) s ((Transfer.blockLoad m a k left wc wz).event hiFirst s) := by
  obtain ⟨hpos, haligned, hp, hfits⟩ := ht
  simp only [Transfer.event]
  match left, hpos with
  | 1, _ => exact .inl (by simp [Transfer.finish, loadBlock, loadLong_park])
  | n + 2, _ =>
    have next_aligned : (a + 4).toNat % 4 = 0 := by rw [nextLong_toNat hp]; omega
    refine .inr ⟨.blockLoad m (a + 4) (k + 1) (n + 1) wc wz, loadLong m a k s, by simp,
      ⟨Nat.succ_pos n, next_aligned, blockPopulated_next hp, blockFits_next hfits⟩, loadLong_frame m a k s, hub, ?_⟩
    simp only [Transfer.finish, loadBlock, loadLong_park]

theorem event_blockStore {src : BlockSrc} {k : RegAddr} {left : Nat} {masked : Bool}
    (ht : (Transfer.blockStore src a k left masked).sound) :
    EventOf (.blockStore src a k left masked) s ((Transfer.blockStore src a k left masked).event hiFirst s) := by
  have common : 0 < left ∧ a.toNat % 4 = 0 ∧ blockPopulated a left = true := by
    match src, ht with
    | .side _, ⟨hpos, haligned, hp, _⟩ => exact ⟨hpos, haligned, hp⟩
    | .fill _, h => exact h
  obtain ⟨hpos, haligned, hp⟩ := common
  simp only [Transfer.event]
  match left, hpos with
  | 1, _ => exact .inl (by simp [Transfer.finish, storeBlock, storeLong_park])
  | n + 2, _ =>
    have next_aligned : (a + 4).toNat % 4 = 0 := by rw [nextLong_toNat hp]; omega
    have next_sound : (Transfer.blockStore src (a + 4) (k + 1) (n + 1) masked).sound := by
      match src, ht with
      | .side _, ⟨_, _, _, hfits⟩ => exact ⟨Nat.succ_pos n, next_aligned, blockPopulated_next hp, blockFits_next hfits⟩
      | .fill _, _ => exact ⟨Nat.succ_pos n, next_aligned, blockPopulated_next hp⟩
    refine .inr ⟨_, storeLong src a k masked s, by simp, next_sound, .setHub s _,
      hub.scatter _ _ (firstLong_populated hp), ?_⟩
    simp only [Transfer.finish, storeBlock, storeLong_park]

theorem Transfer.event_eventOf {t : Transfer} (ht : t.sound) : EventOf t s (t.event hiFirst s) := by
  cases t with
  | load => exact event_load hub hiFirst ht
  | store => exact event_store hub hiFirst ht
  | blockLoad => exact event_blockLoad hub hiFirst ht
  | blockStore => exact event_blockStore hub hiFirst ht

end EventOf

/-- From a sound state an event of sound work leads to a sound state. -/
theorem Transfer.event_inv {t : Transfer} {s : State} (ht : t.sound) (hs : s.Inv) (hiFirst : Bool) :
    (t.event hiFirst s).Inv := by
  obtain e | ⟨rest, v, e, hrest, frame, hub, -⟩ := Transfer.event_eventOf hs.hub hiFirst ht
  · rw [e]
    have parked : (s.park none).Inv := hs.park (by simp)
    exact parked.frame (t.finish_frame _) (Transfer.finish_hub ht parked.hub)
  · rw [e]
    exact (hs.frame frame hub).park (by rintro _ ⟨⟩; exact hrest)

/-! ### A turn of the acting cog -/

section Turn

variable {s t : State} {hiFirst : Bool}

theorem withInstr_of {w : Word} {i : Instr} (hw : fetch s = some w) (hi : decode w = .ok i)
    (go : Instr → Host.Outcome State Fault Refusal) : withInstr s go = go i := by
  simp [withInstr, hw, hi]

/-- The first event of an instruction is all of it, or it is the first event of the transfer the whole instruction
finishes. -/
theorem begin_next {i : Instr} (h : begin_ hiFirst i s = .next t) :
    exec i s = .next t ∨
      ∃ s1 tr, issue i s = some (.ok (s1, tr)) ∧ exec i s = .next (tr.finish s1) ∧ t = tr.event hiFirst s1 := by
  obtain ⟨r, hi, he⟩ | ⟨hi, -⟩ := exec_eq i s
  · simp only [begin_, hi] at h
    obtain ⟨hc, hran⟩ | ⟨hc, rfl⟩ := runIf_next h
    · match r, hran with
      | .ok (s1, tr), rfl => exact .inr ⟨s1, tr, hi, by rw [he, runIf_holds _ hc]; rfl, rfl⟩
    · exact .inl (by rw [he, runIf_skips _ hc])
  · simp only [begin_, hi] at h
    exact .inl h

theorem runWhole_next (h : runWhole s = .next t) :
    (∃ tr, s.cog.inFlight = some tr ∧ t = tr.finish (s.park none)) ∨
      (s.cog.inFlight = none ∧ ∃ i, exec i s = .next t) := by
  unfold runWhole at h
  split at h
  · next tr htr => cases h; exact .inl ⟨tr, htr, rfl⟩
  · next hnone =>
    obtain ⟨w, i, -, -, hi⟩ := withInstr_next h
    exact .inr ⟨hnone, i, hi⟩

theorem runEvent_next (h : runEvent hiFirst s = .next t) :
    (∃ tr, s.cog.inFlight = some tr ∧ t = tr.event hiFirst s) ∨
      (s.cog.inFlight = none ∧ ∃ i, runWhole s = exec i s ∧ begin_ hiFirst i s = .next t) := by
  unfold runEvent at h
  split at h
  · next tr htr => cases h; exact .inl ⟨tr, htr, rfl⟩
  · next hnone =>
    obtain ⟨w, i, hw, hi, hgo⟩ := withInstr_next h
    exact .inr ⟨hnone, i, by simp only [runWhole, hnone, withInstr_of hw hi], hgo⟩

theorem runWhole_actsTo (h : runWhole s = .next t) : s.ActsTo t := by
  obtain ⟨tr, -, rfl⟩ | ⟨-, i, hi⟩ := runWhole_next h
  · exact ⟨none, tr.finish_frame _⟩
  · exact (exec_frame hi).actsTo

theorem runEvent_actsTo (h : runEvent hiFirst s = .next t) : s.ActsTo t := by
  obtain ⟨tr, -, rfl⟩ | ⟨-, i, -, hi⟩ := runEvent_next h
  · exact tr.event_actsTo hiFirst s
  · obtain he | ⟨s1, tr, hissue, -, rfl⟩ := begin_next hi
    · exact (exec_frame he).actsTo
    · obtain ⟨src, -, issued⟩ := issue_issued hissue
      obtain ⟨rest, h⟩ := tr.event_actsTo hiFirst s1
      exact ⟨rest, (issued.moved.frame.park_congr rest).trans h⟩

/-- Setting up a transfer leaves a sound state sound. -/
theorem Issued.inv {src : Src} {effects : Bool × Bool} {s1 : State} {tr : Transfer} (h : Issued src effects s s1 tr)
    (hs : s.Inv) : s1.Inv := by
  obtain ⟨hub, -⟩ := h.moved.same
  exact hs.frame h.moved.frame (hub ▸ hs.hub)

theorem exec_inv {i : Instr} (hs : s.Inv) (h : exec i s = .next t) : t.Inv := by
  refine hs.frame (exec_frame h) ?_
  obtain rfl | ⟨s1, tr, hi, rfl⟩ | ⟨p, arg, v, -, rfl⟩ := exec_next h
  · exact hs.hub
  · obtain ⟨src, -, issued⟩ := issue_issued hi
    exact Transfer.finish_hub issued.sound (issued.inv hs).hub
  · exact hs.hub

theorem runWhole_inv (hs : s.Inv) (h : runWhole s = .next t) : t.Inv := by
  obtain ⟨tr, htr, rfl⟩ | ⟨-, i, hi⟩ := runWhole_next h
  · have parked : (s.park none).Inv := hs.park (by simp)
    exact parked.frame (tr.finish_frame _) (Transfer.finish_hub (hs.inFlight_sound _ tr htr) parked.hub)
  · exact exec_inv hs hi

theorem runEvent_inv (hs : s.Inv) (h : runEvent hiFirst s = .next t) : t.Inv := by
  obtain ⟨tr, htr, rfl⟩ | ⟨-, i, -, hi⟩ := runEvent_next h
  · exact Transfer.event_inv (hs.inFlight_sound _ tr htr) hs hiFirst
  · obtain he | ⟨s1, tr, hissue, -, rfl⟩ := begin_next hi
    · exact exec_inv hs he
    · obtain ⟨src, -, issued⟩ := issue_issued hissue
      exact Transfer.event_inv issued.sound (issued.inv hs) hiFirst

/-- One event either ends the instruction that `whole` does all of, or leaves a rest that ends in the same state. -/
theorem EventOf.compose {tr : Transfer} {s' : State} (h : EventOf tr s t)
    (whole : runWhole s' = .next (tr.finish (s.park none))) :
    (t.cog.inFlight = none ∧ runWhole s' = .next t) ∨ (t.cog.inFlight ≠ none ∧ runWhole t = runWhole s') := by
  obtain rfl | ⟨rest, v, rfl, -, -, -, hrest⟩ := h
  · have frame := tr.finish_frame (s.park none)
    exact .inl ⟨by simpa using frame.inFlight, whole⟩
  · exact .inr ⟨by simp, by rw [whole, ← hrest]; simp [runWhole]⟩

/-- Settles O56: an event of sound work ends it or leaves a rest that composes with it (`EventOf`), whether the work was
in progress or has just been set up; a word that is skipped or sets up no transfer is one event. -/
theorem eventsComposeToInstruction : Obligations.EventsComposeToInstruction := by
  intro hiFirst s t hs h
  obtain ⟨tr, htr, rfl⟩ | ⟨hnone, i, hwhole, hi⟩ := runEvent_next h
  · exact (Transfer.event_eventOf hs.hub hiFirst (hs.inFlight_sound _ tr htr)).compose (by simp [runWhole, htr])
  · obtain he | ⟨s1, tr, hissue, he, rfl⟩ := begin_next hi
    · exact .inl ⟨(exec_frame he).inFlight.trans hnone, hwhole.trans he⟩
    · obtain ⟨src, -, issued⟩ := issue_issued hissue
      have idle : s1.cog.inFlight = none := issued.moved.frame.inFlight.trans hnone
      refine (Transfer.event_eventOf (issued.inv hs).hub hiFirst issued.sound).compose ?_
      rw [hwhole, he, State.park_none_self idle]

end Turn

end Sys2Proof.Machine
end

section
/-! PROOFS. A step (10_state.md R17, R19; 60_exceptions.md R148, R152): which cog it makes act and what that cog runs,
what every step keeps, when it stops, and runs of one cog. -/

namespace Sys2Proof.Machine

section Step

variable {s s' t : State}

/-- The state a turn makes, in which its cog acts. -/
theorem step_next (h : step s = .next t) : ∃ s' : State, s'.hub = s.hub ∧ s'.cogs = s.cogs ∧
    (runWhole s' = .next t ∨ ∃ hiFirst, runEvent hiFirst s' = .next t) := by
  unfold step takeTurn at h
  split at h
  · exact ⟨s, rfl, rfl, .inl h⟩
  · next k ts _ => exact ⟨{ s with cur := k, turns := ts }, rfl, rfl, .inl h⟩
  · next k hiFirst ts _ => exact ⟨{ s with cur := k, turns := ts }, rfl, rfl, .inr ⟨hiFirst, h⟩⟩

/-- A step acts from a state with the same cogs. -/
theorem step_actsTo (h : step s = .next t) : ∃ s' : State, s'.cogs = s.cogs ∧ s'.ActsTo t := by
  obtain ⟨s', -, hcogs, hrun | ⟨hiFirst, hrun⟩⟩ := step_next h
  · exact ⟨s', hcogs, runWhole_actsTo hrun⟩
  · exact ⟨s', hcogs, runEvent_actsTo hrun⟩

/-- Settles O50: whatever acts changes no list. -/
theorem programTextConstant : Obligations.ProgramTextConstant := by
  intro s t k h
  obtain ⟨s', hcogs, acts⟩ := step_actsTo h
  rw [acts.prog k, hcogs]

/-- Settles O51: the cog that acted is the one `cur` names afterwards. -/
theorem stepTouchesOneCog : Obligations.StepTouchesOneCog := by
  intro s t k h hk
  obtain ⟨s', hcogs, acts⟩ := step_actsTo h
  rw [acts.others (acts.cur ▸ hk), hcogs]

/-- Settles O52: soundness speaks of Hub RAM and the cogs only, so a turn keeps it, and so do a whole instruction and
an event of one. -/
theorem stepKeepsInv : Obligations.StepKeepsInv := by
  intro s t hs h
  obtain ⟨s', hhub, hcogs, hrun⟩ := step_next h
  have hs' : s'.Inv := ⟨hhub ▸ hs.hub_wf, hhub ▸ hs.hub_populated, hcogs ▸ hs.inFlight_sound⟩
  obtain hrun | ⟨hiFirst, hrun⟩ := hrun
  · exact runWhole_inv hs' hrun
  · exact runEvent_inv hs' hrun

/-- Settles O53: after reset Hub RAM lists no byte and no cog has work in progress. -/
theorem resetState : Obligations.ResetState := by
  have cogs : ∀ k : Fin 8, State.reset.cogs.get k = Cog.reset := fun k => Vector.getElem_replicate _
  refine ⟨⟨⟨List.Pairwise.nil, by simp [State.reset]⟩, by simp [State.reset], fun k t h => ?_⟩, fun k => ?_⟩
  · rw [cogs k] at h
    cases h
  · rw [cogs k]
    exact ⟨rfl, rfl, rfl⟩

/-! ### What the acting cog runs -/

theorem runWhole_idle (h : s.cog.inFlight = none) : runWhole s = withInstr s (fun i => exec i s) := by
  simp only [runWhole, h]

theorem runEvent_idle (hiFirst : Bool) (h : s.cog.inFlight = none) :
    runEvent hiFirst s = withInstr s (fun i => begin_ hiFirst i s) := by simp only [runEvent, h]

/-- A step with no turn ahead, or at a turn of a whole instruction. -/
theorem step_whole
    (h : (s.turns = [] ∧ s' = s) ∨ ∃ k ts, s.turns = .whole k :: ts ∧ s' = { s with cur := k, turns := ts }) :
    step s = runWhole s' := by
  obtain ⟨hturns, rfl⟩ | ⟨k, ts, hturns, rfl⟩ := h <;> simp only [step, takeTurn, hturns]

/-- A step at a turn of an event. -/
theorem step_event {k : Fin 8} {hiFirst : Bool} {ts : List Turn} (h : s.turns = .event k hiFirst :: ts) :
    step s = runEvent hiFirst { s with cur := k, turns := ts } := by simp only [step, takeTurn, h]

/-- Settles O46: a whole turn of an idle cog fetches, decodes and executes. -/
theorem stepRunsDecodedInstruction : Obligations.StepRunsDecodedInstruction := by
  intro s s' w i hw hi hidle hturn
  rw [step_whole hturn, runWhole_idle hidle, withInstr_of hw hi]

/-- Settles O47: the placed word is fetched, it decodes to the instruction it encodes, and nothing is in progress. -/
theorem placedWordRuns : Obligations.PlacedWordRuns := by
  intro s i hi
  have placed : BitVec.ofNat 32 ((encode i).toNat % 2 ^ 32) = encode i := by
    rw [Nat.mod_eq_of_lt (encode i).isLt, BitVec.ofNat_toNat, BitVec.setWidth_eq]
  have fetched : fetch (s.withFetchWord 32 (encode i).toNat) = some (encode i) := by
    simp only [State.withFetchWord, placed]
    exact (congrArg (fun c : Cog => c.prog[c.pc]?) (State.cog_setCog s _)).trans (placeWord_get _ _ _)
  have idle : (s.withFetchWord 32 (encode i).toNat).cog.inFlight = none :=
    congrArg Cog.inFlight (State.cog_setCog s _)
  exact stepRunsDecodedInstruction _ _ _ i fetched (decodeOfEncode i hi) idle (.inl ⟨rfl, rfl⟩)

/-- A step of an idle cog, whichever kind of turn it has, stops where its next word is no instruction. -/
theorem step_stops {why : Refusal} (hidle : s'.cog.inFlight = none)
    (hturn : (s.turns = [] ∧ s' = s) ∨
      ∃ k ts, (s.turns = .whole k :: ts ∨ ∃ hiFirst, s.turns = .event k hiFirst :: ts) ∧
        s' = { s with cur := k, turns := ts })
    (stops : ∀ go, withInstr s' go = .refused why) : step s = .refused why := by
  obtain hnow | ⟨k, ts, hturns | ⟨hiFirst, hturns⟩, rfl⟩ := hturn
  · rw [step_whole (.inl hnow), runWhole_idle hidle, stops]
  · rw [step_whole (.inr ⟨k, ts, hturns, rfl⟩), runWhole_idle hidle, stops]
  · rw [step_event hturns, runEvent_idle hiFirst hidle, stops]

theorem withInstr_ended (h : s.cog.prog.length ≤ s.cog.pc) (go : Instr → Host.Outcome State Fault Refusal) :
    withInstr s go = .refused .programEnded := by
  have nothing : fetch s = none := List.getElem?_eq_none h
  simp only [withInstr, nothing]

/-- Settles O48: each clause says why there is no instruction to run. -/
theorem stepRefusals : Obligations.StepRefusals := by
  intro s s' hidle hturn
  exact ⟨fun h => step_stops hidle hturn (withInstr_ended h),
    fun w hw hd => step_stops hidle hturn (fun go => by simp only [withInstr, hw, hd]),
    fun w hw hd => step_stops hidle hturn (fun go => by simp only [withInstr, hw, hd])⟩

/-- Settles O49: whichever cog the step makes act, it has finished. -/
theorem endedRunStops : Obligations.EndedRunStops := by
  intro s h
  have ended : ∀ s' : State, s'.cogs = s.cogs → ∀ go, withInstr s' go = .refused .programEnded :=
    fun s' e => withInstr_ended (by rw [State.cog, e]; exact (h s'.cur).1)
  have idle : ∀ s' : State, s'.cogs = s.cogs → s'.cog.inFlight = none :=
    fun s' e => by rw [State.cog, e]; exact (h s'.cur).2
  cases hturns : s.turns with
  | nil => exact step_stops (idle s rfl) (.inl ⟨hturns, rfl⟩) (ended s rfl)
  | cons turn ts =>
    cases turn with
    | whole k =>
      let s' : State := { s with cur := k, turns := ts }
      exact step_stops (idle s' rfl) (.inr ⟨k, ts, .inl hturns, rfl⟩) (ended s' rfl)
    | event k hiFirst =>
      let s' : State := { s with cur := k, turns := ts }
      exact step_stops (idle s' rfl) (.inr ⟨k, ts, .inr ⟨hiFirst, hturns⟩, rfl⟩) (ended s' rfl)

/-! ### A run of one cog -/

/-- One step of an idle cog with no turn ahead: an instruction inside its list is executed. -/
theorem step_advances (hturns : s.turns = []) (hidle : s.cog.inFlight = none) (h : step s = .next t) :
    s.cog.pc < s.cog.prog.length ∧ t.cog.pc = s.cog.pc + 1 ∧ s.FrameOf t := by
  rw [step_whole (.inl ⟨hturns, rfl⟩), runWhole_idle hidle] at h
  obtain ⟨w, i, hw, -, hi⟩ := withInstr_next h
  exact ⟨(List.getElem?_eq_some_iff.mp hw).1, (everyInstructionAdvances i s t hi).1, exec_frame hi⟩

/-- A run that completes completes its first step. -/
theorem run_succ_next {M : Host.Core} {n : Nat} {s t : M.State} (h : M.run (n + 1) s = .next t) :
    ∃ s1, M.step s = .next s1 ∧ M.run n s1 = .next t := by
  rw [Host.Core.run] at h
  split at h
  · next s1 h1 => exact ⟨s1, h1, h⟩
  · cases h
  · cases h

/-- Settles O54, by induction on the number of steps. -/
theorem programIsStraightLine : Obligations.ProgramIsStraightLine := by
  intro n
  induction n with
  | zero =>
    intro s t _ _ hpc h
    cases h
    exact ⟨rfl, hpc, rfl⟩
  | succ n ih =>
    intro s t hturns hidle _ h
    obtain ⟨s1, h1, hrest⟩ := run_succ_next (M := core) h
    obtain ⟨hlt, hpc, frame⟩ := step_advances hturns hidle h1
    have inside : s1.cog.pc ≤ s1.cog.prog.length := by rw [hpc, frame.prog]; exact hlt
    obtain ⟨hpc', hle, hprog⟩ := ih s1 t (frame.turns.trans hturns) (frame.inFlight.trans hidle) inside hrest
    exact ⟨by omega, hle, hprog.trans frame.prog⟩

end Step

end Sys2Proof.Machine
end

section
/-! PROOFS. No instruction reads another cog's own state (10_state.md R12, 60_exceptions.md R148): every operation,
on two states with one Hub RAM and one acting cog, gives two results that agree likewise. -/

namespace Sys2Proof.Machine

/-- Two states an instruction cannot tell apart. -/
structure State.Agrees (s s' : State) : Prop where
  hub : s.hub = s'.hub
  cog : s.cog = s'.cog

/-- Two refusable results: both succeed and are related, or both are refused for one reason. -/
def Matching {α : Type} (R : α → α → Prop) : Except Refusal α → Except Refusal α → Prop
  | .ok a, .ok b => R a b
  | .error r, .error r' => r = r'
  | _, _ => False

/-- A value and a state: the same value, states that agree. -/
def SameValue {α : Type} (x y : α × State) : Prop := x.1 = y.1 ∧ x.2.Agrees y.2

/-- A state and the transfer set up in it: states that agree, the same transfer. -/
def SameTransfer (x y : State × Transfer) : Prop := x.1.Agrees y.1 ∧ x.2 = y.2

/-- Two outcomes an observer of Hub RAM and the acting cog cannot tell apart. -/
def SameOutcome : Host.Outcome State Fault Refusal → Host.Outcome State Fault Refusal → Prop
  | .next t, .next t' => t.Agrees t'
  | .refused r, .refused r' => r = r'
  | _, _ => False

/-- After a step common to both results it is enough to match what follows related values. -/
theorem Matching.bind {α β : Type} {R : α → α → Prop} {S : β → β → Prop} {x y : Except Refusal α}
    {f g : α → Except Refusal β} (h : Matching R x y) (hfg : ∀ a b, R a b → Matching S (f a) (g b)) :
    Matching S (x >>= f) (y >>= g) := by
  match x, y, h with
  | .ok a, .ok b, h => exact hfg a b h
  | .error r, .error _, rfl => exact (rfl : r = r)

theorem Matching.refl {α : Type} (x : Except Refusal α) : Matching Eq x x := by
  cases x <;> exact (rfl : _ = _)

/-- As `Matching.bind`, for a step that gives both sides the same value. -/
theorem Matching.bind_eq {α β : Type} {S : β → β → Prop} {x y : Except Refusal α} {f g : α → Except Refusal β}
    (h : x = y) (hfg : ∀ a, Matching S (f a) (g a)) : Matching S (x >>= f) (y >>= g) := by
  subst h
  exact (Matching.refl x).bind (fun a b e => e ▸ hfg a)

section Agrees

variable {s s' : State} (h : s.Agrees s')

include h

theorem State.Agrees.setCog (c : Cog) : (s.setCog c).Agrees (s'.setCog c) := ⟨h.hub, by simp⟩

theorem State.Agrees.setHub (m : Memory) : (s.setHub m).Agrees (s'.setHub m) := ⟨rfl, h.cog⟩

theorem State.Agrees.retire : s.retire.Agrees s'.retire := ⟨h.hub, by simp [h.cog]⟩

/-! ### Operands -/

theorem State.Agrees.readReg (r : RegAddr) : readReg r s = readReg r s' := by
  simp only [Machine.readReg, h.cog]

theorem State.Agrees.readData (data : Data) : readData data s = readData data s' := by
  cases data <;> simp only [Machine.readData, h.readReg]

theorem State.Agrees.readQArg (arg : QArg) : readQArg arg s = readQArg arg s' := by
  cases arg <;> simp only [Machine.readQArg, h.readReg]

theorem State.Agrees.updatePointer (p : Ptr) (post : Bool) (step : Int) :
    SameValue (updatePointer p post step s) (updatePointer p post step s') :=
  ⟨by simp only [Machine.updatePointer, h.cog], by simpa only [Machine.updatePointer, h.cog] using h.setCog _⟩

theorem State.Agrees.effAddr (src : Src) (scale : Nat) :
    Matching SameValue (effAddr src scale s) (effAddr src scale s') := by
  match src with
  | .reg r => exact .bind_eq (h.readReg r) (fun v => ⟨rfl, h⟩)
  | .imm v => exact ⟨rfl, h⟩
  | .ptr p (.index i) => exact ⟨by simp only [h.cog], h⟩
  | .ptr p (.post i) =>
    simp only [Machine.effAddr]
    split
    · exact (rfl : _ = _)
    · exact h.updatePointer ..
  | .ptr p (.pre i) =>
    simp only [Machine.effAddr]
    split
    · exact (rfl : _ = _)
    · exact h.updatePointer ..

theorem State.Agrees.effAddrBlock (src : Src) (n : Nat) :
    Matching SameValue (effAddrBlock src n s) (effAddrBlock src n s') := by
  match src with
  | .reg r => exact .bind_eq (h.readReg r) (fun v => ⟨rfl, h⟩)
  | .imm v => exact ⟨rfl, h⟩
  | .ptr p (.index i) =>
    simp only [Machine.effAddrBlock]
    split
    · exact ⟨by simp only [h.cog], h⟩
    · exact (rfl : _ = _)
  | .ptr p (.post i) =>
    simp only [Machine.effAddrBlock]
    split
    · exact h.updatePointer ..
    split
    · exact h.updatePointer ..
    · exact (rfl : _ = _)
  | .ptr p (.pre i) =>
    simp only [Machine.effAddrBlock]
    split
    · exact h.updatePointer ..
    split
    · exact h.updatePointer ..
    · exact (rfl : _ = _)

theorem State.Agrees.blockAddr (src : Src) (n : Nat) :
    Matching SameValue (blockAddr src n s) (blockAddr src n s') := by
  refine (h.effAddrBlock src n).bind ?_
  rintro ⟨a, s1⟩ ⟨b, s2⟩ ⟨rfl, h1⟩
  exact .bind_eq rfl (fun _ => .bind_eq rfl (fun _ => ⟨rfl, h1⟩))

/-! ### Setting up -/

theorem State.Agrees.blockLongs : blockLongs s = blockLongs s' := by simp only [Machine.blockLongs, h.cog]

theorem State.Agrees.issueRead (w : Width) (wc wz : Bool) (d : RegAddr) (src : Src) :
    Matching SameTransfer (issueRead w wc wz d src s) (issueRead w wc wz d src s') := by
  refine (h.effAddr src w.scale).bind ?_
  rintro ⟨a, s1⟩ ⟨b, s2⟩ ⟨rfl, h1⟩
  exact .bind_eq rfl (fun _ => .bind_eq rfl (fun _ => ⟨h1, rfl⟩))

theorem State.Agrees.issueWrite (w : Width) (masked : Bool) (data : Data) (src : Src) :
    Matching SameTransfer (issueWrite w masked data src s) (issueWrite w masked data src s') := by
  refine .bind_eq (h.readData data) (fun v => (h.effAddr src w.scale).bind ?_)
  rintro ⟨a, s1⟩ ⟨b, s2⟩ ⟨rfl, h1⟩
  exact .bind_eq rfl (fun _ => ⟨h1, rfl⟩)

theorem State.Agrees.issueBlockRead (m : Side) (wc wz : Bool) (d : RegAddr) (src : Src) :
    Matching SameTransfer (issueBlockRead m wc wz d src s) (issueBlockRead m wc wz d src s') := by
  simp only [Machine.issueBlockRead, h.blockLongs]
  refine .bind_eq rfl (fun _ => .bind_eq rfl (fun _ => (h.blockAddr src _).bind ?_))
  rintro ⟨a, s1⟩ ⟨b, s2⟩ ⟨rfl, h1⟩
  exact ⟨h1, rfl⟩

theorem State.Agrees.issueBlockWrite (m : Side) (masked : Bool) (d : RegAddr) (src : Src) :
    Matching SameTransfer (issueBlockWrite m masked d src s) (issueBlockWrite m masked d src s') := by
  simp only [Machine.issueBlockWrite, h.blockLongs]
  refine .bind_eq rfl (fun _ => .bind_eq rfl (fun _ => (h.blockAddr src _).bind ?_))
  rintro ⟨a, s1⟩ ⟨b, s2⟩ ⟨rfl, h1⟩
  exact ⟨h1, rfl⟩

theorem State.Agrees.issueFill (m : Side) (v : Word) (src : Src) :
    Matching SameTransfer (issueFill m v src s) (issueFill m v src s') := by
  simp only [Machine.issueFill, h.blockLongs]
  refine .bind_eq rfl (fun _ => .bind_eq rfl (fun _ => (h.blockAddr src _).bind ?_))
  rintro ⟨a, s1⟩ ⟨b, s2⟩ ⟨rfl, h1⟩
  exact ⟨h1, rfl⟩

theorem State.Agrees.issueBlockWrlong (m : Side) (data : Data) (src : Src) :
    Matching SameTransfer (issueBlockWrlong m data src s) (issueBlockWrlong m data src s') := by
  cases data with
  | reg d => exact h.issueBlockWrite ..
  | imm v => exact h.issueFill ..
  | aug v => exact h.issueFill ..

theorem State.Agrees.issueRdlong (wc wz : Bool) (d : RegAddr) (src : Src) :
    Matching SameTransfer (issueRdlong wc wz d src s) (issueRdlong wc wz d src s') := by
  simp only [Machine.issueRdlong, h.cog]
  split
  · exact h.issueRead ..
  · exact h.issueBlockRead ..
  · exact h.issueBlockRead ..

theorem State.Agrees.issueWrlong (data : Data) (src : Src) :
    Matching SameTransfer (issueWrlong data src s) (issueWrlong data src s') := by
  simp only [Machine.issueWrlong, h.cog]
  split
  · exact h.issueWrite ..
  · exact h.issueBlockWrlong ..
  · exact h.issueBlockWrlong ..

theorem State.Agrees.issueWmlong (d : RegAddr) (src : Src) :
    Matching SameTransfer (issueWmlong d src s) (issueWmlong d src s') := by
  simp only [Machine.issueWmlong, h.cog]
  split
  · exact h.issueWrite ..
  · exact h.issueBlockWrite ..
  · exact h.issueBlockWrite ..

theorem State.Agrees.issueNarrowRead (w : Width) (wc wz : Bool) (d : RegAddr) (src : Src) :
    Matching SameTransfer (issueNarrowRead w wc wz d src s) (issueNarrowRead w wc wz d src s') := by
  simp only [Machine.issueNarrowRead, h.cog]
  exact .bind_eq rfl (fun _ => h.issueRead ..)

theorem State.Agrees.issueNarrowWrite (w : Width) (data : Data) (src : Src) :
    Matching SameTransfer (issueNarrowWrite w data src s) (issueNarrowWrite w data src s') := by
  simp only [Machine.issueNarrowWrite, h.cog]
  exact .bind_eq rfl (fun _ => h.issueWrite ..)

/-! ### Doing the work -/

theorem State.Agrees.loadLong (m : Side) (a : HubAddr) (k : RegAddr) :
    (loadLong m a k s).Agrees (loadLong m a k s') := by
  simpa only [Machine.loadLong, h.cog, h.hub] using h.setCog _

theorem State.Agrees.loadBlock (m : Side) (wc wz : Bool) (n : Nat) (a : HubAddr) (k : RegAddr) :
    (loadBlock m wc wz n a k s).Agrees (loadBlock m wc wz n a k s') := by
  induction n generalizing a k s s' with
  | zero => exact h
  | succ n ih =>
    have first := h.loadLong m a k
    cases n with
    | zero =>
      simp only [Machine.loadBlock, completeBlockLoad, first.cog, h.hub]
      exact first.setCog _
    | succ n => exact ih first _ _

theorem State.Agrees.storeBlock (src : BlockSrc) (masked : Bool) (n : Nat) (a : HubAddr) (k : RegAddr) :
    (storeBlock src masked n a k s).Agrees (storeBlock src masked n a k s') := by
  induction n generalizing a k s s' with
  | zero => exact h
  | succ n ih =>
    refine ih ?_ _ _
    simp only [storeLong, h.cog, h.hub]
    exact h.setHub _

theorem State.Agrees.finish (t : Transfer) : (t.finish s).Agrees (t.finish s') := by
  cases t with
  | load =>
    simp only [Transfer.finish, completeLoad, h.cog, h.hub]
    exact h.setCog _
  | store =>
    simp only [Transfer.finish, h.hub]
    exact (h.setHub _).retire
  | blockLoad => exact h.loadBlock ..
  | blockStore => exact (h.storeBlock ..).retire

omit h in
theorem perform_sameOutcome {x y : Except Refusal (State × Transfer)} (hxy : Matching SameTransfer x y) :
    SameOutcome (perform x) (perform y) := by
  match x, y, hxy with
  | .ok (s1, t), .ok (s2, _), ⟨h1, rfl⟩ => exact State.Agrees.finish h1 t
  | .error _, .error _, rfl => exact (rfl : _ = _)

theorem State.Agrees.setPrefix (p : Prefix) (arg : QArg) : SameOutcome (setPrefix p arg s) (setPrefix p arg s') := by
  simp only [Machine.setPrefix, h.cog, h.readQArg]
  split
  · split
    · exact h.setCog _
    · exact (rfl : _ = _)
  · exact (rfl : _ = _)

/-- The condition field reads the acting cog's flags only. -/
theorem State.Agrees.runIf (e : Cond) {ran ran' : Host.Outcome State Fault Refusal} (hran : SameOutcome ran ran') :
    SameOutcome (runIf e s ran) (runIf e s' ran') := by
  cases hc : condHolds e s.cog.c s.cog.z with
  | true => rwa [runIf_holds ran hc, runIf_holds ran' (h.cog ▸ hc)]
  | false =>
    rw [runIf_skips ran hc, runIf_skips ran' (h.cog ▸ hc)]
    exact h.retire

theorem State.Agrees.exec (i : Instr) : SameOutcome (exec i s) (exec i s') := by
  cases i with
  | rdbyte => exact h.runIf _ (perform_sameOutcome (h.issueNarrowRead ..))
  | rdword => exact h.runIf _ (perform_sameOutcome (h.issueNarrowRead ..))
  | rdlong => exact h.runIf _ (perform_sameOutcome (h.issueRdlong ..))
  | wmlong => exact h.runIf _ (perform_sameOutcome (h.issueWmlong ..))
  | wrbyte => exact h.runIf _ (perform_sameOutcome (h.issueNarrowWrite ..))
  | wrword => exact h.runIf _ (perform_sameOutcome (h.issueNarrowWrite ..))
  | wrlong => exact h.runIf _ (perform_sameOutcome (h.issueWrlong ..))
  | pusha => exact h.runIf _ (perform_sameOutcome (h.issueWrlong ..))
  | pushb => exact h.runIf _ (perform_sameOutcome (h.issueWrlong ..))
  | popa => exact h.runIf _ (perform_sameOutcome (h.issueRdlong ..))
  | popb => exact h.runIf _ (perform_sameOutcome (h.issueRdlong ..))
  | setq => exact h.runIf _ (h.setPrefix ..)
  | setq2 => exact h.runIf _ (h.setPrefix ..)

end Agrees

/-- Settles O41: states that agree have outcomes that agree, which is the statement's case distinction. -/
theorem noCogReadsAnother : Obligations.NoCogReadsAnother := by
  intro i s s' hhub hcog
  have same : SameOutcome (exec i s) (exec i s') := State.Agrees.exec ⟨hhub, hcog⟩ i
  cases hx : exec i s <;> cases hy : exec i s' <;> rw [hx, hy] at same
  case next.next => exact ⟨same.hub, same.cog⟩
  all_goals exact same

end Sys2Proof.Machine
end

section
/-! PROOFS. Reads and writes of Hub RAM by their bytes (20_memory.md R31, R32, R45): a long is its four bytes, and each
byte of a read is a byte of memory. -/

namespace Sys2Proof

/-- Bit `l` of byte `i` of a long. -/
theorem getLsbD_byteAt (v : Word) (i l : Nat) : (byteAt v i).getLsbD l = (decide (l < 8) && v.getLsbD (8 * i + l)) := by
  simp [byteAt, BitVec.getLsbD_extractLsb']

/-- A bit of a long is a bit of one of its bytes. -/
theorem getLsbD_eq_byteAt (v : Word) (n : Nat) : v.getLsbD n = (byteAt v (n / 8)).getLsbD (n % 8) := by
  rw [getLsbD_byteAt, Nat.div_add_mod, decide_eq_true (Nat.mod_lt n (by decide)), Bool.true_and]

/-- A long is its four bytes. -/
theorem eq_of_byteAt {x y : Word} (h : ∀ i, i < 4 → byteAt x i = byteAt y i) : x = y := by
  apply BitVec.eq_of_getLsbD_eq
  intro n hn
  rw [getLsbD_eq_byteAt x, getLsbD_eq_byteAt y, h _ (by omega)]

theorem byteAt_or (x y : Word) (i : Nat) : byteAt (x ||| y) i = byteAt x i ||| byteAt y i :=
  BitVec.extractLsb'_or

/-- A byte shifted to place `j` of a long is byte `j` of it. -/
theorem byteAt_shiftLeft (b : Byte) {i : Nat} (j : Nat) (hi : i < 4) :
    byteAt (b.setWidth 32 <<< (8 * j)) i = if i = j then b else 0 := by
  apply BitVec.eq_of_getLsbD_eq
  intro l hl
  simp only [getLsbD_byteAt, BitVec.getLsbD_shiftLeft, BitVec.getLsbD_setWidth]
  obtain hlt | rfl | hgt := Nat.lt_trichotomy i j
  · simp [show 8 * i + l < 8 * j by omega, show i ≠ j by omega]
  · simp [hl, show 8 * i + l < 32 by omega, show l < 32 by omega]
  · have beyond : b.getLsbD (8 * i + l - 8 * j) = false := BitVec.getLsbD_of_ge _ _ (by omega)
    simp [beyond, show i ≠ j by omega]

/-- The bytes of some bytes of a long, zero-extended. -/
theorem byteAt_extract (v : Word) (k n : Nat) {i : Nat} (hi : i < 4) :
    byteAt ((v.extractLsb' (8 * k) (8 * n)).setWidth 32) i = if i < n then byteAt v (k + i) else 0 := by
  apply BitVec.eq_of_getLsbD_eq
  intro l hl
  have place : 8 * k + (8 * i + l) = 8 * (k + i) + l := by ring
  simp only [getLsbD_byteAt, BitVec.getLsbD_setWidth, BitVec.getLsbD_extractLsb', place]
  split
  · rw [getLsbD_byteAt]
    simp [hl, show 8 * i + l < 8 * n by omega, show 8 * i + l < 32 by omega]
  · simp [show ¬ 8 * i + l < 8 * n by omega]

namespace Machine

/-- Each byte of what is gathered, and 0 in the places of other bytes. -/
theorem Memory.byteAt_gather (m : Memory) (a : HubAddr) (is : List Nat) {i : Nat} (hi : i < 4) :
    byteAt (m.gather a is) i = if i ∈ is then m.readByte (byteAddr a i) else 0 := by
  induction is with
  | nil => simp [Memory.gather, byteAt]
  | cons j is ih =>
    simp only [Memory.gather, byteAt_or, byteAt_shiftLeft _ j hi, ih, List.mem_cons]
    by_cases hj : i = j <;> by_cases his : i ∈ is <;> simp [hj, his]
    all_goals simp_all

theorem Memory.byteAt_read (m : Memory) (a : HubAddr) (w : Width) {i : Nat} (hi : i < 4) :
    byteAt (m.read a w) i = if i < w.scale then m.readByte (byteAddr a i) else 0 := by
  rw [Memory.read, Memory.byteAt_gather m a _ hi]
  simp only [Width.mem_bytes]

/-- A read inside the bytes of an earlier write gives those bytes of the data (R45). -/
theorem Memory.read_write_within (m : Memory) (a : HubAddr) (v : Word) {w w' : Width} {k : Nat}
    (h : k + w'.scale ≤ w.scale) :
    (m.write a w v).read (a + BitVec.ofNat 20 k) w' = (v.extractLsb' (8 * k) (8 * w'.scale)).setWidth 32 := by
  refine eq_of_byteAt fun i hi => ?_
  rw [Memory.byteAt_read _ _ _ hi, byteAt_extract _ _ _ hi, byteAddr_add]
  split
  · exact Memory.readByte_write_same m a w v ((Width.mem_bytes w _).mpr (by omega))
  · rfl

/-- A long reads back whole. -/
theorem Memory.read_write_long (m : Memory) (a : HubAddr) (v : Word) : (m.write a .long v).read a .long = v := by
  simpa [Width.scale] using Memory.read_write_within m a v (w := .long) (w' := .long) (k := 0) (by decide)

/-- Settles O14: each clause is a read inside the bytes of the write. -/
theorem mixedWidthReads : Obligations.MixedWidthReads := by
  intro m a v
  have within (w w' : Width) (k : Nat) := Memory.read_write_within m a v (w := w) (w' := w') (k := k)
  refine ⟨fun w => ?same, ?byte, within .long .word 1 (by decide), within .long .byte 3 (by decide)⟩
  case same => simpa using within w w 0 (by simp)
  case byte => simpa [Width.scale] using within .long .byte 0 (by decide)

/-- A byte outside a write is kept. -/
theorem Memory.readByte_write_other (m : Memory) (a : HubAddr) (w : Width) (v : Word) {b : Nat}
    (h : ∀ i, i < w.scale → b ≠ byteAddr a i) : (m.write a w v).readByte b = m.readByte b :=
  Memory.readByte_scatter_other m false v a _ b (fun i hi => h i ((Width.mem_bytes w i).mp hi))

/-- Settles O12: each byte of the access reads back, every other one is outside it. -/
theorem writeSetsItsBytesOnly : Obligations.WriteSetsItsBytesOnly := by
  intro m a w v
  simp only [← byteAddr_eq]
  exact ⟨fun i hi => m.readByte_write_same a w v ((Width.mem_bytes w i).mpr hi), fun _ => m.readByte_write_other a w v⟩

/-! ### A read as a number -/

/-- One byte in its place. -/
theorem toNat_shiftLeft_byte (b : Byte) {i : Nat} (hi : i < 4) :
    (b.setWidth 32 <<< (8 * i)).toNat = b.toNat <<< (8 * i) := by
  have small : b.toNat * 2 ^ (8 * i) < 2 ^ 32 := by
    calc b.toNat * 2 ^ (8 * i) < 2 ^ 8 * 2 ^ (8 * i) := Nat.mul_lt_mul_of_pos_right b.isLt (Nat.two_pow_pos _)
      _ = 2 ^ (8 * (i + 1)) := by ring
      _ ≤ 2 ^ 32 := Nat.pow_le_pow_right (by decide) (by omega)
  rw [BitVec.toNat_shiftLeft, BitVec.toNat_setWidth_of_le (by decide), Nat.shiftLeft_eq, Nat.mod_eq_of_lt small]

/-- A byte and bytes in higher places have no bit in common, so joining them is adding them. -/
theorem byte_or_higher (b : Byte) {i n : Nat} (h : 2 ^ (8 * (i + 1)) ∣ n) :
    b.toNat <<< (8 * i) ||| n = b.toNat <<< (8 * i) + n := by
  obtain ⟨c, rfl⟩ := h
  have below : b.toNat <<< (8 * i) < 2 ^ (8 * (i + 1)) := by
    rw [Nat.shiftLeft_eq, show 2 ^ (8 * (i + 1)) = 2 ^ 8 * 2 ^ (8 * i) by ring]
    exact Nat.mul_lt_mul_of_pos_right b.isLt (Nat.two_pow_pos _)
  rw [Nat.or_comm, ← Nat.two_pow_add_eq_or_of_lt below, Nat.add_comm]

/-- What is gathered from rising places, as a number. -/
theorem Memory.toNat_gather (m : Memory) (a : HubAddr) {is : List Nat} (rising : is.Pairwise (· < ·))
    (h4 : ∀ i ∈ is, i < 4) :
    (m.gather a is).toNat = (is.map fun i => (m.readByte (byteAddr a i)).toNat <<< (8 * i)).sum := by
  induction is with
  | nil => rfl
  | cons i is ih =>
    obtain ⟨hi, rising⟩ := List.pairwise_cons.mp rising
    have ih := ih rising (fun j hj => h4 j (List.mem_cons_of_mem i hj))
    have higher : 2 ^ (8 * (i + 1)) ∣ (m.gather a is).toNat := by
      rw [ih]
      refine List.dvd_sum fun x hx => ?_
      obtain ⟨j, hj, rfl⟩ := List.mem_map.mp hx
      have hij : i < j := hi j hj
      exact Dvd.dvd.trans (Nat.pow_dvd_pow 2 (by omega)) ⟨_, (Nat.shiftLeft_eq _ _).trans (Nat.mul_comm _ _)⟩
    rw [Memory.gather, BitVec.toNat_or, toNat_shiftLeft_byte _ (h4 i List.mem_cons_self), byte_or_higher _ higher, ih,
      List.map_cons, List.sum_cons]

/-- Settles O11: the bytes of an access are gathered from rising places. -/
theorem readIsLittleEndian : Obligations.ReadIsLittleEndian := by
  intro m a w
  simp only [← byteAddr_eq]
  exact m.toNat_gather a (by cases w <;> decide) (by cases w <;> decide)

end Machine

end Sys2Proof
end

section
/-! PROOFS. The pointer forms of the address operand (40_pointer_expressions.md R76 to R82; 43_block_transfers.md
R122). -/

namespace Sys2Proof.Machine

/-- The state after PTRx has moved by `step`. -/
def State.movePtr (s : State) (p : Ptr) (step : Int) : State :=
  s.setCog (s.cog.setPtr p (stepPointer (s.cog.ptr p) step))

section PointerForms

variable (p : Ptr) (s : State)

/-! ### A single access -/

theorem effAddr_post {i : BitVec 5} (hi : i ≠ 0) (scale : Nat) : effAddr (.ptr p (.post i)) scale s =
    .ok ((s.cog.ptr p).setWidth 20, s.movePtr p (i.toInt * scale)) := by
  exact (if_neg hi).trans (by simp [updatePointer, State.movePtr])

theorem effAddr_pre {i : BitVec 5} (hi : i ≠ 0) (scale : Nat) : effAddr (.ptr p (.pre i)) scale s =
    .ok (pointerPlus (s.cog.ptr p) (i.toInt * scale), s.movePtr p (i.toInt * scale)) := by
  exact (if_neg hi).trans (by simp [updatePointer, State.movePtr])

/-- Settles O7: the address is a sum with no update. -/
theorem indexFormAddress : Obligations.IndexFormAddress := by
  intro p i w s
  exact ⟨_, rfl, pointerPlus_toNat ..⟩

/-- Settles O9: the two forms share the new pointer, whatever it is. -/
theorem updatingFormBeyondRange : Obligations.UpdatingFormBeyondRange := by
  intro p i w s hi
  exact ⟨_, _, stepPointer _ _, rfl, pointerPlus_toNat .., effAddr_post p s hi _, effAddr_pre p s hi _⟩

/-- A pointer and a step whose sum stays inside 0 to 2^20 - 1: the old address, the new pointer and the new address are
the numbers themselves. -/
theorem pointer_exact {old : Word} {step : Int} (h1 : old.toNat < 2 ^ 20) (h2 : 0 ≤ (old.toNat : Int) + step)
    (h3 : (old.toNat : Int) + step < 2 ^ 20) :
    (old.setWidth 20).toNat = old.toNat ∧ ((stepPointer old step).toNat : Int) = old.toNat + step ∧
      (pointerPlus old step).toNat = (stepPointer old step).toNat := by
  have hnew := stepPointer_exact h1 h2 h3
  have hsum := pointerPlus_toNat old step
  rw [Int.emod_eq_of_lt h2 h3, ← hnew] at hsum
  exact ⟨by rw [BitVec.toNat_setWidth, Nat.mod_eq_of_lt h1], hnew, by exact_mod_cast hsum⟩

/-- Settles O8: both forms have their equations, and inside the range these are exact. -/
theorem updatingFormExact : Obligations.UpdatingFormExact := by
  intro p i w s hi h1 h2 h3
  obtain ⟨hold, hnew, hsum⟩ := pointer_exact h1 h2 h3
  exact ⟨_, _, _, hold, hnew, hsum, effAddr_post p s hi _, effAddr_pre p s hi _⟩

/-! ### A block transfer -/

variable (n : Nat)

theorem effAddrBlock_reg {r : RegAddr} (hr : namesPointer r = false) :
    effAddrBlock (.reg r) n s = .ok ((s.cog.reg r).setWidth 20, s) := by
  simp [effAddrBlock, readReg_of s hr]

theorem effAddrBlock_index_zero : effAddrBlock (.ptr p (.index 0)) n s = .ok ((s.cog.ptr p).setWidth 20, s) := by
  simp [effAddrBlock]

theorem effAddrBlock_post_up : effAddrBlock (.ptr p (.post 1)) n s =
    .ok ((s.cog.ptr p).setWidth 20, s.movePtr p (4 * n)) := by
  simp [effAddrBlock, updatePointer, State.movePtr]

theorem effAddrBlock_pre_up : effAddrBlock (.ptr p (.pre 1)) n s =
    .ok (pointerPlus (s.cog.ptr p) (4 * n), s.movePtr p (4 * n)) := by
  simp [effAddrBlock, updatePointer, State.movePtr]

theorem effAddrBlock_post_down : effAddrBlock (.ptr p (.post (-1))) n s =
    .ok ((s.cog.ptr p).setWidth 20, s.movePtr p (-(4 * n))) := by
  simp [effAddrBlock, updatePointer, State.movePtr]

theorem effAddrBlock_pre_down : effAddrBlock (.ptr p (.pre (-1))) n s =
    .ok (pointerPlus (s.cog.ptr p) (-(4 * n)), s.movePtr p (-(4 * n))) := by
  simp [effAddrBlock, updatePointer, State.movePtr]

end PointerForms

/-- Settles O10: the equations of the valid forms, exact where R82 fixes the pointer, and the refusal of the rest. -/
theorem blockFormAddress : Obligations.BlockFormAddress := by
  intro n s
  refine ⟨fun r => effAddrBlock_reg s n, fun v => rfl, fun p => effAddrBlock_index_zero p s n, fun p h => ?up,
    fun p h1 h2 => ?down, fun p => ?every, fun p i hi => ?index, fun p i h1 h2 => ?other⟩
  case up =>
    obtain ⟨hold, hnew, hsum⟩ := pointer_exact (old := s.cog.ptr p) (step := 4 * n) (by omega) (by omega) (by omega)
    exact ⟨_, _, _, hold, by omega, hsum, effAddrBlock_post_up p s n, effAddrBlock_pre_up p s n⟩
  case down =>
    obtain ⟨hold, hnew, hsum⟩ := pointer_exact (old := s.cog.ptr p) (step := -(4 * n)) h1 (by omega) (by omega)
    exact ⟨_, _, _, hold, by omega, hsum, effAddrBlock_post_down p s n, effAddrBlock_pre_down p s n⟩
  case every =>
    exact ⟨_, _, _, stepPointer _ _, stepPointer _ _, rfl, pointerPlus_toNat .., pointerPlus_toNat ..,
      effAddrBlock_post_up p s n, effAddrBlock_pre_up p s n, effAddrBlock_post_down p s n, effAddrBlock_pre_down p s n⟩
  case index => exact effAddrBlock_notValid n s (.inl ⟨p, i, rfl, hi⟩)
  case other =>
    exact ⟨effAddrBlock_notValid n s (.inr ⟨p, i, .inl rfl, h1, h2⟩),
      effAddrBlock_notValid n s (.inr ⟨p, i, .inr rfl, h1, h2⟩)⟩

end Sys2Proof.Machine
end

section
/-! PROOFS. Data operands, SETQ and SETQ2, and the condition field (30_encoding.md R54, R56; 42_hub_writes.md R105;
43_block_transfers.md R110, R111). -/

namespace Sys2Proof.Machine

/-- Settles O18: a register by the equation of `readReg`; the 9-bit immediate loses no bit in 32. -/
theorem dataOperands : Obligations.DataOperands := by
  intro s
  refine ⟨fun r hr => ⟨readReg_of s hr, readReg_of s hr⟩, fun v => ?_, fun v => rfl⟩
  have value_kept : (v.setWidth 32).toNat = v.toNat := BitVec.toNat_setWidth_of_le (by decide)
  exact ⟨v.setWidth 32, value_kept, rfl, rfl⟩

/-- SETQ and SETQ2 when nothing is pending and their operand has a value. -/
theorem setPrefix_of {s : State} {arg : QArg} {v : Word} (p : Prefix) (hq : s.cog.qpfx = .none)
    (hv : readQArg arg s = .ok v) :
    setPrefix p arg s = .next (s.setCog { s.cog with q := v, qpfx := p, pc := s.cog.pc + 1 }) := by
  simp [setPrefix, hq, hv]

/-- Settles O26: under `1111` each is `setPrefix`, with its own prefix. -/
theorem setqResult : Obligations.SetqResult := by
  intro arg s v hq hv
  exact ⟨(runIf_always s _).trans (setPrefix_of .setq hq hv), (runIf_always s _).trans (setPrefix_of .setq2 hq hv)⟩

/-- Settles O37: SETQ and SETQ2 set up no transfer, so they are skipped or set their own fields. -/
theorem prefixFrame : Obligations.PrefixFrame := by
  intro e arg s t i hi h
  have no_transfer : issue i s = none := by obtain rfl | rfl := hi <;> rfl
  refine ⟨exec_frame h, ?_⟩
  obtain rfl | ⟨s1, tr, hissue, -⟩ | ⟨p, arg', v, -, rfl⟩ := exec_next h
  · simp
  · rw [no_transfer] at hissue
    cases hissue
  · simpa using fun p => by cases p <;> rfl

/-- An instruction under any condition field is one and the same outcome, under that field. -/
theorem exec_withCond (i : Instr) (s : State) : ∃ ran, ∀ e, exec (i.withCond e) s = runIf e s ran := by
  cases i <;> exact ⟨_, fun e => rfl⟩

theorem withCond_cond (i : Instr) : i.withCond i.cond = i := by cases i <;> rfl

/-- Settles O40: one outcome, under the instruction's field and under `1111`, where it always runs. -/
theorem conditionField : Obligations.ConditionField := by
  refine ⟨condHolds_always, fun i s => ?_⟩
  obtain ⟨ran, hran⟩ := exec_withCond i s
  have own := hran i.cond
  rw [withCond_cond] at own
  rw [own, hran always, runIf_always]
  split
  · next hc => exact runIf_holds ran hc
  · next hc => exact runIf_skips ran (by simpa using hc)

end Sys2Proof.Machine
end

section
/-! PROOFS. What is refused (10_state.md R14; 20_memory.md R38; 40_pointer_expressions.md R80; 43_block_transfers.md
R112 to R115, R118, R122): each instruction is the setting up of a transfer, and that is refused. -/

namespace Sys2Proof.Machine

/-! ### Each instruction as the setting up of a transfer -/

section Forms

variable {d : RegAddr} {data : Data} {src : Src} {s : State}

/-! With no prefix pending each write is a single write (R101 to R104). -/

theorem exec_wrbyte_single (hq : s.cog.qpfx = .none) :
    exec (.wrbyte always data src) s = perform (issueWrite .byte false data src s) := by
  simp [exec, execWrbyte, hq]

theorem exec_wrword_single (hq : s.cog.qpfx = .none) :
    exec (.wrword always data src) s = perform (issueWrite .word false data src s) := by
  simp [exec, execWrword, hq]

theorem exec_wrlong_single (hq : s.cog.qpfx = .none) :
    exec (.wrlong always data src) s = perform (issueWrite .long false data src s) := by
  simp [exec, execWrlong, issueWrlong, hq]

theorem exec_wmlong_single (hq : s.cog.qpfx = .none) :
    exec (.wmlong always d src) s = perform (issueWrite .long true (.reg d) src s) := by
  simp [exec, execWmlong, issueWmlong, hq]

/-- What QPFX is before a block transfer of a cog-side memory (R110, R111). -/
def Side.pending : Side → Prefix
  | .regs => .setq
  | .lut => .setq2

/-- The end of a cog-side memory for block transfers (R114). -/
def Side.limit : Side → Nat
  | .regs => Config.regBlockLimit
  | .lut => Config.lutSize

theorem blockFits_iff (m : Side) (d : RegAddr) (n : Nat) : blockFits m d n = true ↔ d.toNat + n ≤ m.limit := by
  cases m <;> exact decide_eq_true_iff

/-- The two prefixes with their limits are the two cog-side memories. -/
theorem side_of_pending {limit : Nat}
    (h : (s.cog.qpfx = .setq ∧ limit = Config.regBlockLimit) ∨ (s.cog.qpfx = .setq2 ∧ limit = Config.lutSize)) :
    ∃ m : Side, s.cog.qpfx = m.pending ∧ limit = m.limit := by
  obtain ⟨hq, hl⟩ | ⟨hq, hl⟩ := h
  · exact ⟨.regs, hq, hl⟩
  · exact ⟨.lut, hq, hl⟩

variable {m : Side}

theorem exec_rdlong_side (wc wz : Bool) (hq : s.cog.qpfx = m.pending) :
    exec (.rdlong always wc wz d src) s = perform (issueBlockRead m wc wz d src s) := by
  cases m <;> simp [exec, execRdlong, issueRdlong, hq, Side.pending]

theorem exec_wrlong_side (hq : s.cog.qpfx = m.pending) :
    exec (.wrlong always data src) s = perform (issueBlockWrlong m data src s) := by
  cases m <;> simp [exec, execWrlong, issueWrlong, hq, Side.pending]

theorem exec_wmlong_side (hq : s.cog.qpfx = m.pending) :
    exec (.wmlong always d src) s = perform (issueBlockWrite m true d src s) := by
  cases m <;> simp [exec, execWmlong, issueWmlong, hq, Side.pending]

/-! ### Single accesses -/

theorem perform_error {x : Except Refusal (State × Transfer)} {why : Refusal} (h : x = .error why) :
    perform x = .refused why := by rw [h]; rfl

theorem not_populated {a : HubAddr} {w : Width} {i : Nat} (hi : i < w.scale)
    (h : Config.hubSize ≤ (a.toNat + i) % 2 ^ 20) : populated a w = false := by
  rw [← Bool.not_eq_true, populated_iff]
  exact fun inside => absurd (inside i hi) (Nat.not_lt.mpr h)

variable {w : Width} {s1 : State} {a : HubAddr}

theorem issueRead_unpopulated (wc wz : Bool) (hd : namesPointer d = false) (h : effAddr src w.scale s = .ok (a, s1))
    (hp : populated a w = false) : issueRead w wc wz d src s = .error .unpopulatedHub := by
  simp [issueRead, h, hd, hp]

theorem issueWrite_unpopulated {v : Word} (masked : Bool) (hd : readData data s = .ok v)
    (h : effAddr src w.scale s = .ok (a, s1)) (hp : populated a w = false) :
    issueWrite w masked data src s = .error .unpopulatedHub := by
  simp [issueWrite, h, hd, hp]

/-- Settles O42: of the access's own width, each instruction that has it. -/
theorem unpopulatedIsRefused : Obligations.UnpopulatedIsRefused := by
  intro wc wz d data src s s1 a v w i hq hd hv ha hi hbeyond
  have hp := not_populated hi hbeyond
  have read := perform_error (issueRead_unpopulated wc wz hd ha hp)
  have write (masked : Bool) := perform_error (issueWrite_unpopulated masked hv ha hp)
  have masked_write := perform_error (issueWrite_unpopulated true (data := .reg d) (readReg_of s hd) ha hp)
  refine ⟨?byte, ?word, ?long⟩
  case byte => rintro rfl; exact ⟨exec_rdbyte_single wc wz hq ▸ read, exec_wrbyte_single hq ▸ write false⟩
  case word => rintro rfl; exact ⟨exec_rdword_single wc wz hq ▸ read, exec_wrword_single hq ▸ write false⟩
  case long =>
    rintro rfl
    exact ⟨exec_rdlong_single wc wz hq ▸ read, exec_wrlong_single hq ▸ write false,
      exec_wmlong_single hq ▸ masked_write⟩

/-! ### A prefix before another instruction -/

theorem issueNarrowRead_pending (wc wz : Bool) (hq : s.cog.qpfx ≠ .none) :
    issueNarrowRead w wc wz d src s = .error .prefixPending := by simp [issueNarrowRead, beq_eq_false_iff_ne.mpr hq]

theorem issueNarrowWrite_pending (hq : s.cog.qpfx ≠ .none) :
    issueNarrowWrite w data src s = .error .prefixPending := by simp [issueNarrowWrite, beq_eq_false_iff_ne.mpr hq]

theorem setPrefix_pending (p : Prefix) (arg : QArg) (hq : s.cog.qpfx ≠ .none) :
    setPrefix p arg s = .refused .prefixPending := if_neg hq

/-- Settles O43: under `1111` each of the six is refused as its setting up is. -/
theorem prefixBeforeOthersIsRefused : Obligations.PrefixBeforeOthersIsRefused := by
  intro wc wz d data src arg s hq
  have under_always := runIf_always s
  exact ⟨(under_always _).trans (perform_error (issueNarrowRead_pending wc wz hq)),
    (under_always _).trans (perform_error (issueNarrowRead_pending wc wz hq)),
    (under_always _).trans (perform_error (issueNarrowWrite_pending hq)),
    (under_always _).trans (perform_error (issueNarrowWrite_pending hq)),
    (under_always _).trans (setPrefix_pending .setq arg hq), (under_always _).trans (setPrefix_pending .setq2 arg hq)⟩

/-! ### Block transfers -/

theorem issueBlockRead_count (wc wz : Bool) (h : Config.blockMax < blockLongs s) :
    issueBlockRead m wc wz d src s = .error .blockCount := by
  simp [issueBlockRead, Nat.not_le.mpr h]

theorem issueBlockWrite_count (masked : Bool) (h : Config.blockMax < blockLongs s) :
    issueBlockWrite m masked d src s = .error .blockCount := by
  simp [issueBlockWrite, Nat.not_le.mpr h]

theorem issueFill_count (v : Word) (h : Config.blockMax < blockLongs s) : issueFill m v src s = .error .blockCount := by
  simp [issueFill, Nat.not_le.mpr h]

theorem issueBlockRead_range (wc wz : Bool) (h1 : blockLongs s ≤ Config.blockMax)
    (h2 : blockFits m d (blockLongs s) = false) : issueBlockRead m wc wz d src s = .error .blockRange := by
  simp [issueBlockRead, h1, h2]

theorem issueBlockWrite_range (masked : Bool) (h1 : blockLongs s ≤ Config.blockMax)
    (h2 : blockFits m d (blockLongs s) = false) : issueBlockWrite m masked d src s = .error .blockRange := by
  simp [issueBlockWrite, h1, h2]

theorem issueFill_lut (v : Word) (h : blockLongs s ≤ Config.blockMax) :
    issueFill .lut v src s = .error .fillUnderSetq2 := by
  simp [issueFill, h, show (Side.lut == Side.regs) = false from rfl]

/-- The long instructions where the address of the block is refused. -/
theorem block_refused_by_address {why : Refusal} (wc wz : Bool) (hq : s.cog.qpfx = m.pending)
    (hmax : blockLongs s ≤ Config.blockMax) (haddr : blockAddr src (blockLongs s) s = .error why) :
    (d.toNat + blockLongs s ≤ m.limit →
      exec (.rdlong always wc wz d src) s = .refused why ∧
      exec (.wrlong always (.reg d) src) s = .refused why ∧
      exec (.wmlong always d src) s = .refused why) ∧
    (s.cog.qpfx = .setq → (∀ r, data ≠ .reg r) → exec (.wrlong always data src) s = .refused why) := by
  refine ⟨fun hfits => ?side, fun hsetq hfill => ?fill⟩
  case side =>
    rw [← blockFits_iff] at hfits
    rw [exec_rdlong_side wc wz hq, exec_wrlong_side hq, exec_wmlong_side hq]
    exact ⟨perform_error (issueBlockRead_error wc wz hmax hfits haddr),
      perform_error (issueBlockWrite_error false hmax hfits haddr),
      perform_error (issueBlockWrite_error true hmax hfits haddr)⟩
  case fill =>
    obtain ⟨v, -, hv⟩ := issueBlockWrlong_fill hfill .regs src s
    rw [exec_wrlong_side (m := .regs) hsetq, hv]
    exact perform_error (issueFill_error v hmax haddr)

end Forms

/-- Settles O44: the clauses follow the order in which a block transfer is checked. -/
theorem blockRefusals : Obligations.BlockRefusals := by
  intro wc wz d fill src s s1 a n limit hn hfill hside
  obtain ⟨m, hq, rfl⟩ := side_of_pending hside
  obtain rfl : n = blockLongs s := hn
  obtain ⟨v, -, hv⟩ := issueBlockWrlong_fill hfill m src s
  refine ⟨fun hcount => ?count, fun hmax hrange => ?range, fun hmax hlut => ?lut, fun why hmax hwhy => ?address⟩
  case count =>
    rw [exec_rdlong_side wc wz hq, exec_wrlong_side hq, exec_wrlong_side hq, exec_wmlong_side hq, hv]
    exact ⟨perform_error (issueBlockRead_count wc wz hcount), perform_error (issueBlockWrite_count false hcount),
      perform_error (issueFill_count v hcount), perform_error (issueBlockWrite_count true hcount)⟩
  case range =>
    have hfits : blockFits m d (blockLongs s) = false := by
      rw [← Bool.not_eq_true, blockFits_iff]
      exact Nat.not_le.mpr hrange
    rw [exec_rdlong_side wc wz hq, exec_wrlong_side hq, exec_wmlong_side hq]
    exact ⟨perform_error (issueBlockRead_range wc wz hmax hfits),
      perform_error (issueBlockWrite_range false hmax hfits),
      perform_error (issueBlockWrite_range true hmax hfits)⟩
  case lut =>
    obtain rfl : m = .lut := by cases m <;> simp_all [Side.pending]
    rw [exec_wrlong_side hq, hv]
    exact perform_error (issueFill_lut v hmax)
  case address =>
    have haddr : blockAddr src (blockLongs s) s = .error why := by
      refine blockAddr_error ?_
      obtain ⟨p, i, rfl, hi, rfl⟩ | ⟨p, i, hform, h1, h2, rfl⟩ | ⟨ha, h4, rfl⟩ | ⟨ha, h4, hbeyond, rfl⟩ := hwhy
      · exact .inl (effAddrBlock_notValid _ s (.inl ⟨p, i, rfl, hi⟩))
      · exact .inl (effAddrBlock_notValid _ s (.inr ⟨p, i, hform, h1, h2⟩))
      · exact .inr ⟨a, s1, ha, .inl ⟨h4, rfl⟩⟩
      · exact .inr ⟨a, s1, ha, .inr ⟨h4, decide_eq_false (Nat.not_le.mpr hbeyond), rfl⟩⟩
    obtain ⟨side, fills⟩ := block_refused_by_address (data := fill) wc wz hq hmax haddr
    exact ⟨side, fun hsetq => fills hsetq hfill⟩

/-! ### Operands without a meaning -/

section Operands

variable {wc wz : Bool} {r d : RegAddr} {src : Src} {data : Data} {v : Word} {s : State}

/-- The reason an S operand has no address in a single access. -/
theorem effAddr_refused {why : Refusal} (hr : namesPointer r = true)
    (h : (src = .reg r ∧ why = .pointerRegister) ∨
      (∃ p, (src = .ptr p (.post 0) ∨ src = .ptr p (.pre 0)) ∧ why = .indexFieldZero)) (scale : Nat) :
    effAddr src scale s = .error why := by
  obtain ⟨rfl, rfl⟩ | ⟨p, rfl | rfl, rfl⟩ := h
  · simp [effAddr, readReg_pointer s hr]
  · rfl
  · rfl

theorem setPrefix_pointer (p : Prefix) (hr : namesPointer r = true) (hq : s.cog.qpfx = .none) :
    setPrefix p (.reg r) s = .refused .pointerRegister := by
  simp [setPrefix, hq, readQArg, readReg_pointer s hr]

/-- A D register field that names a pointer, with no prefix pending. -/
theorem pointer_destination_refused (hr : namesPointer r = true) (hq : s.cog.qpfx = .none) :
    (∀ a s1, effAddr src 1 s = .ok (a, s1) → exec (.rdbyte always wc wz r src) s = .refused .pointerRegister) ∧
    (∀ a s1, effAddr src 2 s = .ok (a, s1) → exec (.rdword always wc wz r src) s = .refused .pointerRegister) ∧
    (∀ a s1, effAddr src 4 s = .ok (a, s1) → exec (.rdlong always wc wz r src) s = .refused .pointerRegister) ∧
    exec (.wrbyte always (.reg r) src) s = .refused .pointerRegister ∧
    exec (.wrword always (.reg r) src) s = .refused .pointerRegister ∧
    exec (.wrlong always (.reg r) src) s = .refused .pointerRegister ∧
    exec (.wmlong always r src) s = .refused .pointerRegister ∧
    exec (.setq always (.reg r)) s = .refused .pointerRegister ∧
    exec (.setq2 always (.reg r)) s = .refused .pointerRegister := by
  rw [exec_rdbyte_single wc wz hq, exec_rdword_single wc wz hq, exec_rdlong_single wc wz hq, exec_wrbyte_single hq,
    exec_wrword_single hq, exec_wrlong_single hq, exec_wmlong_single hq]
  have write (w : Width) (masked : Bool) := perform_error (issueWrite_pointer w masked src s hr)
  exact ⟨fun a s1 ha => perform_error (issueRead_pointer wc wz hr ha),
    fun a s1 ha => perform_error (issueRead_pointer wc wz hr ha),
    fun a s1 ha => perform_error (issueRead_pointer wc wz hr ha),
    write .byte false, write .word false, write .long false, write .long true,
    (runIf_always s _).trans (setPrefix_pointer .setq hr hq), (runIf_always s _).trans (setPrefix_pointer .setq2 hr hq)⟩

/-- An S operand without an address, with no prefix pending. -/
theorem address_refused {why : Refusal} (haddr : ∀ scale, effAddr src scale s = .error why) (hq : s.cog.qpfx = .none)
    (hd : namesPointer d = false) (hv : readData data s = .ok v) :
    exec (.rdbyte always wc wz d src) s = .refused why ∧
    exec (.rdword always wc wz d src) s = .refused why ∧
    exec (.rdlong always wc wz d src) s = .refused why ∧
    exec (.wrbyte always data src) s = .refused why ∧
    exec (.wrword always data src) s = .refused why ∧
    exec (.wrlong always data src) s = .refused why ∧
    exec (.wmlong always d src) s = .refused why := by
  rw [exec_rdbyte_single wc wz hq, exec_rdword_single wc wz hq, exec_rdlong_single wc wz hq, exec_wrbyte_single hq,
    exec_wrword_single hq, exec_wrlong_single hq, exec_wmlong_single hq]
  have read (w : Width) := perform_error (issueRead_error (w := w) wc wz d (haddr _))
  have write (w : Width) := perform_error (issueWrite_error (w := w) false hv (haddr _))
  exact ⟨read .byte, read .word, read .long, write .byte, write .word, write .long,
    perform_error (issueWrite_error true (readReg_of s hd) (haddr _))⟩

/-- Settles O45: the D field, the S operand of a single access, and the S field of a block transfer. -/
theorem operandRefusals : Obligations.OperandRefusals := by
  intro wc wz r d src data v s hr
  have block_address (n : Nat) : effAddrBlock (.reg r) n s = .error .pointerRegister := by
    simp [effAddrBlock, readReg_pointer s hr]
  refine ⟨pointer_destination_refused hr, fun why hwhy => ?single, block_address,
    fun n limit fill hn hmax hfill hside => ?block⟩
  case single =>
    have haddr := effAddr_refused (s := s) hr hwhy
    exact ⟨fun w => haddr w.scale, address_refused haddr⟩
  case block =>
    obtain ⟨m, hq, rfl⟩ := side_of_pending hside
    obtain rfl : n = blockLongs s := hn
    obtain ⟨side, fills⟩ := block_refused_by_address (d := d) (data := fill) wc wz hq hmax
      (blockAddr_error (.inl (block_address _)))
    exact ⟨side, fun hsetq => fills hsetq hfill⟩

end Operands

end Sys2Proof.Machine
end

section
/-! PROOFS. Single reads and writes that complete (41_hub_reads.md R91 to R93, 42_hub_writes.md R101 to R104), and the
stack aliases, which are two of them (44_aliases.md). -/

namespace Sys2Proof.Machine

/-! ### Reads -/

/-- A read is zero above its width (R31). -/
theorem Memory.getLsbD_read_beyond (m : Memory) (a : HubAddr) {w : Width} {n : Nat} (h : 8 * w.scale ≤ n) :
    (m.read a w).getLsbD n = false := by
  by_cases hn : n < 32
  · rw [getLsbD_eq_byteAt, m.byteAt_read a w (by omega), if_neg (by omega)]
    exact BitVec.getLsbD_zero
  · exact BitVec.getLsbD_of_ge _ _ (by omega)

theorem Memory.read_byte (m : Memory) (a : HubAddr) : m.read a .byte = (m.readByte a.toNat).setWidth 32 := by
  simp [Memory.read, Width.bytes, Memory.gather, byteAddr]

section Read

variable {w : Width} {d : RegAddr} {src : Src} {s s1 : State} {a : HubAddr}

/-- What a single read leaves in its cog and in Hub RAM: the rules of R91 to R93 for the value `v`. -/
theorem completeLoad_result (wc wz : Bool) (v : Word) (moved : PointerMoved src s s1) :
    let t := completeLoad w d wc wz v s1
    t.cog.reg d = v ∧ t.cog.c = (if wc then topBit w v else s.cog.c) ∧
    t.cog.z = (if wz then decide (v = 0) else s.cog.z) ∧ t.cog.ptra = s1.cog.ptra ∧ t.cog.ptrb = s1.cog.ptrb ∧
    t.hub = s.hub ∧ t.cog.qpfx = .none ∧ t.cog.pc = s.cog.pc + 1 := by
  obtain ⟨hub, -, -, c, z, -, -, pc, -⟩ := moved.same
  simp [completeLoad, hub, c, z, pc, beq_eq_decide]

/-- Settles O15: with nothing pending RDLONG is a single read, which completes. -/
theorem rdlongResult : Obligations.RdlongResult := by
  intro wc wz d src s s1 a hq hd ha hp
  exact ⟨_, (exec_rdlong_single wc wz hq).trans (perform_issueRead wc wz hd ha hp),
    completeLoad_result wc wz _ (effAddr_ok ha)⟩

/-- Settles O16: as RDLONG, and a word read has no bit above 15. -/
theorem rdwordResult : Obligations.RdwordResult := by
  intro wc wz d src s s1 a hq hd ha hp
  obtain ⟨hreg, rest⟩ := completeLoad_result (w := .word) (d := d) wc wz (s.hub.read a .word) (effAddr_ok ha)
  have upper : (s.hub.read a .word).extractLsb' 16 16 = 0#16 := by
    apply BitVec.eq_of_getLsbD_eq
    intro n hn
    simp [s.hub.getLsbD_read_beyond a (w := .word) (n := 16 + n) (Nat.le_add_right 16 n)]
  exact ⟨_, (exec_rdword_single wc wz hq).trans (perform_issueRead wc wz hd ha hp), hreg,
    by rw [hreg]; exact upper, rest⟩

/-- Settles O17: as RDLONG, and a byte read is one byte of Hub RAM, zero-extended. -/
theorem rdbyteResult : Obligations.RdbyteResult := by
  intro wc wz d src s s1 a hq hd ha hp
  have result := completeLoad_result (w := .byte) (d := d) wc wz (s.hub.read a .byte) (effAddr_ok ha)
  have zero_iff : ((s.hub.readByte a.toNat).setWidth 32 = (0 : Word)) = (s.hub.readByte a.toNat = 0) := by
    rw [← BitVec.toNat_inj, ← BitVec.toNat_inj, BitVec.toNat_setWidth_of_le (by decide)]
    rfl
  have top : topBit .byte ((s.hub.readByte a.toNat).setWidth 32) = (s.hub.readByte a.toNat).getLsbD 7 := by
    simp [topBit]
  refine ⟨_, (exec_rdbyte_single wc wz hq).trans (perform_issueRead wc wz hd ha hp), ?_⟩
  simpa only [Memory.read_byte, top, zero_iff] using result

end Read

/-! ### Writes -/

section Write

variable {w : Width} {masked : Bool} {data : Data} {v : Word} {src : Src} {s s1 : State} {a : HubAddr}

/-- The state after a single write. -/
def stored (masked : Bool) (w : Width) (a : HubAddr) (v : Word) (s s1 : State) : State :=
  (s1.setHub (s.hub.scatter masked v a w.bytes)).retire

theorem perform_issueWrite (hv : readData data s = .ok v) (ha : effAddr src w.scale s = .ok (a, s1))
    (hp : populated a w = true) :
    perform (issueWrite w masked data src s) = .next (stored masked w a v s s1) := by
  obtain ⟨hub, -⟩ := (effAddr_ok ha).same
  simp [issueWrite_of hv ha hp, perform, Transfer.finish, stored, hub]

@[simp] theorem hub_stored (masked : Bool) (w : Width) (a : HubAddr) (v : Word) (s s1 : State) :
    (stored masked w a v s s1).hub = s.hub.scatter masked v a w.bytes := rfl

/-- Of the acting cog a write changes the pointer (in `s1`), QPFX and pc. -/
theorem cog_stored (moved : PointerMoved src s s1) :
    (stored masked w a v s s1).cog = { s1.cog with qpfx := .none, pc := s.cog.pc + 1 } := by
  obtain ⟨-, -, -, -, -, -, -, pc, -⟩ := moved.same
  simp [stored, Cog.retire, pc]

/-- The bytes an unmasked write leaves. -/
theorem bytes_stored (w : Width) (a : HubAddr) (v : Word) (s s1 : State) :
    let t := stored false w a v s s1
    (∀ i, i < w.scale → t.hub.readByte ((a.toNat + i) % 2 ^ 20) = v.extractLsb' (8 * i) 8) ∧
    ∀ b, (∀ i, i < w.scale → b ≠ (a.toNat + i) % 2 ^ 20) → t.hub.readByte b = s.hub.readByte b :=
  writeSetsItsBytesOnly s.hub a w v

/-- Settles O19, one width at a time. -/
theorem plainWriteResult : Obligations.PlainWriteResult := by
  intro data src s s1 a v w hq hv ha hp
  have completes : perform (issueWrite w false data src s) = .next (stored false w a v s s1) :=
    perform_issueWrite hv ha hp
  obtain ⟨written, kept⟩ := bytes_stored w a v s s1
  refine ⟨_, ?_, written, kept, cog_stored (effAddr_ok ha)⟩
  cases w with
  | byte => exact (exec_wrbyte_single hq).trans completes
  | word => exact (exec_wrword_single hq).trans completes
  | long => exact (exec_wrlong_single hq).trans completes

/-- Settles O20: a masked write of x[D]. -/
theorem wmlongResult : Obligations.WmlongResult := by
  intro d src s s1 a hq hd ha hp
  obtain ⟨written, kept⟩ := maskedWriteSkipsZeroBytes s.hub a (s.cog.reg d)
  exact ⟨_, (exec_wmlong_single hq).trans (perform_issueWrite (readReg_of s hd) ha hp), written, kept,
    cog_stored (effAddr_ok ha)⟩

/-- A masked write of bytes none of which is zero is a write. -/
theorem Memory.scatter_masked_nonzero (m : Memory) (a : HubAddr) {is : List Nat} (h : ∀ i ∈ is, byteAt v i ≠ 0) :
    m.scatter true v a is = m.scatter false v a is := by
  induction is generalizing m with
  | nil => rfl
  | cons i is ih =>
    have nonzero : (byteAt v i == 0) = false := beq_eq_false_iff_ne.mpr (h i List.mem_cons_self)
    simp only [Memory.scatter, nonzero, Bool.and_false, Bool.false_eq_true, if_false]
    exact ih _ (fun j hj => h j (List.mem_cons_of_mem i hj))

/-- The two instructions set up the same write but for the mask, and are refused alike. -/
theorem perform_issueWrite_masked (h : ∀ v, readData data s = .ok v → ∀ i ∈ w.bytes, byteAt v i ≠ 0) :
    perform (issueWrite w true data src s) = perform (issueWrite w false data src s) := by
  unfold issueWrite
  cases hv : readData data s with
  | error r => rfl
  | ok v =>
    simp only [ok_bind]
    cases effAddr src w.scale s with
    | error r => rfl
    | ok as =>
      simp only [ok_bind]
      cases populated as.1 w with
      | false => rfl
      | true => simp [perform, Transfer.finish, Memory.scatter_masked_nonzero _ _ (h v hv)]

/-- Settles O21: with nothing pending both are a single write of x[D], and the mask leaves out no byte. -/
theorem wmlongWithoutZeroByteIsWrlong : Obligations.WmlongWithoutZeroByteIsWrlong := by
  intro e d src s hq hbytes
  have same := perform_issueWrite_masked (w := .long) (data := .reg d) (src := src) (s := s) (fun v hv i hi => by
    rw [(readReg_ok hv).2]
    exact hbytes i ((Width.mem_bytes .long i).mp hi))
  simp only [exec, execWmlong, execWrlong, issueWmlong, issueWrlong, hq, same]

end Write

/-! ### The stack aliases -/

section Stack

variable (p : Ptr) (s : State)

theorem exec_push (data : Data) :
    exec (match p with | .a => .pusha always data | .b => .pushb always data) s =
      exec (.wrlong always data (.ptr p (.post 1))) s := by cases p <;> rfl

theorem exec_pop (wc wz : Bool) (d : RegAddr) :
    exec (match p with | .a => .popa always wc wz d | .b => .popb always wc wz d) s =
      exec (.rdlong always wc wz d (.ptr p (.pre (-1)))) s := by cases p <;> rfl

theorem long_populated {a : HubAddr} (h : a.toNat + 4 ≤ Config.hubSize) : populated a .long = true := by
  rw [populated_iff]
  intro i hi
  have hi : i < 4 := hi
  exact lt_of_le_of_lt (Nat.mod_le _ _) (by omega)

/-- Settles O23: WRLONG through the post form with index 1, whose step is 4. -/
theorem pushResult : Obligations.PushResult := by
  intro p data s v hq hv hinside
  have hinside' := hinside
  unfold Config.hubSize at hinside'
  have ha := effAddr_post p s (i := 1) (by decide) Width.long.scale
  have step : (1 : BitVec 5).toInt * Width.long.scale = 4 := by decide
  rw [step] at ha
  obtain ⟨hold, hnew, -⟩ := pointer_exact (old := s.cog.ptr p) (step := 4) (by omega) (by omega) (by omega)
  have hp := long_populated (hold.symm ▸ hinside)
  obtain ⟨t, hexec, written, kept, hcog⟩ := plainWriteResult data _ s _ _ v .long hq hv ha hp
  have place : ∀ i, i < 4 → (((s.cog.ptr p).setWidth 20).toNat + i) % 2 ^ 20 = (s.cog.ptr p).toNat + i := by
    intro i hi
    rw [hold]
    omega
  refine ⟨t, stepPointer (s.cog.ptr p) 4, (exec_push p s data).trans hexec, by exact_mod_cast hnew, fun i hi => ?_,
    fun b hb => kept b (fun i hi => place i hi ▸ hb i hi), ?_⟩
  · rw [← place i hi]
    exact written i hi
  · simpa [State.movePtr] using hcog

/-- Settles O24: RDLONG through the pre form with index -1, whose step is -4. -/
theorem popResult : Obligations.PopResult := by
  intro p wc wz d s hq hd hlow hhigh
  have hhigh' := hhigh
  unfold Config.hubSize at hhigh'
  have ha := effAddr_pre p s (i := -1) (by decide) Width.long.scale
  have step : (-1 : BitVec 5).toInt * Width.long.scale = -4 := by decide
  rw [step] at ha
  obtain ⟨-, hnew, hsum⟩ := pointer_exact (old := s.cog.ptr p) (step := -4) (by omega) (by omega) (by omega)
  have hp : populated (pointerPlus (s.cog.ptr p) (-4)) .long = true := long_populated (by omega)
  obtain ⟨hreg, hc, hz, -, -, hhub, hqpfx, hpc⟩ :=
    completeLoad_result (w := .long) (d := d) wc wz (s.hub.read (pointerPlus (s.cog.ptr p) (-4)) .long) (effAddr_ok ha)
  exact ⟨_, stepPointer (s.cog.ptr p) (-4), _,
    (exec_pop p s wc wz d).trans ((exec_rdlong_single wc wz hq).trans (perform_issueRead wc wz hd ha hp)),
    by omega, hsum, by simp [completeLoad, State.movePtr], hreg, hc, hz, hhub, hqpfx, hpc⟩

/-- Settles O25: the push leaves a pointer from which the pop goes back to the same four bytes. -/
theorem pushThenPop : Obligations.PushThenPop := by
  intro p data wc wz d s v hq hv hd hinside
  obtain ⟨t, up, hpush, hup, written, -, hcog⟩ := pushResult p data s v hq hv hinside
  have pushed : t.cog.ptr p = up ∧ t.cog.qpfx = .none ∧ t.cog.pc = s.cog.pc + 1 := by
    rw [hcog]
    exact ⟨by cases p <;> rfl, rfl, rfl⟩
  obtain ⟨hptr, hqt, hpct⟩ := pushed
  obtain ⟨u, down, a, hpop, hdown, ha, hptr', hreg, -, -, hhub, -, hpc⟩ :=
    popResult p wc wz d t hqt hd (by rw [hptr]; omega) (by rw [hptr]; omega)
  rw [hptr] at hdown
  have back : down.toNat = (s.cog.ptr p).toNat := by omega
  refine ⟨t, u, hpush, hpop, hreg.trans ?_, hptr'.trans (BitVec.eq_of_toNat_eq back), by omega, hhub⟩
  refine eq_of_byteAt fun i hi => ?_
  have place : byteAddr a i = (s.cog.ptr p).toNat + i := by
    unfold Config.hubSize at hinside
    rw [byteAddr_eq, ha, back]
    omega
  rw [t.hub.byteAt_read a .long hi, if_pos (show i < Width.long.scale from hi), place]
  exact written i hi

end Stack

end Sys2Proof.Machine
end

section
/-! PROOFS. Block transfers that complete (43_block_transfers.md R113 to R121): a block read or write of either cog-side
memory, the fill, and a block of one long. -/

namespace Sys2Proof.Machine

section Block

variable {m : Side} {d : RegAddr} {src : Src} {s s1 : State} {a : HubAddr} {n : Nat}

/-! ### Block reads -/

/-- A block read completes, for registers and for Lookup RAM (R116, R117). -/
theorem exec_block_read (wc wz : Bool) (hq : s.cog.qpfx = m.pending) (hn : n = s.cog.q.toNat + 1)
    (hmax : n ≤ Config.blockMax) (hfits : d.toNat + n ≤ m.limit) (ha : effAddrBlock src n s = .ok (a, s1))
    (h4 : a.toNat % 4 = 0) (hp : a.toNat + 4 * n ≤ Config.hubSize) :
    ∃ t, exec (.rdlong always wc wz d src) s = .next t ∧
      (∀ k, k < n → t.cog.side m (d + BitVec.ofNat 9 k) = s.hub.read (a + BitVec.ofNat 20 (4 * k)) .long) ∧
      (∀ r : RegAddr, r.toNat < d.toNat ∨ d.toNat + n ≤ r.toNat → t.cog.side m r = s.cog.side m r) ∧
      (m = .regs → t.cog.lut = s.cog.lut) ∧ (m = .lut → t.cog.regs = s.cog.regs) ∧
      t.cog.ptra = s1.cog.ptra ∧ t.cog.ptrb = s1.cog.ptrb ∧ t.cog.q = s.cog.q ∧
      t.hub = s.hub ∧ t.cog.qpfx = .none ∧ t.cog.pc = s.cog.pc + 1 := by
  have fits := (blockFits_iff m d n).mpr hfits
  have issued := issueBlockRead_of (wc := wc) (wz := wz) hn hmax fits ha h4 hp
  refine ⟨_, (exec_rdlong_side wc wz hq).trans (congrArg perform issued), ?_⟩
  obtain ⟨hub, regs, lut, -, -, q, -, pc, -⟩ := (effAddrBlock_ok ha).same
  have side : ∀ r, s1.cog.side m r = s.cog.side m r := by
    intro r
    cases m
    · exact congrArg (fun regs : Vector Word 512 => regs.get ⟨r.toNat, r.isLt⟩) regs
    · exact congrArg (fun lut : Vector Word 512 => lut.get ⟨r.toNat, r.isLt⟩) lut
  subst hn
  obtain ⟨h1, h2, -, -, h5, h6, h7, h8, h9, h10, h11, h12⟩ :=
    loadBlock_spec m wc wz s.cog.q.toNat a d s1 (blockFits_le fits)
  rw [hub] at h1 h5
  rw [q] at h8
  rw [pc] at h10
  exact ⟨fun k hk => h1 k (by omega), fun r hr => (h2 r (by omega)).trans (side r), fun e => (h11 e).trans lut,
    fun e => (h12 e).trans regs, h6, h7, h8, h5, h9, h10⟩

/-- Settles O27: the block read of registers. -/
theorem blockReadToRegisters : Obligations.BlockReadToRegisters := by
  intro wc wz d src s s1 a n hq hn hmax hfits ha h4 hp
  obtain ⟨t, hexec, read, kept, lut, -, rest⟩ := exec_block_read (m := .regs) wc wz hq hn hmax hfits ha h4 hp
  exact ⟨t, hexec, read, kept, lut rfl, rest⟩

/-- Settles O28: the block read of Lookup RAM. -/
theorem blockReadToLut : Obligations.BlockReadToLut := by
  intro wc wz d src s s1 a n hq hn hmax hfits ha h4 hp
  obtain ⟨t, hexec, read, kept, -, regs, rest⟩ := exec_block_read (m := .lut) wc wz hq hn hmax hfits ha h4 hp
  exact ⟨t, hexec, read, kept, regs rfl, rest⟩

/-! ### Block writes -/

/-- A pointer update moves nothing a block write takes its longs from. -/
theorem value_of_moved (moved : PointerMoved src s s1) (origin : BlockSrc) (k : RegAddr) :
    origin.value s1.cog k = origin.value s.cog k := by
  obtain ⟨-, regs, lut, -⟩ := moved.same
  match origin with
  | .side .regs => exact congrArg (fun regs : Vector Word 512 => regs.get ⟨k.toNat, k.isLt⟩) regs
  | .side .lut => exact congrArg (fun lut : Vector Word 512 => lut.get ⟨k.toNat, k.isLt⟩) lut
  | .fill v => rfl

/-- A block write or fill that has been set up completes. -/
theorem perform_blockStore {x : Except Refusal (State × Transfer)} {origin : BlockSrc} {masked : Bool}
    (issued : x = .ok (s1, .blockStore origin a d n masked)) (moved : PointerMoved src s s1)
    (hp : a.toNat + 4 * n ≤ Config.hubSize) :
    ∃ t, perform x = .next t ∧
      (∀ k i, k < n → i < 4 → t.hub.readByte (a.toNat + 4 * k + i) =
        if masked && byteAt (origin.value s.cog (d + BitVec.ofNat 9 k)) i == 0 then s.hub.readByte (a.toNat + 4 * k + i)
        else byteAt (origin.value s.cog (d + BitVec.ofNat 9 k)) i) ∧
      (∀ b, b < a.toNat ∨ a.toNat + 4 * n ≤ b → t.hub.readByte b = s.hub.readByte b) ∧
      t.cog = { s1.cog with qpfx := .none, pc := s.cog.pc + 1 } := by
  obtain ⟨hub, -, -, -, -, -, -, pc, -⟩ := moved.same
  obtain ⟨written, kept, -⟩ := storeBlock_spec origin masked n a d s1 hp
  simp only [hub, value_of_moved moved] at written kept
  refine ⟨_, congrArg perform issued, written, kept, ?_⟩
  simp [Transfer.finish, Cog.retire, pc]

/-- Settles O30: an unmasked block write of either cog-side memory. -/
theorem blockWriteResult : Obligations.BlockWriteResult := by
  intro m d src s s1 a n hq hn hmax hfits ha h4 hp
  have hq : s.cog.qpfx = m.pending := by cases m <;> exact hq
  have fits := (blockFits_iff m d n).mpr (by cases m <;> exact hfits)
  obtain ⟨t, completes, written, kept, cog⟩ :=
    perform_blockStore (issueBlockWrite_of (masked := false) hn hmax fits ha h4 hp) (effAddrBlock_ok ha) hp
  refine ⟨t, (exec_wrlong_side hq).trans completes, fun k i hk hi => (written k i hk hi).trans ?_, kept, cog⟩
  cases m <;> rfl

/-- Settles O31: a masked block write of either cog-side memory. -/
theorem blockMaskedWriteResult : Obligations.BlockMaskedWriteResult := by
  intro m d src s s1 a n hq hn hmax hfits ha h4 hp
  have hq : s.cog.qpfx = m.pending := by cases m <;> exact hq
  have fits := (blockFits_iff m d n).mpr (by cases m <;> exact hfits)
  obtain ⟨t, completes, written, kept, cog⟩ :=
    perform_blockStore (issueBlockWrite_of (masked := true) hn hmax fits ha h4 hp) (effAddrBlock_ok ha) hp
  refine ⟨t, (exec_wmlong_side hq).trans completes, fun k i v hk hi hv => (written k i hk hi).trans ?_, kept, cog⟩
  have value : (BlockSrc.side m).value s.cog (d + BitVec.ofNat 9 k) = v := by rw [hv]; cases m <;> rfl
  simp only [value, Bool.true_and, beq_iff_eq]
  rfl

/-- Settles O32: data that is no register is the value of every long of the block. -/
theorem fillResult : Obligations.FillResult := by
  intro data v src s s1 a n hq hfill hv hn hmax ha h4 hp
  obtain ⟨v', hv', issue_fill⟩ := issueBlockWrlong_fill hfill .regs src s
  obtain rfl : v = v' := Except.ok.inj (hv.symm.trans hv')
  obtain ⟨t, completes, written, kept, cog⟩ :=
    perform_blockStore (issue_fill.trans (issueFill_of hn hmax ha h4 hp)) (effAddrBlock_ok ha) hp
  exact ⟨t, (exec_wrlong_side (m := .regs) hq).trans completes, fun k i hk hi => written k i hk hi, kept, cog⟩

/-! ### A block of one long -/

/-- The state with no prefix pending. -/
def State.noPrefix (s : State) : State := s.setCog { s.cog with qpfx := .none }

@[simp] theorem State.cog_noPrefix (s : State) : s.noPrefix.cog = { s.cog with qpfx := .none } := State.cog_setCog ..
@[simp] theorem State.hub_noPrefix (s : State) : s.noPrefix.hub = s.hub := rfl
@[simp] theorem State.setCog_noPrefix (s : State) (c : Cog) : s.noPrefix.setCog c = s.setCog c := State.setCog_setCog ..

@[simp] theorem State.ptr_noPrefix (s : State) (p : Ptr) : s.noPrefix.cog.ptr p = s.cog.ptr p := by
  rw [State.cog_noPrefix]
  cases p <;> rfl

/-- The end of an instruction clears QPFX anyway. -/
theorem State.retire_noPrefix (s : State) : s.noPrefix.retire = s.retire := by
  simp [State.retire, Cog.retire]

theorem runIf_noPrefix (e : Cond) (s : State) (ran : Host.Outcome State Fault Refusal) :
    runIf e s.noPrefix ran = runIf e s ran := by
  have flags : condHolds e s.noPrefix.cog.c s.noPrefix.cog.z = condHolds e s.cog.c s.cog.z := by
    rw [State.cog_noPrefix]
  cases hc : condHolds e s.cog.c s.cog.z with
  | true => rw [runIf_holds ran (flags.trans hc), runIf_holds ran hc]
  | false => rw [runIf_skips ran (flags.trans hc), runIf_skips ran hc, s.retire_noPrefix]

/-- The address of a block of one long is that of a single access. -/
theorem effAddr_of_block_one (h : effAddrBlock src 1 s = .ok (a, s1)) :
    effAddr src Width.long.scale s = .ok (a, s1) := by
  match src with
  | .reg r => exact h
  | .imm v => exact h
  | .ptr p (.index i) =>
    simp only [effAddrBlock] at h
    split at h
    · next hi => rw [hi]; exact h
    · cases h
  | .ptr p (.post i) =>
    simp only [effAddrBlock] at h
    split at h
    · next hi => rw [hi]; exact h
    split at h
    · next hi => rw [hi]; exact h
    · cases h
  | .ptr p (.pre i) =>
    simp only [effAddrBlock] at h
    split at h
    · next hi => rw [hi]; exact h
    split at h
    · next hi => rw [hi]; exact h
    · cases h

theorem updatePointer_noPrefix (p : Ptr) (post : Bool) (step : Int) (s : State) :
    updatePointer p post step s.noPrefix =
      ((updatePointer p post step s).1, (updatePointer p post step s).2.noPrefix) := by
  cases p <;> simp [updatePointer, State.noPrefix, Cog.setPtr, Cog.ptr]

/-- A prefix plays no part in the address of a single access. -/
theorem effAddr_noPrefix {scale : Nat} (h : effAddr src scale s = .ok (a, s1)) :
    effAddr src scale s.noPrefix = .ok (a, s1.noPrefix) := by
  match src with
  | .reg r =>
    obtain ⟨v, hv, h⟩ := bind_ok h
    obtain ⟨hr, rfl⟩ := readReg_ok hv
    cases h
    rw [effAddr_reg scale _ hr, State.cog_noPrefix]
    rfl
  | .imm v => cases h; rfl
  | .ptr p (.index i) => cases h; rw [effAddr, State.ptr_noPrefix]
  | .ptr p (.post i) =>
    simp only [effAddr, updatePointer_noPrefix] at h ⊢
    split at h
    · cases h
    · next hi => rw [if_neg hi, Except.ok.inj h]
  | .ptr p (.pre i) =>
    simp only [effAddr, updatePointer_noPrefix] at h ⊢
    split at h
    · cases h
    · next hi => rw [if_neg hi, Except.ok.inj h]

section One

variable (hq0 : s.cog.q = 0) (hd : d.toNat + 1 ≤ Config.regBlockLimit) (ha : effAddrBlock src 1 s = .ok (a, s1))
  (h4 : a.toNat % 4 = 0) (hp : a.toNat + 4 ≤ Config.hubSize)

include hd in
/-- The pointers' addresses lie beyond the registers of block transfers. -/
theorem not_pointer_of_block : namesPointer d = false := by
  unfold Config.regBlockLimit at hd
  have apart : d ≠ Config.ptraAddr ∧ d ≠ Config.ptrbAddr := by
    constructor <;> rintro rfl <;> revert hd <;> decide
  simp [namesPointer, apart]

include hq0 hd ha h4 hp

theorem perform_block_read_one (wc wz : Bool) :
    perform (issueBlockRead .regs wc wz d src s) = perform (issueRead .long wc wz d src s.noPrefix) := by
  obtain ⟨hub, -⟩ := (effAddrBlock_ok ha).same
  have single := effAddr_noPrefix (effAddr_of_block_one ha)
  have one : 1 = s.cog.q.toNat + 1 := by rw [hq0]; rfl
  have block := issueBlockRead_of (wc := wc) (wz := wz) one (by decide) ((blockFits_iff .regs d 1).mpr hd) ha h4 hp
  rw [block, perform_issueRead wc wz (not_pointer_of_block hd) single (long_populated hp)]
  simp only [perform, Transfer.finish, loadBlock, completeBlockLoad, loadLong, completeLoad, hub, State.cog_setCog,
    State.setCog_setCog, State.setCog_noPrefix, State.cog_noPrefix, State.hub_noPrefix]
  rfl

theorem perform_block_write_one (masked : Bool) :
    perform (issueBlockWrite .regs masked d src s) = perform (issueWrite .long masked (.reg d) src s.noPrefix) := by
  obtain ⟨hub, -⟩ := (effAddrBlock_ok ha).same
  have single := effAddr_noPrefix (effAddr_of_block_one ha)
  have one : 1 = s.cog.q.toNat + 1 := by rw [hq0]; rfl
  have block := issueBlockWrite_of (masked := masked) one (by decide) ((blockFits_iff .regs d 1).mpr hd) ha h4 hp
  have data : readData (.reg d) s.noPrefix = .ok (s.cog.reg d) := by
    rw [readData, readReg_of _ (not_pointer_of_block hd), State.cog_noPrefix]
    rfl
  rw [block, perform_issueWrite data single (long_populated hp)]
  have value := value_of_moved (effAddrBlock_ok ha) (.side .regs) d
  simp only [perform, Transfer.finish, storeBlock, storeLong, value, hub, stored]
  exact congrArg Host.Outcome.next (State.retire_noPrefix _).symm

end One

end Block

/-- Settles O33: the block of one long and the single access end in the same state, and both are under the same
condition. -/
theorem blockOfOneIsSingle : Obligations.BlockOfOneIsSingle := by
  intro e wc wz d src s s0 s1 a hq hq0 hd ha h4 hp hs0
  obtain rfl : s0 = s.noPrefix := hs0
  have no_prefix : s.noPrefix.cog.qpfx = .none := by rw [State.cog_noPrefix]
  simp only [exec, execRdlong, execWrlong, execWmlong, issueRdlong, issueWrlong, issueWmlong, issueBlockWrlong, hq,
    no_prefix, runIf_noPrefix, perform_block_read_one hq0 hd ha h4 hp,
    perform_block_write_one hq0 hd ha h4 hp, and_self]

end Sys2Proof.Machine
end

section
/-! PROOFS. Frames (41_hub_reads.md, 42_hub_writes.md, 43_block_transfers.md): which transfer an instruction sets up,
and what finishing that transfer leaves alone, under every condition field, prefix and operand form. -/

namespace Sys2Proof.Machine

section Frames

variable {e : Cond} {wc wz : Bool} {d : RegAddr} {data : Data} {src : Src} {s s1 t : State} {i : Instr} {tr : Transfer}

theorem side_of_prefix (hq : s.cog.qpfx ≠ .none) : ∃ m : Side, s.cog.qpfx = m.pending := by
  cases h : s.cog.qpfx with
  | none => exact absurd h hq
  | setq => exact ⟨.regs, rfl⟩
  | setq2 => exact ⟨.lut, rfl⟩

/-! ### Which transfer -/

/-- An instruction that accesses Hub RAM and completes was skipped or finished the transfer it set up. -/
theorem exec_access (hsrc : i.source = some src) (h : exec i s = .next t) :
    t = s.retire ∨ ∃ s1 tr, issue i s = some (.ok (s1, tr)) ∧ PointerMoved src s s1 ∧ t = tr.finish s1 := by
  obtain ht | ⟨s1, tr, hissue, ht⟩ | ⟨p, arg, v, ⟨hi, -⟩ | ⟨hi, -⟩, -⟩ := exec_next h
  · exact .inl ht
  · obtain ⟨src', hsrc', issued⟩ := issue_issued hissue
    obtain rfl : src = src' := Option.some.inj (hsrc.symm.trans hsrc')
    exact .inr ⟨s1, tr, hissue, issued.moved, ht⟩
  all_goals rw [hi] at hsrc; cases hsrc

/-- A read sets up a single read with no prefix pending, else a block read of the memory the prefix names. -/
theorem issue_read (hi : i = .rdbyte e wc wz d src ∨ i = .rdword e wc wz d src ∨ i = .rdlong e wc wz d src)
    (h : issue i s = some (.ok (s1, tr))) :
    (s.cog.qpfx = .none ∧ ∃ w a, tr = .load w a d wc wz w.bytes 0) ∨
      ∃ m a, s.cog.qpfx = m.pending ∧ tr = .blockLoad m a d (s.cog.q.toNat + 1) wc wz ∧
        d.toNat + s.cog.q.toNat + 1 ≤ 512 := by
  have narrow : ∀ w, issueNarrowRead w wc wz d src s = .ok (s1, tr) →
      s.cog.qpfx = .none ∧ ∃ w a, tr = .load w a d wc wz w.bytes 0 := fun w h => by
    obtain ⟨_, hq, h⟩ := bind_ok h
    obtain ⟨a, ht, -⟩ := issueRead_ok h
    exact ⟨by simpa using require_ok hq, w, a, ht⟩
  obtain rfl | rfl | rfl := hi
  · exact .inl (narrow .byte (Option.some.inj h))
  · exact .inl (narrow .word (Option.some.inj h))
  · have h : issueRdlong wc wz d src s = .ok (s1, tr) := Option.some.inj h
    by_cases hq : s.cog.qpfx = .none
    · simp only [issueRdlong, hq] at h
      obtain ⟨a, ht, -⟩ := issueRead_ok h
      exact .inl ⟨hq, _, a, ht⟩
    · obtain ⟨m, hm⟩ := side_of_prefix hq
      have h : issueBlockRead m wc wz d src s = .ok (s1, tr) := by
        cases m <;> simpa only [issueRdlong, hm, Side.pending] using h
      obtain ⟨a, ht, -, -, hfits, -⟩ := issueBlockRead_ok h
      exact .inr ⟨m, a, hm, ht, blockFits_le hfits⟩

/-- With no prefix pending a write sets up a single write at the address of its S operand. -/
theorem issue_write {w : Width} (hq : s.cog.qpfx = .none)
    (hi : (i = .wrbyte e data src ∧ w = .byte) ∨ (i = .wrword e data src ∧ w = .word) ∨
      (i = .wrlong e data src ∧ w = .long) ∨ (i = .wmlong e d src ∧ w = .long))
    (h : issue i s = some (.ok (s1, tr))) :
    ∃ a v masked, tr = .store a v masked w.bytes ∧ effAddr src w.scale s = .ok (a, s1) := by
  have single : ∃ masked data, issueWrite w masked data src s = .ok (s1, tr) := by
    obtain ⟨rfl, rfl⟩ | ⟨rfl, rfl⟩ | ⟨rfl, rfl⟩ | ⟨rfl, rfl⟩ := hi <;>
      exact ⟨_, _, by simpa [issue, issueWrlong, issueWmlong, hq] using h⟩
  obtain ⟨masked, data, h⟩ := single
  obtain ⟨a, v, ht, ha, -⟩ := issueWrite_ok h
  exact ⟨a, v, masked, ht, ha⟩

/-- A block write or fill of N longs from the address `EA_block` gives. -/
def IsBlockStore (src : Src) (s s1 : State) (tr : Transfer) : Prop :=
  ∃ origin a k masked, tr = .blockStore origin a k (s.cog.q.toNat + 1) masked ∧
    effAddrBlock src (s.cog.q.toNat + 1) s = .ok (a, s1) ∧ a.toNat + 4 * (s.cog.q.toNat + 1) ≤ Config.hubSize

theorem issueBlockWrite_isBlockStore {m : Side} {masked : Bool} (h : issueBlockWrite m masked d src s = .ok (s1, tr)) :
    IsBlockStore src s s1 tr := by
  obtain ⟨a, ht, ha, -, -, -, hp⟩ := issueBlockWrite_ok h
  exact ⟨_, a, _, _, ht, ha, of_decide_eq_true hp⟩

theorem issueFill_isBlockStore {m : Side} {v : Word} (h : issueFill m v src s = .ok (s1, tr)) :
    IsBlockStore src s s1 tr := by
  obtain ⟨a, ht, ha, -, -, -, hp⟩ := issueFill_ok h
  exact ⟨_, a, _, _, ht, ha, of_decide_eq_true hp⟩

/-- With a prefix pending a long write sets up a block write or a fill. -/
theorem issue_block_write (hq : s.cog.qpfx ≠ .none) (hi : i = .wrlong e data src ∨ i = .wmlong e d src)
    (h : issue i s = some (.ok (s1, tr))) : IsBlockStore src s s1 tr := by
  obtain ⟨m, hm⟩ := side_of_prefix hq
  obtain rfl | rfl := hi
  · have h : issueBlockWrlong m data src s = .ok (s1, tr) := by
      cases m <;> simpa only [issue, issueWrlong, hm, Side.pending, Option.some.injEq] using h
    cases data with
    | reg d => exact issueBlockWrite_isBlockStore h
    | imm v => exact issueFill_isBlockStore h
    | aug v => exact issueFill_isBlockStore h
  · have h : issueBlockWrite m true d src s = .ok (s1, tr) := by
      cases m <;> simpa only [issue, issueWmlong, hm, Side.pending, Option.some.injEq] using h
    exact issueBlockWrite_isBlockStore h

/-! ### What finishing it leaves alone -/

theorem Cog.ptr_of {x y : Cog} (ha : x.ptra = y.ptra) (hb : x.ptrb = y.ptrb) (p : Ptr) : x.ptr p = y.ptr p := by
  cases p
  · exact ha
  · exact hb

theorem Cog.reg_of {x y : Cog} (h : x.regs = y.regs) (r : RegAddr) : x.reg r = y.reg r := by simp only [Cog.reg, h]

theorem Cog.lutAt_of {x y : Cog} (h : x.lut = y.lut) (r : RegAddr) : x.lutAt r = y.lutAt r := by
  simp only [Cog.lutAt, h]

/-- What a read leaves alone, `q` being the prefix it found: the registers and longs of Lookup RAM it does not load, the
pointers, Q and Hub RAM. -/
structure ReadLeaves (q : Prefix) (d : RegAddr) (s t : State) : Prop where
  hub : t.hub = s.hub
  reg : ∀ r : RegAddr, (q = .none → r ≠ d) →
    (q = .setq → r.toNat < d.toNat ∨ d.toNat + s.cog.q.toNat < r.toNat) → t.cog.reg r = s.cog.reg r
  lut : ∀ r : RegAddr, (q = .setq2 → r.toNat < d.toNat ∨ d.toNat + s.cog.q.toNat < r.toNat) →
    t.cog.lutAt r = s.cog.lutAt r
  ptr : ∀ p, t.cog.ptr p = s.cog.ptr p
  q : t.cog.q = s.cog.q

theorem load_leaves (w : Width) (a : HubAddr) (d : RegAddr) (wc wz : Bool) (todo : List Nat) (got : Word) (s : State) :
    ReadLeaves .none d s ((Transfer.load w a d wc wz todo got).finish s) where
  hub := rfl
  reg r hr _ := by simpa [Transfer.finish, completeLoad] using Cog.reg_setReg_other s.cog d r _ (hr rfl)
  lut r _ := by simp [Transfer.finish, completeLoad]
  ptr p := by simp [Transfer.finish, completeLoad]
  q := by simp [Transfer.finish, completeLoad]

theorem blockLoad_leaves (m : Side) (a : HubAddr) {d : RegAddr} (wc wz : Bool) {s : State}
    (hd : d.toNat + s.cog.q.toNat + 1 ≤ 512) :
    ReadLeaves m.pending d s ((Transfer.blockLoad m a d (s.cog.q.toNat + 1) wc wz).finish s) := by
  obtain ⟨-, outside, -, -, hub, ptra, ptrb, q, -, -, lut, regs⟩ := loadBlock_spec m wc wz s.cog.q.toNat a d s hd
  cases m with
  | regs => exact ⟨hub, fun r _ hr => outside r (hr rfl), fun r _ => Cog.lutAt_of (lut rfl) r, Cog.ptr_of ptra ptrb, q⟩
  | lut => exact ⟨hub, fun r _ _ => Cog.reg_of (regs rfl) r, fun r hr => outside r (hr rfl), Cog.ptr_of ptra ptrb, q⟩

/-- Settles O34: the frame and the flags as for every instruction, the rest from the transfer the read set up. -/
theorem readFrame : Obligations.ReadFrame := by
  intro e wc wz d src s t i hi h
  have flags : (wc = false → t.cog.c = s.cog.c) ∧ (wz = false → t.cog.z = s.cog.z) := by
    have := exec_flags h
    obtain rfl | rfl | rfl := hi <;> exact this
  have source : i.source = some src := by obtain rfl | rfl | rfl := hi <;> rfl
  refine ⟨exec_frame h, ?_⟩
  obtain rfl | ⟨s1, tr, hissue, moved, rfl⟩ := exec_access source h
  · simp
  · obtain ⟨hub, regs, lut, -, -, q, -, -, -, -, ptr⟩ := moved.same
    have leaves : ReadLeaves s.cog.qpfx d s1 (tr.finish s1) := by
      obtain ⟨hq, w, a, rfl⟩ | ⟨m, a, hq, rfl, hd⟩ := issue_read hi hissue <;> rw [hq]
      · exact load_leaves ..
      · rw [← q] at hd ⊢
        exact blockLoad_leaves m a wc wz hd
    exact ⟨fun b => by rw [leaves.hub, hub],
      fun r h1 h2 => (leaves.reg r h1 (by rwa [q])).trans (Cog.reg_of regs r),
      fun r h2 => (leaves.lut r (by rwa [q])).trans (Cog.lutAt_of lut r),
      flags.1, flags.2, fun p hp => (leaves.ptr p).trans (ptr p hp), leaves.q.trans q⟩

/-- Neither a pointer update nor the end of an instruction writes anything of the cog but that pointer, QPFX and pc. -/
theorem cog_of_moved_retire (moved : PointerMoved src s s1) (ht : t.cog = s1.cog.retire) :
    t.cog.regs = s.cog.regs ∧ t.cog.lut = s.cog.lut ∧ t.cog.c = s.cog.c ∧ t.cog.z = s.cog.z ∧
    (∀ p, updatedPtr src ≠ some p → t.cog.ptr p = s.cog.ptr p) ∧ t.cog.q = s.cog.q := by
  obtain ⟨-, regs, lut, c, z, q, -, -, -, -, ptr⟩ := moved.same
  rw [ht]
  exact ⟨regs, lut, c, z, fun p hp => (Cog.ptr_retire _ p).trans (ptr p hp), q⟩

/-- Settles O35: skipped, or the single write set up at the operand's address is finished. -/
theorem writeFrame : Obligations.WriteFrame := by
  intro e d data src w s t i hq hi h
  have source : i.source = some src := by obtain ⟨rfl, -⟩ | ⟨rfl, -⟩ | ⟨rfl, -⟩ | ⟨rfl, -⟩ := hi <;> rfl
  refine ⟨exec_frame h, ?_⟩
  obtain rfl | ⟨s1, tr, hissue, moved, rfl⟩ := exec_access source h
  · exact ⟨fun _ _ _ _ _ => rfl, cog_of_moved_retire (.inl rfl) (State.cog_retire s)⟩
  · obtain ⟨a, v, masked, rfl, ha⟩ := issue_write hq hi hissue
    obtain ⟨hub, -⟩ := moved.same
    refine ⟨fun a' s1' ha' b hb => ?_, cog_of_moved_retire moved (State.cog_retire _)⟩
    obtain ⟨rfl, rfl⟩ : a = a' ∧ s1 = s1' := by simpa [ha] using ha'
    refine (Memory.readByte_scatter_other _ masked v a _ b (fun i hi => ?_)).trans (congrArg (Memory.readByte · b) hub)
    rw [byteAddr_eq]
    exact hb i ((Width.mem_bytes w i).mp hi)

/-- Settles O36: skipped, or the block write or fill set up at the operand's address is finished. -/
theorem blockWriteFrame : Obligations.BlockWriteFrame := by
  intro e d data src s t i hq hi h
  have source : i.source = some src := by obtain rfl | rfl := hi <;> rfl
  refine ⟨exec_frame h, ?_⟩
  obtain rfl | ⟨s1, tr, hissue, moved, rfl⟩ := exec_access source h
  · exact ⟨fun _ _ _ _ _ => rfl, cog_of_moved_retire (.inl rfl) (State.cog_retire s)⟩
  · obtain ⟨origin, a, k, masked, rfl, ha, hp⟩ := issue_block_write hq hi hissue
    obtain ⟨hub, -⟩ := moved.same
    obtain ⟨-, kept, -⟩ := storeBlock_spec origin masked (s.cog.q.toNat + 1) a k s1 hp
    refine ⟨fun a' s1' ha' b hb => ?_,
      cog_of_moved_retire moved (Transfer.cog_finish_blockStore origin a k _ masked s1)⟩
    obtain ⟨rfl, rfl⟩ : a = a' ∧ s1 = s1' := by simpa [ha] using ha'
    exact (kept b hb).trans (congrArg (Memory.readByte · b) hub)

end Frames

end Sys2Proof.Machine
end

section
/-! PROOFS. Atomic events and several cogs (20_memory.md R35, R39; 70_reset_and_hazards.md R167): an access inside one
aligned long, a read of another cog's write, and a read torn by one. -/

namespace Sys2Proof.Machine

section Events

variable {s s1 t : State} {a : HubAddr}

/-! ### An access inside one aligned long -/

theorem inFirstLong_of_uncrossed {w : Width} (h : crosses a w = false) : ∀ j ∈ w.bytes, inFirstLong a j = true := by
  intro j hj
  have inside : j < w.scale := (Width.mem_bytes w j).mp hj
  have fits : ¬ 4 < a.toNat % 4 + w.scale := of_decide_eq_false h
  exact decide_eq_true (by omega)

/-- With no prefix pending an instruction sets up a single access, all of whose bytes are to be done. -/
theorem issue_single {i : Instr} {tr : Transfer} (hq : s.cog.qpfx = .none) (h : issue i s = some (.ok (s1, tr))) :
    (∃ w a d wc wz, tr = .load w a d wc wz w.bytes 0) ∨ ∃ w a v masked, tr = .store a v masked (Width.bytes w) := by
  have read : ∀ {w wc wz d src}, issueRead w wc wz d src s = .ok (s1, tr) →
      ∃ w a d wc wz, tr = .load w a d wc wz w.bytes 0 := fun h => by
    obtain ⟨a, ht, -⟩ := issueRead_ok h
    exact ⟨_, a, _, _, _, ht⟩
  have write : ∀ {w masked data src}, issueWrite w masked data src s = .ok (s1, tr) →
      ∃ w a v masked, tr = .store a v masked (Width.bytes w) := fun h => by
    obtain ⟨a, v, ht, -⟩ := issueWrite_ok h
    exact ⟨_, a, v, _, ht⟩
  cases i <;> simp only [issue, issueNarrowRead_of hq, issueNarrowWrite_of hq, issueRdlong, issueWrlong, issueWmlong,
    hq, Option.some.injEq, reduceCtorEq] at h
  case rdbyte | rdword | rdlong | popa | popb => exact .inl (read h)
  case wmlong | wrbyte | wrword | wrlong | pusha | pushb => exact .inr (write h)

theorem load_event_uncrossed (hiFirst : Bool) {w : Width} {d : RegAddr} {wc wz : Bool} {todo : List Nat} {got : Word}
    (hidle : s.cog.inFlight = none) (h : ∀ j ∈ todo, inFirstLong a j = true) :
    (Transfer.load w a d wc wz todo got).event hiFirst s = (Transfer.load w a d wc wz todo got).finish s := by
  simp [Transfer.event, Transfer.finish, splitPart_uncrossed h, State.park_none_self hidle]

theorem store_event_uncrossed (hiFirst : Bool) {v : Word} {masked : Bool} {todo : List Nat}
    (hidle : s.cog.inFlight = none) (h : ∀ j ∈ todo, inFirstLong a j = true) :
    (Transfer.store a v masked todo).event hiFirst s = (Transfer.store a v masked todo).finish s := by
  have park_none : (s.setHub (s.hub.scatter masked v a todo)).park none = s.setHub (s.hub.scatter masked v a todo) :=
    State.park_none_self hidle
  simp [Transfer.event, Transfer.finish, splitPart_uncrossed h, park_none]

/-- Settles O55: the one event of the single access that was set up is all of it. -/
theorem uncrossedAccessIsOneEvent : Obligations.UncrossedAccessIsOneEvent := by
  intro hiFirst i s hq hidle hload hstore
  obtain ⟨r, hi, he⟩ | ⟨hi, -⟩ := exec_eq i s
  · simp only [begin_, hi]
    rw [he]
    match r, hi with
    | .error why, hi => rfl
    | .ok (s1, tr), hi =>
      obtain ⟨src, -, issued⟩ := issue_issued hi
      have idle : s1.cog.inFlight = none := issued.moved.frame.inFlight.trans hidle
      have one_event : tr.event hiFirst s1 = tr.finish s1 := by
        obtain ⟨w, a, d, wc, wz, rfl⟩ | ⟨w, a, v, masked, rfl⟩ := issue_single hq hi
        · exact load_event_uncrossed hiFirst idle (inFirstLong_of_uncrossed (hload _ _ _ _ _ _ _ _ hi))
        · exact store_event_uncrossed hiFirst idle (hstore _ _ _ _ _ hi)
      simp only [performEvent, perform, one_event]
  · simp only [begin_, hi]

/-! ### Another cog's write -/

/-- What a completed WRLONG leaves for the other cogs. -/
theorem wrlong_leaves {data : Data} {src : Src} {v : Word} (hq : s.cog.qpfx = .none) (hv : readData data s = .ok v)
    (ha : effAddr src 4 s = .ok (a, s1)) (h : exec (.wrlong always data src) s = .next t) :
    populated a .long = true ∧ t.hub = s.hub.write a .long v := by
  rw [exec_wrlong_single hq] at h
  obtain ⟨s2, tr, hissue, rfl⟩ := perform_next h
  obtain ⟨b, x, rfl, hb, hx, hp⟩ := issueWrite_ok hissue
  have ha : effAddr src Width.long.scale s = .ok (a, s1) := ha
  obtain ⟨rfl, rfl⟩ : a = b ∧ s1 = s2 := by simpa [ha] using hb
  obtain rfl : v = x := Except.ok.inj (hv.symm.trans hx)
  obtain ⟨hub, -⟩ := (effAddr_ok ha).same
  exact ⟨hp, congrArg (Memory.write · a .long v) hub⟩

/-- Settles O57: Hub RAM is what the write left, and the long reads back. -/
theorem readSeesOtherCogsWrite : Obligations.ReadSeesOtherCogsWrite := by
  intro data src src' wc wz d v a k s s1 t u u1 hq hv ha ht hu _ hqu hd hau
  obtain ⟨hp, hub⟩ := wrlong_leaves hq hv ha ht
  have hub_u : u.hub = s.hub.write a .long v := by rw [hu]; exact hub
  refine ⟨_, (exec_rdlong_single wc wz hqu).trans (perform_issueRead wc wz hd hau hp), ?_⟩
  rw [Cog.reg_completeLoad_same, hub_u, Memory.read_write_long]

/-! ### A torn read -/

/-- The bytes of a long in the first and in the second aligned long it touches. -/
def lowBytes (a : HubAddr) : List Nat := Width.long.bytes.filter (fun i => inFirstLong a i)
def highBytes (a : HubAddr) : List Nat := Width.long.bytes.filter (fun i => !inFirstLong a i)

theorem mem_lowBytes (a : HubAddr) {i : Nat} (hi : i < 4) : i ∈ lowBytes a ↔ a.toNat % 4 + i < 4 := by
  simp [lowBytes, List.mem_filter, (Width.mem_bytes .long i).mpr hi, inFirstLong]

theorem mem_highBytes (a : HubAddr) {i : Nat} (hi : i < 4) : i ∈ highBytes a ↔ ¬ a.toNat % 4 + i < 4 := by
  simp [highBytes, List.mem_filter, (Width.mem_bytes .long i).mpr hi, inFirstLong]

/-- An unaligned long has bytes in both. -/
theorem splitPart_crossing (h : a.toNat % 4 ≠ 0) :
    splitPart false a Width.long.bytes = (lowBytes a, highBytes a) ∧ highBytes a ≠ [] := by
  have low : lowBytes a ≠ [] := List.ne_nil_of_mem ((mem_lowBytes a (i := 0) (by decide)).mpr (by omega))
  have high : highBytes a ≠ [] := List.ne_nil_of_mem ((mem_highBytes a (i := 3) (by decide)).mpr (by omega))
  refine ⟨?_, high⟩
  rw [splitPart, if_neg]
  · rfl
  · simpa [lowBytes, highBytes] using And.intro low high

/-- The bytes of the second long are one event. -/
theorem splitPart_highBytes (a : HubAddr) : splitPart false a (highBytes a) = (highBytes a, []) := by
  have none_low : (highBytes a).filter (fun i => inFirstLong a i) = [] := by
    simp [highBytes, List.filter_filter]
  rw [splitPart, if_pos]
  simp [none_low]

/-- The low part of a crossing RDLONG is read, the rest is kept. -/
theorem begin_rdlong_crossing {wc wz : Bool} {d : RegAddr} {src : Src} (hq : s.cog.qpfx = .none)
    (hd : namesPointer d = false) (ha : effAddr src 4 s = .ok (a, s1)) (hp : populated a .long = true)
    (h4 : a.toNat % 4 ≠ 0) : begin_ false (.rdlong always wc wz d src) s =
      .next (s1.park (some (.load .long a d wc wz (highBytes a) (s.hub.gather a (lowBytes a))))) := by
  obtain ⟨hub, -⟩ := (effAddr_ok ha).same
  obtain ⟨split, high⟩ := splitPart_crossing h4
  have issued : issueRead .long wc wz d src s = .ok (s1, .load .long a d wc wz Width.long.bytes 0) :=
    issueRead_of hd ha hp
  simp [begin_, issue, issueRdlong, hq, issued, performEvent, Transfer.event, split, high, hub,
    show (Instr.rdlong always wc wz d src).cond = always from rfl]

/-- The high part of a crossing RDLONG ends it. -/
theorem runEvent_rdlong_high {wc wz : Bool} {d : RegAddr} {got : Word}
    (h : s.cog.inFlight = some (.load .long a d wc wz (highBytes a) got)) :
    runEvent false s =
      .next (completeLoad .long d wc wz (got ||| s.hub.gather a (highBytes a)) (s.park none)) := by
  simp [runEvent, h, Transfer.event, splitPart_highBytes]

/-- Settles O58: the low bytes were gathered before the other cog's write and the high bytes after it, while the reading
cog kept its work in progress. -/
theorem crossingReadCanBeTorn : Obligations.CrossingReadCanBeTorn := by
  intro data src src' wc wz d v a j s s1 t u u1 r q hq _ hd ha hp h4 hbegin hu hj hqu hv hau hexec hend i hi
  obtain ⟨hub, -⟩ := (effAddr_ok ha).same
  obtain rfl := Host.Outcome.next.inj ((begin_rdlong_crossing hq hd ha hp h4).symm.trans hbegin)
  have cur : s1.cur = s.cur := (effAddr_ok ha).frame.cur
  obtain ⟨-, hub_r⟩ := wrlong_leaves hqu hv hau hexec
  have hub_u : u.hub = s.hub := by rw [hu]; exact hub
  rw [hub_u] at hub_r
  have kept : (r.cogs.get s.cur).inFlight =
      some (.load .long a d wc wz (highBytes a) (s.hub.gather a (lowBytes a))) := by
    have other : s.cur ≠ u.cur := by rw [hu]; exact hj.symm
    rw [(exec_frame hexec).others s.cur other, hu, ← cur]
    simp [State.park]
  obtain rfl := Host.Outcome.next.inj ((runEvent_rdlong_high (s := { r with cur := s.cur }) kept).symm.trans hend)
  have inside : byteAddr a i = a.toNat + i := by
    have first := (populated_iff a .long).mp hp 0 (by decide)
    unfold Config.hubSize at first
    have := a.isLt
    rw [byteAddr_eq]
    omega
  have written : (s.hub.write a .long v).readByte (byteAddr a i) = byteAt v i :=
    Memory.readByte_write_same _ a .long v ((Width.mem_bytes .long i).mpr hi)
  show byteAt _ i = _
  rw [Cog.reg_completeLoad_same, hub_r, byteAt_or, Memory.byteAt_gather _ _ _ hi, Memory.byteAt_gather _ _ _
    hi, written, inside]
  by_cases hlow : a.toNat % 4 + i < 4
  · simp [mem_lowBytes a hi, mem_highBytes a hi, hlow]
  · simp [mem_lowBytes a hi, mem_highBytes a hi, hlow, byteAt]

end Events

end Sys2Proof.Machine
end

section
/-! PROOFS. Slices and the timing figures (20_memory.md R36; 70_reset_and_hazards.md R170, R171). -/

namespace Sys2Proof.Machine

theorem toNat_sliceOf (a : HubAddr) : (sliceOf a).toNat = a.toNat / 4 % 8 := by
  simp [sliceOf, BitVec.extractLsb'_toNat, Nat.shiftRight_eq_div_pow]

/-- Settles O59: eight longs are eight consecutive numbers of longs; the wait is the distance of two slices modulo 8. -/
theorem slicesRotate : Obligations.SlicesRotate := by
  refine ⟨fun a i j hi hj h => ?apart, fun now a => ⟨?bound, ?reached, fun t ht reached => ?least⟩⟩
  case apart =>
    have h := congrArg BitVec.toNat h
    simp only [toNat_sliceOf, BitVec.toNat_add, BitVec.toNat_ofNat] at h
    omega
  case bound => exact Nat.le_of_lt_succ (sliceOf a - now).isLt
  case reached =>
    rw [sliceAfter, waitCycles, BitVec.ofNat_toNat, BitVec.setWidth_eq, BitVec.add_comm, BitVec.sub_add_cancel]
  case least =>
    have short : t < 2 ^ 3 := lt_trans ht (sliceOf a - now).isLt
    have wait : waitCycles now a = t := by
      rw [waitCycles, ← reached, sliceAfter, BitVec.add_comm, BitVec.add_sub_cancel, BitVec.toNat_ofNat,
        Nat.mod_eq_of_lt short]
    omega

/-- The figures of R170 are the base, the longest wait, and one cycle more for an access that can cross. -/
theorem cogexecRange_eq {i : Instr} {lo hi : Nat} (h : cogexecRange i = some (lo, hi)) :
    ∃ w, baseCycles i = some lo ∧ accessWidth i = some w ∧ hi = lo + 7 + if w = .byte then 0 else 1 := by
  cases i <;> cases h <;> exact ⟨_, rfl, rfl, rfl⟩

/-- A byte never crosses; a wider access does at an address 3 beyond a multiple of 4 (R34). -/
theorem crosses_byte (a : HubAddr) : crosses a .byte = false := by
  simp only [crosses, Width.scale]
  exact decide_eq_false (by omega)

/-- Settles O60: the wait is 0 to 7; at slice 0 the address 0 has no wait and does not cross, and from slice 1 the
address 3 has the longest wait and crosses if any address does. -/
theorem cycleRangesFollow : Obligations.CycleRangesFollow := by
  intro i lo hi h
  obtain ⟨w, hbase, hwidth, rfl⟩ := cogexecRange_eq h
  have cycles : ∀ now a, cogexecCycles i now a = some (lo + waitCycles now a + if crosses a w then 1 else 0) := by
    intro now a
    simp only [cogexecCycles, hbase, hwidth]
  refine ⟨fun now a => ⟨_, cycles now a, by omega, ?_⟩, ⟨0, 0, ?_⟩, ⟨1, 3, ?_⟩⟩
  · have wait := (slicesRotate.2 now a).1
    cases w with
    | byte => simp [crosses_byte]; omega
    | word | long => simp only [reduceCtorEq, if_false]; split <;> omega
  · rw [cycles]
    cases w <;> rfl
  · rw [cycles]
    cases w <;> rfl

end Sys2Proof.Machine
end
